-- ==== Sys2Proof/Word.lean ====
section
/-! DEFINITION. The words of the block: payload bytes, 16-bit protocol words and the 32-bit boot magic (00_scope.md R15). -/

namespace Sys2Proof

/-- One payload byte, or one byte of flash. -/
abbrev Byte := BitVec 8

/-- A *word*: 16 bits, unsigned (R15). -/
abbrev Word := BitVec 16

/-- A value of the boot magic latch: 32 bits (R27). -/
abbrev Magic := BitVec 32

/-- `u16(x)` is `x mod 2^16` (R15). -/
def u16 (x : Nat) : Word := BitVec.ofNat 16 x

end Sys2Proof
end

