-- ==== Sys2Proof/Syntax.lean ====
section
/-! DEFINITION. CAN frames at the framer's boundary, and the instruction set: one constructor per row of spec/opcode_table.json. -/

namespace Sys2Proof

/-- A CAN identifier (R57): 11 bits with `ide = 0`, 29 bits with `ide = 1`. -/
inductive CanId where
  /-- a standard identifier, `ide = 0` -/
  | std (id : BitVec 11)
  /-- an extended identifier, `ide = 1` -/
  | ext (id : BitVec 29)
  deriving DecidableEq, Repr

/-- A CAN frame, received or transmitted (R57). `ide` is the identifier's form and `len` the number of data bytes. -/
structure Frame where
  id   : CanId
  rtr  : Bool
  data : List Byte
  deriving DecidableEq, Repr

/-- The frame's `ide` bit (R57). -/
def Frame.ide (f : Frame) : Bool :=
  match f.id with
  | .std _ => false
  | .ext _ => true

/-- The frame's `len`: its payload byte count (R57). -/
def Frame.len (f : Frame) : Nat := f.data.length

/-- The five status codes, a closed enumeration in the source's order (R30, R64). Their numbers are parameters. -/
inductive Status where
  | ok
  | invalidSize
  /-- reserved: no rule of the block sends it (R70) -/
  | programFailed
  | notProgramming
  | invalidValue
  deriving DecidableEq, Repr

/-- The instruction set: the four host-to-device commands with the node id of word 1 and the argument words
`w[2..]` (R59, R60), and the three device-to-host pushes with their argument words (R61). A command carries 0 to 2
argument words: another number than the command requires is the same command with a wrong size (R60). -/
inductive Instr where
  /-- RESET: any arguments, ignored (R109) -/
  | reset (node : Word) (args : List Word)
  /-- READ_PAGE: one argument, the page index (R110) -/
  | readPage (node : Word) (args : List Word)
  /-- WRITE_PAGE: one argument, the page index (R113) -/
  | writePage (node : Word) (args : List Word)
  /-- PAGE_DATA: two arguments, the data words (R117) -/
  | pageData (node : Word) (args : List Word)
  /-- PUSH_DESCRIPTION: page size, first page index, page count (R124, R125) -/
  | pushDescription (size first count : Word)
  /-- PUSH_PAGE_DATA: two words of page content (R112) -/
  | pushPageData (d0 d1 : Word)
  /-- PUSH_ACK: one status code (R102) -/
  | pushAck (status : Status)
  deriving DecidableEq, Repr

/-- Why the decoder refuses a byte or word list. None of these traps: the block drops the frame (R68, R69). -/
inductive Reject where
  /-- an odd number of payload bytes (R91) -/
  | oddLength
  /-- fewer than two words: no node id, not a command (R59) -/
  | noNodeId
  /-- more than four words: no frame carries them (R58) -/
  | tooLong
  /-- word 0 is none of the four host-to-device opcodes (R68) -/
  | unrecognised
  /-- not one of the three push forms of R61 -/
  | notAPush
  /-- an ACK whose status word is none of the five status codes (R64) -/
  | unknownStatus
  deriving DecidableEq, Repr

end Sys2Proof
end

