-- ==== Sys2Proof/Config.lean ====
section
/-! DEFINITION. The parameters an implementation fixes (00_scope.md R10 to R12), the reference configurations REF and TINY (R14),
and the free values that stand for `draw()` (R16). -/

namespace Sys2Proof

/-- The policy `OOR_READ` (R12): what a READ_PAGE of a page index outside the region does (R111). -/
inductive OorRead where
  | fault
  | anyValue
  deriving DecidableEq, Repr

/-- The policy `MAGIC_POR` (R12): the boot magic after power-on (R33). -/
inductive MagicPor where
  | cleared
  | arbitrary
  deriving DecidableEq, Repr

/-- The parameter `TX_ID` as plain data (R65). DESIGN CHOICE (log 2): the block applies TX_ID to its own NODE_ID only, so
any TX_ID is either the REF layout or one given identifier. -/
inductive TxIdLayout where
  /-- the REF layout: a 3-bit type above the node id's low 8 bits -/
  | typeAndNode (type : BitVec 3)
  /-- the identifier `TX_ID(NODE_ID)` itself -/
  | given (id : BitVec 11)
  deriving DecidableEq, Repr

/-- The parameter `RX_ACCEPT` as plain data (R66). DESIGN CHOICE (log 3): REF's rule, or an uninterpreted predicate. -/
inductive RxAccept where
  /-- REF: every data frame, of any identifier -/
  | allData
  /-- any other acceptance rule: the uninterpreted predicate `Config.rxAcceptOther` -/
  | other
  deriving DecidableEq, Repr

/-- The parameters of R10 (geometry), R11 (protocol values) and R12 (policies). -/
structure Config where
  pageWords       : Nat
  pagesPerSector  : Nat
  availablePages  : Nat
  flashBase       : Nat
  firstSectorId   : Nat
  nodeId          : Word
  opReset         : Word
  opReadPage      : Word
  opWritePage     : Word
  opPageData      : Word
  opDescription   : Word
  opPageDataRead  : Word
  opAck           : Word
  stOk            : Word
  stInvalidSize   : Word
  stProgramFailed : Word
  stNotProgramming : Word
  stInvalidValue  : Word
  descPageSize    : Word
  firstPageIndex  : Word
  sentinel        : Magic
  magicClear      : Magic
  timeoutTicks    : Nat
  txId            : TxIdLayout
  rxAccept        : RxAccept
  oorRead         : OorRead
  flashReliable   : Bool
  magicPor        : MagicPor
  deriving DecidableEq, Repr

namespace Config

/-- `PAGE_BYTES = 2*PAGE_WORDS` (R10). -/
def pageBytes (c : Config) : Nat := 2 * c.pageWords

/-- `SECTOR_BYTES = PAGE_BYTES*PAGES_PER_SECTOR` (R10). -/
def sectorBytes (c : Config) : Nat := c.pageBytes * c.pagesPerSector

/-- The number of sectors of the region, `AVAILABLE_PAGES/PAGES_PER_SECTOR` (R43). -/
def sectors (c : Config) : Nat := c.availablePages / c.pagesPerSector

/-- The first byte address above the region, `FLASH_BASE + AVAILABLE_PAGES*PAGE_BYTES` (R41). -/
def flashEnd (c : Config) : Nat := c.flashBase + c.availablePages * c.pageBytes

/-- The reference configuration REF (R10, R11, R12, R14). -/
def ref : Config where
  pageWords := 4096
  pagesPerSector := 16
  availablePages := 112
  flashBase := 0x08020000
  firstSectorId := 5
  nodeId := 0x0001
  opReset := 0x8000
  opReadPage := 0x8001
  opWritePage := 0x8002
  opPageData := 0x8003
  opDescription := 0x8004
  opPageDataRead := 0x8005
  opAck := 0x8006
  stOk := 0
  stInvalidSize := 1
  stProgramFailed := 2
  stNotProgramming := 3
  stInvalidValue := 4
  descPageSize := 0x2000
  firstPageIndex := 0
  sentinel := 0xB00710AD
  magicClear := 0
  timeoutTicks := 1000
  txId := .typeAndNode 0b011
  rxAccept := .allData
  oorRead := .fault
  flashReliable := true
  magicPor := .cleared

/-- The small configuration TINY for test vectors (R14). -/
def tiny : Config :=
  { ref with pageWords := 4, pagesPerSector := 2, availablePages := 4, descPageSize := 0x0008, timeoutTicks := 3 }

/-- A 16-bit `draw()` (R16), the n-th of a run. Free value (log 4): no body, so nothing can be proved of it. -/
opaque freeWord : Nat → Word

/-- A 32-bit `draw()`, for the boot magic under `MAGIC_POR = arbitrary` (R33). Free value (log 4). -/
opaque freeMagic : Nat → Magic

/-- The outcome draw of a transmission: true for `ok` (R96). Free value (log 4). -/
opaque freeTxOk : Nat → Bool

/-- The byte of flash at an address before anything erased or programmed it: a draw at the first power-on (R28, R33).
Free value (log 5). -/
opaque firstFlash : Nat → Byte

/-- The acceptance rule of a configuration whose `RX_ACCEPT` is not REF's (R66). Free value (log 3). -/
opaque rxAcceptOther : Frame → Bool

end Config

end Sys2Proof
end

