-- ==== Sys2Proof/WellFormed.lean ====
section
/-! DEFINITION. What is well formed: a frame (R57), an instruction (R60), a configuration (R13). -/

namespace Sys2Proof

/-- A frame carries at most 8 payload bytes (R57). -/
def Frame.wellFormed (f : Frame) : Bool := decide (f.data.length ≤ 8)

/-- A command carries at most two argument words, because a frame carries at most four words (R58, R60). The pushes have
their words as fields, and every value of them has an encoding. -/
def Instr.wellFormed (i : Instr) : Bool :=
  match i with
  | .reset _ args => decide (args.length ≤ 2)
  | .readPage _ args => decide (args.length ≤ 2)
  | .writePage _ args => decide (args.length ≤ 2)
  | .pageData _ args => decide (args.length ≤ 2)
  | .pushDescription _ _ _ => true
  | .pushPageData _ _ => true
  | .pushAck _ => true

/-- The instruction is one of the four host-to-device commands (R62). -/
def Instr.isCommand (i : Instr) : Bool :=
  match i with
  | .reset _ _ => true
  | .readPage _ _ => true
  | .writePage _ _ => true
  | .pageData _ _ => true
  | .pushDescription _ _ _ => false
  | .pushPageData _ _ => false
  | .pushAck _ => false

namespace Config

/-- The geometry bounds of R10 and R13. -/
def geometryOk (c : Config) : Bool :=
  decide (c.pageWords % 2 = 0 ∧ 2 ≤ c.pageWords ∧ c.pageWords ≤ 32768) &&
  decide (2 ≤ c.pagesPerSector ∧ c.pagesPerSector ≤ 65535) &&
  decide (c.availablePages % c.pagesPerSector = 0 ∧ 1 ≤ c.availablePages ∧ c.availablePages ≤ 65535) &&
  decide (c.flashBase % c.sectorBytes = 0) &&
  decide (c.flashEnd ≤ 2 ^ 32) &&
  decide (c.firstSectorId + c.sectors ≤ 65536)

/-- The four host-to-device opcodes are pairwise distinct (R13). -/
def opcodesOk (c : Config) : Bool :=
  decide ([c.opReset, c.opReadPage, c.opWritePage, c.opPageData].Nodup)

/-- The five status values are pairwise distinct (R13). -/
def statusesOk (c : Config) : Bool :=
  decide ([c.stOk, c.stInvalidSize, c.stProgramFailed, c.stNotProgramming, c.stInvalidValue].Nodup)

/-- The REF layout of TX_ID requires `NODE_ID ≤ 0x00FF` (R65, log 27). -/
def txIdOk (c : Config) : Bool :=
  match c.txId with
  | .typeAndNode _ => decide (c.nodeId.toNat ≤ 0xFF)
  | .given _ => true

/-- A configuration is admissible (R13; with the widths of R10 and R11, TIMEOUT_TICKS a 16-bit word among them, and R65's
condition on the REF layout of TX_ID). -/
def admissible (c : Config) : Bool :=
  c.geometryOk && c.opcodesOk && c.statusesOk && c.txIdOk &&
  decide (c.sentinel ≠ c.magicClear) && decide (1 ≤ c.timeoutTicks ∧ c.timeoutTicks ≤ 65535)

end Config

end Sys2Proof
end

