-- ==== Sys2Proof/Decode.lean ====
section
/-! DEFINITION. The byte order of frames, the decoder (total on any bytes, rejecting by name), the encoder, and the reading of
opcode-table words (30_encoding.md). -/

namespace Sys2Proof

/-- Bits 7..0 of a word (R46). -/
def loByte (w : Word) : Byte := w.extractLsb' 0 8

/-- Bits 15..8 of a word (R46). -/
def hiByte (w : Word) : Byte := w.extractLsb' 8 8

/-- `zext_16(hi) << 8 | zext_16(lo)` (R58). -/
def joinWord (lo hi : Byte) : Word := hi.setWidth 16 <<< 8 ||| lo.setWidth 16

/-- Words to payload bytes, least significant byte first (R58). -/
def packWords : List Word → List Byte
  | [] => []
  | w :: ws => loByte w :: hiByte w :: packWords ws

/-- Payload bytes to words; an odd count is malformed (R58, R91). -/
def unpackBytes : List Byte → Except Reject (List Word)
  | [] => .ok []
  | [_] => .error .oddLength
  | lo :: hi :: bs =>
    match unpackBytes bs with
    | .ok ws => .ok (joinWord lo hi :: ws)
    | .error e => .error e

/-- The number of a status code (R11, R64). -/
def statusWord (c : Config) : Status → Word
  | .ok => c.stOk
  | .invalidSize => c.stInvalidSize
  | .programFailed => c.stProgramFailed
  | .notProgramming => c.stNotProgramming
  | .invalidValue => c.stInvalidValue

/-- The status code of a number; a number of no code is refused (R64, log 23). -/
def statusOf (c : Config) (w : Word) : Except Reject Status :=
  if w = c.stOk then .ok .ok
  else if w = c.stInvalidSize then .ok .invalidSize
  else if w = c.stProgramFailed then .ok .programFailed
  else if w = c.stNotProgramming then .ok .notProgramming
  else if w = c.stInvalidValue then .ok .invalidValue
  else .error .unknownStatus

/-- The command a received word list stands for (R59, R60, R63): all 16 bits of word 0 select it, word 1 is the node id. -/
def decodeCommand (c : Config) (ws : List Word) : Except Reject Instr :=
  match ws with
  | op :: node :: args =>
    if args.length > 2 then .error .tooLong
    else if op = c.opReset then .ok (.reset node args)
    else if op = c.opReadPage then .ok (.readPage node args)
    else if op = c.opWritePage then .ok (.writePage node args)
    else if op = c.opPageData then .ok (.pageData node args)
    else .error .unrecognised
  | _ => .error .noNodeId

/-- The push a transmitted word list stands for (R61). Its opcodes are a name space of their own (R62). -/
def decodePush (c : Config) (ws : List Word) : Except Reject Instr :=
  match ws with
  | [op, size, first, count] =>
    if op = c.opDescription then .ok (.pushDescription size first count) else .error .notAPush
  | [op, d0, d1] =>
    if op = c.opPageDataRead then .ok (.pushPageData d0 d1) else .error .notAPush
  | [op, st] =>
    if op = c.opAck then
      match statusOf c st with
      | .ok status => .ok (.pushAck status)
      | .error e => .error e
    else .error .notAPush
  | _ => .error .notAPush

/-- The decoder over both name spaces, from payload bytes: a host-to-device command, else a push. -/
def decodeBytes (c : Config) (bs : List Byte) : Except Reject Instr :=
  match unpackBytes bs with
  | .error e => .error e
  | .ok ws =>
    match decodeCommand c ws with
    | .ok i => .ok i
    | .error .unrecognised =>
      match decodePush c ws with
      | .ok i => .ok i
      | .error .unknownStatus => .error .unknownStatus
      | .error _ => .error .unrecognised
    | .error e => .error e

/-- The words of an instruction (R60, R61). -/
def encode (c : Config) (i : Instr) : List Word :=
  match i with
  | .reset node args => c.opReset :: node :: args
  | .readPage node args => c.opReadPage :: node :: args
  | .writePage node args => c.opWritePage :: node :: args
  | .pageData node args => c.opPageData :: node :: args
  | .pushDescription size first count => [c.opDescription, size, first, count]
  | .pushPageData d0 d1 => [c.opPageDataRead, d0, d1]
  | .pushAck status => [c.opAck, statusWord c status]

/-- The payload bytes of an instruction (R58). -/
def encodeBytes (c : Config) (i : Instr) : List Byte := packWords (encode c i)

/-- How many words the opcode table's row for an opcode has, with exactly the required arguments (R60, R61); RESET needs
none, and an opcode of no row is given two words (log 18). -/
def rowWords (c : Config) (op : Word) : Nat :=
  if op = c.opReset then 2
  else if op = c.opReadPage then 3
  else if op = c.opWritePage then 3
  else if op = c.opPageData then 4
  else if op = c.opDescription then 4
  else if op = c.opPageDataRead then 3
  else 2

/-- The payload bytes of an opcode-table word: bit 0 is the least significant bit of word 0, and every bit above `nbits`
is 0 (log 18). -/
def tableBytes (c : Config) (nbits w : Nat) : List Byte :=
  let bits := w % 2 ^ nbits
  (List.range (2 * rowWords c (u16 bits))).map fun j => BitVec.ofNat 8 (bits >>> (8 * j))

/-- The instruction the decoder reads from an opcode-table word, under REF. -/
def decodeTableWord (nbits w : Nat) : Option Instr :=
  (decodeBytes Config.ref (tableBytes Config.ref nbits w)).toOption

end Sys2Proof
end

