-- ==== Sys2Proof/Machine/State.lean ====
section
/-! DEFINITION. The state of the block and of its environment, the reasons a step can stop, and the state after reset
(10_state.md). -/

namespace Sys2Proof.Machine

open Sys2Proof

/-- The sequencing register `phase` (R18). -/
inductive Phase where
  /-- just out of reset, the latch not examined -/
  | boot
  /-- resident, the description push not sent -/
  | init
  /-- resident, polling the framer and serving commands -/
  | run
  /-- a system reset requested and not yet delivered -/
  | resetPending
  /-- control has passed to the application -/
  | app
  /-- absorbing (R24) -/
  | fault
  deriving DecidableEq, Repr

/-- The two resets (R32, R151). -/
inductive ResetKind where
  | powerOn
  | sysReset
  deriving DecidableEq, Repr

/-- The reasons recorded in the register `fault` (R26). The first two are the spec's; the other two are the model's own
(log 15), and a state that meets the invariants never records them. All four are safe: the run stops. -/
inductive FaultReason where
  /-- READ_PAGE of a page outside the region under `OOR_READ = fault` (R111); safe -/
  | outOfRegionRead (page : Word)
  /-- an erase or program with `flash_unlocked = 0` (R83, R84); safe -/
  | programWhileLocked (addr : Nat)
  /-- the model's own: an erase or program at an address that is not an even address of the region (R41); safe -/
  | outsideRegion (addr : Nat)
  /-- the model's own: a write to a buffer entry that does not exist (R22); safe -/
  | outsideBuffer (index : Nat)
  deriving DecidableEq, Repr

/-- The faults a step can answer. -/
inductive Fault where
  /-- raised by `step` in the phase FAULT, with the recorded reason: no event is enabled there (R24); safe, the run stops -/
  | absorbed (reason : Option FaultReason)
  deriving DecidableEq, Repr

/-- The refusals a step can answer. -/
inductive Refusal where
  /-- an instruction with no meaning yet; no instruction of this model is refused so; safe -/
  | notModelled (mnemonic : String)
  /-- raised by `step` when the configuration is not admissible (R13, I26); safe -/
  | inadmissibleConfig
  /-- raised by `step` when the pending frame has more than 8 bytes, which no CAN frame has (R57); safe -/
  | malformedFrame
  /-- raised by the meaning of PUSH_ACK for the status PROGRAM_FAILED, which is reserved and never sent (R70, I1; log 16);
  no step runs it; safe -/
  | reservedStatus
  deriving DecidableEq, Repr

/-- The environment's choice for a transmission (R96). -/
inductive TxOutcome where
  | ok
  | fail
  deriving DecidableEq, Repr

/-- The block's own steps, the four of R7: `Boot`, `Init`, `Rx` of the head of the receive queue, `Tick`. -/
inductive BlockEvent where
  | boot
  | init
  | rx
  | tick
  deriving DecidableEq, Repr

/-- One entry of the environment's schedule. -/
inductive Event where
  /-- `PowerOn` or `SysReset` between steps -/
  | reset (kind : ResetKind)
  /-- a step of the block, run to its end (R8) -/
  | block (e : BlockEvent)
  /-- a step of the block cut by a reset after its first `done` actions; `torn` says that the next action was in progress
  (R158) -/
  | cut (e : BlockEvent) (done : Nat) (torn : Bool) (kind : ResetKind)
  /-- a frame of the bus reaches the CAN controller's receive queue (R31, D27) -/
  | arrive (f : Frame)
  /-- the controller loses the i-th pending frame (D27) -/
  | lose (i : Nat)
  deriving DecidableEq, Repr

/-- Flash as a list of (address, byte) pairs. An address that is not listed has not been erased or programmed since the
first power-on. -/
abbrev Memory := List Host.Cell

end Sys2Proof.Machine

namespace Sys2Proof.Machine

open Sys2Proof

/-- The machine's state: the configuration, the registers of R17, the page buffer, the flash, the CAN controller's receive
queue (R31), the outputs of the latest step (R9), and the environment's choices as data. -/
structure State where
  /-- the parameters of R10 to R12; no step changes them (R30) -/
  cfg             : Config
  phase           : Phase
  programmingMode : Bool
  currentPage     : Word
  cursor          : Word
  buf             : List Word
  timeoutEnabled  : Bool
  timer           : Nat
  flashUnlocked   : Bool
  fault           : Option FaultReason
  magic           : Magic
  mem             : Memory
  /-- frames pending in the CAN controller, oldest first -/
  rxQueue         : List Frame
  /-- the step's transmit list: the frames offered, in order, each with its outcome -/
  tx              : List (Frame × TxOutcome)
  /-- the one-shot output `jump_app` -/
  jumpApp         : Bool
  /-- the one-shot output `sys_reset_req` -/
  sysResetReq     : Bool
  /-- the model's own field: the environment's schedule, next event first (log 8) -/
  sched           : List Event
  /-- the model's own field: how many free values have been drawn (log 4) -/
  draws           : Nat
  deriving DecidableEq, Repr

/-- The state after the first power-on under REF (R33): flash lists nothing, since its contents are a draw, and the buffer
holds one draw per entry. -/
def State.reset : State where
  cfg := Config.ref
  phase := .boot
  programmingMode := false
  currentPage := 0
  cursor := 0
  buf := (List.range Config.ref.pageWords).map Config.freeWord
  timeoutEnabled := true
  timer := 0
  flashUnlocked := false
  fault := none
  magic := Config.ref.magicClear
  mem := []
  rxQueue := []
  tx := []
  jumpApp := false
  sysResetReq := false
  sched := []
  draws := Config.ref.pageWords

end Sys2Proof.Machine
end

