-- ==== Sys2Proof/Machine/Framer.lean ====
section
/-! DEFINITION. The CAN frame framer (42_framer.md): what it takes, what it decodes, and the frame it offers. -/

namespace Sys2Proof.Machine

open Sys2Proof

/-- `RX_ACCEPT(f)`: under REF every data frame (R66). -/
def rxAccept (c : Config) (f : Frame) : Bool :=
  match c.rxAccept with
  | .allData => !f.rtr
  | .other => Config.rxAcceptOther f

/-- `receive`: the words of a frame, or none when the framer drops it: a remote frame, a frame `RX_ACCEPT` does not take,
an odd payload (R91, R69). -/
def receive (c : Config) (f : Frame) : Option (List Word) :=
  if f.rtr then none
  else if rxAccept c f then (unpackBytes f.data).toOption
  else none

/-- `TX_ID(NODE_ID)` (R65). -/
def txIdOf (c : Config) : BitVec 11 :=
  match c.txId with
  | .typeAndNode type => type ++ c.nodeId.extractLsb' 0 8
  | .given id => id

/-- The frame `send(ws)` offers (R95). -/
def frameOf (c : Config) (ws : List Word) : Frame where
  id := .std (txIdOf c)
  rtr := false
  data := packWords ws

/-- The n-th outcome draw (R96, log 24). -/
def txOutcome (n : Nat) : TxOutcome := if Config.freeTxOk n then .ok else .fail

end Sys2Proof.Machine
end

