-- ==== Sys2Proof/Machine/Mapper.lean ====
section
/-! DEFINITION. The combinational flash mapper (41_flash_sequencer.md R80, R81; 20_memory.md R42, R43). -/

namespace Sys2Proof.Machine

open Sys2Proof

/-- `page_address(p, w)`, an exact integer (R80). -/
def pageAddress (c : Config) (p w : Nat) : Nat := c.flashBase + p * c.pageBytes + 2 * w

/-- `page_sector(p)`: the physical sector of a sector head, none for any other page (R81). -/
def pageSector (c : Config) (p : Nat) : Option Nat :=
  if p % c.pagesPerSector = 0 then some (c.firstSectorId + p / c.pagesPerSector) else none

/-- The first byte address of a physical sector (R43, R83). -/
def sectorAddress (c : Config) (sid : Nat) : Nat := c.flashBase + (sid - c.firstSectorId) * c.sectorBytes

/-- A physical sector id of the region (R83). -/
def sectorInRegion (c : Config) (sid : Nat) : Bool :=
  decide (c.firstSectorId ≤ sid ∧ sid < c.firstSectorId + c.sectors)

/-- An even byte address of the region (R41). -/
def halfInRegion (c : Config) (a : Nat) : Bool :=
  decide (a % 2 = 0 ∧ c.flashBase ≤ a ∧ a + 2 ≤ c.flashEnd)

end Sys2Proof.Machine
end

