-- ==== Sys2Proof/Machine/Memory.lean ====
section
/-! DEFINITION. The flash as a list of cells: its canonical form, reading one byte, writing a run of bytes, and halfwords
(20_memory.md R41, R47). -/

namespace Sys2Proof.Machine

open Sys2Proof

namespace Memory

/-- The canonical form: addresses strictly rising. An unlisted address reads as `unlisted`, which is no value, so no entry
can equal what an unlisted address reads as. -/
abbrev wf (m : Memory) : Prop := m.Pairwise (fun c d => c.1 < d.1)

/-- What an unlisted address reads as: no value. The byte was never erased or programmed since the first power-on, and
`readByte` takes it from that power-on's draw (R28, log 5). -/
def unlisted : Option Byte := none

/-- The byte listed at an address. -/
def get? : Memory → Nat → Option Byte
  | [], _ => unlisted
  | (b, v) :: m, a => if b = a then some v else get? m a

/-- Consecutive cells from an address on. -/
def cellsFrom : Nat → List Byte → Memory
  | _, [] => []
  | a, v :: vs => (a, v) :: cellsFrom (a + 1) vs

/-- Write a run of bytes from an address on. -/
def write (m : Memory) (a : Nat) (bytes : List Byte) : Memory :=
  m.filter (fun c => decide (c.1 < a)) ++ cellsFrom a bytes ++
    m.filter (fun c => decide (a + bytes.length ≤ c.1))

/-- The byte at an address: the one listed, or the draw of the first power-on (R28, R33). -/
def readByte (m : Memory) (a : Nat) : Byte := (get? m a).getD (Config.firstFlash a)

/-- The halfword at an address, low byte first (R41, R47). -/
def readHalf (m : Memory) (a : Nat) : Word := joinWord (readByte m a) (readByte m (a + 1))

/-- Store a halfword, low byte first (R47). -/
def writeHalf (m : Memory) (a : Nat) (v : Word) : Memory := write m a [loByte v, hiByte v]

end Memory

end Sys2Proof.Machine
end

