-- ==== Sys2Proof/Machine/Ops.lean ====
section
/-! DEFINITION. The primitive actions of the pseudocode (00_scope.md R16), one named update of the state each, their run in
pseudocode order, what an interrupting reset leaves of the action in progress (R158), raising a fault, and the two resets. -/

namespace Sys2Proof.Machine

open Sys2Proof

/-- One primitive action of a rule's pseudocode. A step of the block is a list of them, in pseudocode order, and R158 cuts
it between two of them or inside one. -/
inductive Action where
  | setTimer (v : Nat)
  | setTimeoutEnabled (v : Bool)
  | setProgrammingMode (v : Bool)
  | setCurrentPage (v : Word)
  | setCursor (v : Word)
  /-- `buf[i] <- v` -/
  | setBuf (i : Nat) (v : Word)
  | setFlashUnlocked (v : Bool)
  /-- `EraseSector(s)` -/
  | eraseSector (sid : Nat)
  /-- `MemWrite(a, 2, v)` -/
  | memWrite (a : Nat) (v : Word)
  | setMagic (v : Magic)
  /-- `jump_app <- 1` -/
  | pulseJumpApp
  /-- `sys_reset_req <- 1` -/
  | pulseSysResetReq
  | setPhase (v : Phase)
  /-- `send(ws)` -/
  | send (ws : List Word)
  /-- `send([OP_PAGE_DATA_READ, draw(), draw()])` (R111) -/
  | sendDrawn
  /-- `raise Fault(reason)` -/
  | raiseFault (r : FaultReason)
  deriving DecidableEq, Repr

namespace State

/-- `raise Fault(reason)`: record the reason and enter FAULT (R16, R26, log 12). -/
def raiseFault (r : FaultReason) (s : State) : State := { s with fault := some r, phase := .fault }

/-- `timer <- v` -/
def setTimer (v : Nat) (s : State) : State := { s with timer := v }

/-- `timeout_enabled <- v` -/
def setTimeoutEnabled (v : Bool) (s : State) : State := { s with timeoutEnabled := v }

/-- `programming_mode <- v` -/
def setProgrammingMode (v : Bool) (s : State) : State := { s with programmingMode := v }

/-- `current_page <- v` -/
def setCurrentPage (v : Word) (s : State) : State := { s with currentPage := v }

/-- `cursor <- v` -/
def setCursor (v : Word) (s : State) : State := { s with cursor := v }

/-- The page buffer with a given content. -/
def setBuf (v : List Word) (s : State) : State := { s with buf := v }

/-- `flash_unlocked <- v` -/
def setFlashUnlocked (v : Bool) (s : State) : State := { s with flashUnlocked := v }

/-- `magic <- v` -/
def setMagic (v : Magic) (s : State) : State := { s with magic := v }

/-- The flash with a given content. -/
def setMem (v : Memory) (s : State) : State := { s with mem := v }

/-- `phase <- v` -/
def setPhase (v : Phase) (s : State) : State := { s with phase := v }

/-- `jump_app <- 1` for this step (R74) -/
def pulseJumpApp (s : State) : State := { s with jumpApp := true }

/-- `sys_reset_req <- 1` for this step (R76) -/
def pulseSysResetReq (s : State) : State := { s with sysResetReq := true }

/-- Count `n` free values as drawn (R16). -/
def advanceDraws (n : Nat) (s : State) : State := { s with draws := s.draws + n }

/-- Append a frame and its outcome to the step's transmit list (R95). -/
def appendTx (f : Frame) (o : TxOutcome) (s : State) : State := { s with tx := s.tx ++ [(f, o)] }

/-- The receive queue with a given content. -/
def setRxQueue (v : List Frame) (s : State) : State := { s with rxQueue := v }

/-- The schedule with a given content. -/
def setSched (v : List Event) (s : State) : State := { s with sched := v }

/-- A step starts with an empty transmit list and its one-shot outputs at 0 (R9, R74, R76). -/
def clearOutputs (s : State) : State := { s with tx := [], jumpApp := false, sysResetReq := false }

end State

/-- `n` halfword draws, as flash bytes (R16, R47). -/
def drawnBytes (first n : Nat) : List Byte :=
  packWords ((List.range n).map fun i => Config.freeWord (first + i))

/-- `buf[i] <- v` (R118). An index outside the buffer, which no reachable state forms, is the model's own fault (log 15). -/
def writeBuf (i : Nat) (v : Word) (s : State) : State :=
  if i < s.buf.length then s.setBuf (s.buf.set i v) else s.raiseFault (.outsideBuffer i)

/-- Leave draws in the `n` halfwords from an address on. -/
def scramble (a n : Nat) (s : State) : State :=
  (s.setMem (s.mem.write a (drawnBytes s.draws n))).advanceDraws n

/-- `EraseSector(s)` (R83): locked flash faults; every halfword of the sector becomes 0xFFFF, or a draw when the flash is
not reliable (R89). -/
def eraseSector (sid : Nat) (s : State) : State :=
  if s.flashUnlocked = false then s.raiseFault (.programWhileLocked (sectorAddress s.cfg sid))
  else if sectorInRegion s.cfg sid = false then s.raiseFault (.outsideRegion (sectorAddress s.cfg sid))
  else if s.cfg.flashReliable then
    s.setMem (s.mem.write (sectorAddress s.cfg sid) (List.replicate s.cfg.sectorBytes 0xFF))
  else scramble (sectorAddress s.cfg sid) (s.cfg.sectorBytes / 2) s

/-- `MemWrite(a, 2, v)` (R84): locked flash faults; an erased halfword takes the value; a halfword that is not erased, or
any halfword of a flash that is not reliable, becomes a draw. -/
def memWrite (a : Nat) (v : Word) (s : State) : State :=
  if s.flashUnlocked = false then s.raiseFault (.programWhileLocked a)
  else if halfInRegion s.cfg a = false then s.raiseFault (.outsideRegion a)
  else if s.cfg.flashReliable = true ∧ s.mem.readHalf a = 0xFFFF then s.setMem (s.mem.writeHalf a v)
  else scramble a 1 s

/-- `MemRead(a, 2)` (R82; outside the region: log 28). -/
def memRead (s : State) (a : Nat) : Word := s.mem.readHalf a

/-- `read_word(p, w)` (R87): it reads flash, never the page buffer. -/
def readWord (s : State) (p w : Nat) : Word := memRead s (pageAddress s.cfg p w)

/-- `send(ws)` (R95): offer the frame with an outcome draw; more than four words offer nothing (R97). -/
def send (ws : List Word) (s : State) : State :=
  if ws.length > 4 then s
  else (s.appendTx (frameOf s.cfg ws) (txOutcome s.draws)).advanceDraws 1

/-- `send([OP_PAGE_DATA_READ, draw(), draw()])` (R111): the two data draws come first (log 25). -/
def sendDrawn (s : State) : State :=
  send [s.cfg.opPageDataRead, Config.freeWord s.draws, Config.freeWord (s.draws + 1)] (s.advanceDraws 2)

/-- The effect of one action. -/
def perform (a : Action) (s : State) : State :=
  match a with
  | .setTimer v => s.setTimer v
  | .setTimeoutEnabled v => s.setTimeoutEnabled v
  | .setProgrammingMode v => s.setProgrammingMode v
  | .setCurrentPage v => s.setCurrentPage v
  | .setCursor v => s.setCursor v
  | .setBuf i v => writeBuf i v s
  | .setFlashUnlocked v => s.setFlashUnlocked v
  | .eraseSector sid => eraseSector sid s
  | .memWrite addr v => memWrite addr v s
  | .setMagic v => s.setMagic v
  | .pulseJumpApp => s.pulseJumpApp
  | .pulseSysResetReq => s.pulseSysResetReq
  | .setPhase v => s.setPhase v
  | .send ws => send ws s
  | .sendDrawn => sendDrawn s
  | .raiseFault r => s.raiseFault r

/-- Actions in order; a raised fault ends the step (R16), and FAULT is absorbing (R24). -/
def run : List Action → State → State
  | [], s => s
  | a :: rest, s => if s.phase = .fault then s else run rest (perform a s)

/-- What the action in progress at the cut leaves (R158.3): every halfword it would have erased or programmed holds a draw;
any other action has no effect until it is done. -/
def tear (a : Action) (s : State) : State :=
  match a with
  | .eraseSector sid =>
    if s.flashUnlocked = true ∧ sectorInRegion s.cfg sid = true then
      scramble (sectorAddress s.cfg sid) (s.cfg.sectorBytes / 2) s
    else s
  | .memWrite addr _ =>
    if s.flashUnlocked = true ∧ halfInRegion s.cfg addr = true then scramble addr 1 s else s
  | _ => s

/-- The value `PowerOn` gives the latch (R33). -/
def powerOnMagic (s : State) : State :=
  match s.cfg.magicPor with
  | .cleared => s.setMagic s.cfg.magicClear
  | .arbitrary => (s.setMagic (Config.freeMagic s.draws)).advanceDraws 1

/-- The session domain after any reset (R32, R33): the buffer holds one draw per entry. -/
def resetSession (s : State) : State :=
  { s with
    phase := .boot, programmingMode := false, currentPage := 0, cursor := 0,
    buf := (List.range s.cfg.pageWords).map (fun i => Config.freeWord (s.draws + i)),
    timeoutEnabled := true, timer := 0, flashUnlocked := false, fault := none,
    draws := s.draws + s.cfg.pageWords }

/-- `PowerOn` (R33) and `SysReset` (R34): `magic` is set by the first and kept by the second; flash survives both. -/
def applyReset (k : ResetKind) (s : State) : State :=
  match k with
  | .powerOn => resetSession (powerOnMagic s)
  | .sysReset => resetSession s

end Sys2Proof.Machine
end

