-- ==== Sys2Proof/Machine/Operands.lean ====
section
/-! DEFINITION. The operand forms of the commands (30_encoding.md R59, R60, R67). -/

namespace Sys2Proof.Machine

open Sys2Proof

/-- Word 1 addresses this node: 16-bit equality with NODE_ID, no broadcast (R67, R106). -/
def addressedTo (c : Config) (node : Word) : Bool := decide (node = c.nodeId)

/-- The payload length is 1: the page index `w[2]` (R60, R67). None is a wrong size. -/
def onePage (args : List Word) : Option Word :=
  match args with
  | [p] => some p
  | _ => none

/-- The payload length is 2: the data words `w[2]` and `w[3]` (R60, R67). None is a wrong size. -/
def twoWords (args : List Word) : Option (Word × Word) :=
  match args with
  | [d0, d1] => some (d0, d1)
  | _ => none

/-- The page index lies in `[0, AVAILABLE_PAGES)`, compared unsigned (R67, R115). -/
def pageInRange (c : Config) (p : Word) : Bool := decide (p.toNat < c.availablePages)

end Sys2Proof.Machine
end

