-- ==== Sys2Proof/Machine/Flags.lean ====
section
/-! DEFINITION. The block's one-bit registers and the status replies: who writes `timeout_enabled`, `flash_unlocked` and
`programming_mode`, and the ACK a command sends. -/

namespace Sys2Proof.Machine

open Sys2Proof

/-- The 3-bit code R18 gives each phase, for an observer that wants one. No rule of the block reads it. -/
def phaseCode (p : Phase) : BitVec 3 :=
  match p with
  | .boot => 0
  | .init => 1
  | .run => 2
  | .resetPending => 3
  | .app => 4
  | .fault => 5

/-- One push inside a step: the framer's send of its words (R61, R95). -/
def push (c : Config) (i : Instr) : Action := .send (encode c i)

/-- `ack(st)` is `send([OP_ACK, st])`, the push PUSH_ACK (R16, R102). -/
def ack (c : Config) (st : Status) : Action := push c (.pushAck st)

/-- `addressed()`: the timeout disarm (R127). -/
def addressed : List Action := [.setTimer 0, .setTimeoutEnabled false]

/-- The address filter of the dispatcher (R106, R107): a frame for another node does nothing; an addressed frame disarms the
timeout before its opcode is examined. -/
def ifAddressed (c : Config) (node : Word) (body : List Action) : List Action :=
  if addressedTo c node then addressed ++ body else []

/-- The registers an accepted WRITE_PAGE sets before it erases (R116.1). -/
def openPage (p : Word) : List Action := [.setProgrammingMode true, .setCurrentPage p, .setCursor 0]

/-- The registers a commit clears after it has programmed the page (R119.2). -/
def closePage : List Action := [.setProgrammingMode false, .setCursor 0]

/-- The cursor after an accepted PAGE_DATA, stored in 16 bits (R21, R118, log 22). -/
def nextCursor (s : State) : Word := s.cursor + 2

/-- A PAGE_DATA commits exactly when the new cursor equals PAGE_WORDS (R118). -/
def commits (s : State) : Bool := decide ((nextCursor s).toNat = s.cfg.pageWords)

end Sys2Proof.Machine
end

