-- ==== Sys2Proof/Machine/FlashSequencer.lean ====
section
/-! DEFINITION. The erase and write sequencer (41_flash_sequencer.md R85, R86). -/

namespace Sys2Proof.Machine

open Sys2Proof

/-- `erase_page(p)`: unlock always, erase the sector only when `p` is its head, leave flash unlocked (R85). -/
def erasePage (c : Config) (p : Nat) : List Action :=
  .setFlashUnlocked true ::
    match pageSector c p with
    | some sid => [.eraseSector sid]
    | none => []

/-- `write_page(p, buf)`: program every word of the buffer in ascending address order, then re-lock (R86). -/
def writePage (c : Config) (p : Nat) (buf : List Word) : List Action :=
  buf.mapIdx (fun i v => .memWrite (pageAddress c p i) v) ++ [.setFlashUnlocked false]

end Sys2Proof.Machine
end

