-- ==== Sys2Proof/Machine/Latch.lean ====
section
/-! DEFINITION. The boot-mode latch (40_boot_latch.md). -/

namespace Sys2Proof.Machine

open Sys2Proof

/-- `check_run_application`, the `Boot` step: the sentinel is consumed before the jump (R73, R74). -/
def bootActions (s : State) : List Action :=
  if s.magic = s.cfg.sentinel then [.setMagic s.cfg.magicClear, .pulseJumpApp, .setPhase .app]
  else [.setPhase .init]

/-- `reboot_to_application`: the sentinel first, then the request (R75, R76). -/
def rebootToApplication (c : Config) : List Action :=
  [.setMagic c.sentinel, .pulseSysResetReq, .setPhase .resetPending]

end Sys2Proof.Machine
end

