-- ==== Sys2Proof/Machine/Commands.lean ====
section
/-! DEFINITION. The four host-to-device commands (43_dispatcher.md): each as the list of its actions in pseudocode order, and
its meaning, which runs them. -/

namespace Sys2Proof.Machine

open Sys2Proof

/-- RESET (R109): acknowledge, then reboot into the application. No size check. -/
def resetActions (node : Word) (_args : List Word) (s : State) : List Action :=
  ifAddressed s.cfg node (ack s.cfg .ok :: rebootToApplication s.cfg)

/-- The meaning of RESET (R106, R109). -/
def execReset (node : Word) (args : List Word) (s : State) : Host.Outcome State Fault Refusal :=
  .next (run (resetActions node args s) s)

/-- The page-data pushes of a page: push `k` carries the words at offsets `2k` and `2k+1` (R112). -/
def pageStream (s : State) (p : Nat) : List Action :=
  (List.range (s.cfg.pageWords / 2)).map fun k =>
    push s.cfg (.pushPageData (readWord s p (2 * k)) (readWord s p (2 * k + 1)))

/-- `out_of_range_read(p)`, by the policy OOR_READ (R111). -/
def outOfRangeRead (c : Config) (p : Word) : List Action :=
  match c.oorRead with
  | .fault => [.raiseFault (.outOfRegionRead p)]
  | .anyValue => List.replicate (c.pageWords / 2) .sendDrawn

/-- READ_PAGE (R110): size, then range by policy, then the stream. -/
def readPageActions (node : Word) (args : List Word) (s : State) : List Action :=
  ifAddressed s.cfg node <|
    match onePage args with
    | none => [ack s.cfg .invalidSize]
    | some p => if pageInRange s.cfg p then pageStream s p.toNat else outOfRangeRead s.cfg p

/-- The meaning of READ_PAGE (R106, R110 to R112). -/
def execReadPage (node : Word) (args : List Word) (s : State) : Host.Outcome State Fault Refusal :=
  .next (run (readPageActions node args s) s)

/-- WRITE_PAGE (R113): size (R114), range (R115), then open the page, erase and acknowledge (R116), in any state (R123). -/
def writePageActions (node : Word) (args : List Word) (s : State) : List Action :=
  ifAddressed s.cfg node <|
    match onePage args with
    | none => [ack s.cfg .invalidSize]
    | some p =>
      if pageInRange s.cfg p then openPage p ++ erasePage s.cfg p.toNat ++ [ack s.cfg .ok]
      else [ack s.cfg .invalidValue]

/-- The meaning of WRITE_PAGE (R106, R113 to R116, R123). -/
def execWritePage (node : Word) (args : List Word) (s : State) : Host.Outcome State Fault Refusal :=
  .next (run (writePageActions node args s) s)

/-- The page buffer after an accepted PAGE_DATA (R118). -/
def filledBuf (d0 d1 : Word) (s : State) : List Word :=
  (s.buf.set s.cursor.toNat d0).set (s.cursor.toNat + 1) d1

/-- The commit, when the new cursor equals PAGE_WORDS (R119). -/
def commitActions (d0 d1 : Word) (s : State) : List Action :=
  if commits s then writePage s.cfg s.currentPage.toNat (filledBuf d0 d1 s) ++ closePage else []

/-- PAGE_DATA (R117): size, then state (R120), then the two buffer entries (R118), the commit (R119) and the ACK (R102). -/
def pageDataActions (node : Word) (args : List Word) (s : State) : List Action :=
  ifAddressed s.cfg node <|
    match twoWords args with
    | none => [ack s.cfg .invalidSize]
    | some (d0, d1) =>
      if s.programmingMode then
        [.setBuf s.cursor.toNat d0, .setBuf (s.cursor.toNat + 1) d1, .setCursor (nextCursor s)] ++
          commitActions d0 d1 s ++ [ack s.cfg .ok]
      else [ack s.cfg .notProgramming]

/-- The meaning of PAGE_DATA (R106, R117 to R120). -/
def execPageData (node : Word) (args : List Word) (s : State) : Host.Outcome State Fault Refusal :=
  .next (run (pageDataActions node args s) s)

/-- An addressed frame whose opcode is not recognised only disarms the timeout (R121, R107); any other frame that is not a
command does nothing (R106). -/
def strayActions (c : Config) (ws : List Word) : List Action :=
  match ws with
  | _ :: node :: _ => ifAddressed c node []
  | _ => []

end Sys2Proof.Machine
end

