-- ==== Sys2Proof/Machine/Pushes.lean ====
section
/-! DEFINITION. The three device-to-host pushes (30_encoding.md R61): the effect of each is the framer's send of its words
(R95). They run inside the steps that send them: `Init` sends PUSH_DESCRIPTION, READ_PAGE sends PUSH_PAGE_DATA, and every
reply is a PUSH_ACK (log 16). -/

namespace Sys2Proof.Machine

open Sys2Proof

/-- The meaning of PUSH_DESCRIPTION: offer the frame with its three argument words (R61, R95, R124). -/
def execPushDescription (size first count : Word) (s : State) : Host.Outcome State Fault Refusal :=
  .next (run [push s.cfg (.pushDescription size first count)] s)

/-- The meaning of PUSH_PAGE_DATA: offer the frame with its two data words (R61, R95, R112). -/
def execPushPageData (d0 d1 : Word) (s : State) : Host.Outcome State Fault Refusal :=
  .next (run [push s.cfg (.pushPageData d0 d1)] s)

/-- The meaning of PUSH_ACK: offer the frame with its status word (R61, R95, R102). The status PROGRAM_FAILED is refused: it
is reserved and never sent (R70, I1; log 16). -/
def execPushAck (status : Status) (s : State) : Host.Outcome State Fault Refusal :=
  if status = .programFailed then .refused .reservedStatus else .next (run [ack s.cfg status] s)

end Sys2Proof.Machine
end

