-- ==== Sys2Proof/Machine/Dispatch.lean ====
section
/-! DEFINITION. One arm per instruction, each a direct call of its meaning. -/

namespace Sys2Proof.Machine

open Sys2Proof

def exec (i : Instr) (s : State) : Host.Outcome State Fault Refusal :=
  match i with
  | .reset node args => Sys2Proof.Machine.execReset node args s
  | .readPage node args => Sys2Proof.Machine.execReadPage node args s
  | .writePage node args => Sys2Proof.Machine.execWritePage node args s
  | .pageData node args => Sys2Proof.Machine.execPageData node args s
  | .pushDescription size first count => Sys2Proof.Machine.execPushDescription size first count s
  | .pushPageData d0 d1 => Sys2Proof.Machine.execPushPageData d0 d1 s
  | .pushAck status => Sys2Proof.Machine.execPushAck status s

end Sys2Proof.Machine
end

