-- ==== Sys2Proof/Machine/Supervisor.lean ====
section
/-! DEFINITION. The supervisor (44_supervisor.md): `Init` and `Tick`. -/

namespace Sys2Proof.Machine

open Sys2Proof

/-- `Init`: the description push, then the timeout is armed (R124, R125). -/
def initActions (s : State) : List Action :=
  [push s.cfg (.pushDescription s.cfg.descPageSize s.cfg.firstPageIndex (u16 s.cfg.availablePages)),
   .setTimeoutEnabled true, .setTimer 0, .setPhase .run]

/-- `Tick`: disarmed ticks are ignored; an armed tick counts, and the count TIMEOUT_TICKS reboots (R128). -/
def tickActions (s : State) : List Action :=
  if s.timeoutEnabled then
    .setTimer (s.timer + 1) ::
      (if s.timer + 1 = s.cfg.timeoutTicks then rebootToApplication s.cfg else [])
  else []

end Sys2Proof.Machine
end

