-- ==== Sys2Proof/Machine/Sequencer.lean ====
section
/-! DEFINITION. The events of a step (00_scope.md R7): which are enabled, what each does, a step cut by a reset (R158), and the
reading of the environment's schedule. -/

namespace Sys2Proof.Machine

open Sys2Proof

/-- The actions of an instruction, in pseudocode order. Those of the pushes stand inside other steps (log 16). -/
def instrActions (i : Instr) (s : State) : List Action :=
  match i with
  | .reset node args => resetActions node args s
  | .readPage node args => readPageActions node args s
  | .writePage node args => writePageActions node args s
  | .pageData node args => pageDataActions node args s
  | .pushDescription size first count => [push s.cfg (.pushDescription size first count)]
  | .pushPageData d0 d1 => [push s.cfg (.pushPageData d0 d1)]
  | .pushAck status => [ack s.cfg status]

/-- The frame `Rx` takes is consumed: it is never offered twice (R51). -/
def takeFrame (s : State) : State := s.setRxQueue s.rxQueue.tail

/-- The `Rx` step of a frame: the framer (R91), then the dispatcher (R106), which runs the decoded command. -/
def rxStep (f : Frame) (s : State) : Host.Outcome State Fault Refusal :=
  match receive s.cfg f with
  | none => .next s
  | some ws =>
    match decodeCommand s.cfg ws with
    | .ok i => exec i s
    | .error _ => .next (run (strayActions s.cfg ws) s)

/-- The actions of the `Rx` step of a frame. -/
def rxActions (f : Frame) (s : State) : List Action :=
  match receive s.cfg f with
  | none => []
  | some ws =>
    match decodeCommand s.cfg ws with
    | .ok i => instrActions i s
    | .error _ => strayActions s.cfg ws

/-- What makes an event of the block no event at all: a pending frame of more than 8 bytes (log 14). -/
def eventRefusal (e : BlockEvent) (s : State) : Option Refusal :=
  match e with
  | .boot => none
  | .init => none
  | .tick => none
  | .rx =>
    match s.rxQueue with
    | [] => none
    | f :: _ => if f.wellFormed then none else some .malformedFrame

/-- A step of the block, run to its end (R8). -/
def blockStep (e : BlockEvent) (s : State) : Host.Outcome State Fault Refusal :=
  match e with
  | .boot => .next (run (bootActions s) s)
  | .init => .next (run (initActions s) s)
  | .tick => .next (run (tickActions s) s)
  | .rx =>
    match s.rxQueue with
    | [] => .next s
    | f :: _ => rxStep f (takeFrame s)

/-- The state a step of the block starts from: an `Rx` has taken its frame. -/
def stepStart (e : BlockEvent) (s : State) : State :=
  match e with
  | .boot => s
  | .init => s
  | .tick => s
  | .rx => takeFrame s

/-- The actions of a step of the block, in pseudocode order (R158.1). -/
def eventActions (e : BlockEvent) (s : State) : List Action :=
  match e with
  | .boot => bootActions s
  | .init => initActions s
  | .tick => tickActions s
  | .rx =>
    match s.rxQueue with
    | [] => []
    | f :: _ => rxActions f (takeFrame s)

/-- The first `done` actions of a step, and what the action in progress leaves when `torn` (R158.1 to R158.4). A fault
raised in that prefix has ended the step. -/
def prefixState (e : BlockEvent) (done : Nat) (torn : Bool) (s : State) : State :=
  let after := run ((eventActions e s).take done) (stepStart e s)
  match torn, (eventActions e s)[done]? with
  | true, some a => if after.phase = .fault then after else tear a after
  | _, _ => after

/-- A step of the block cut by a reset (R158.5). FAULT is left by no reset (R24). -/
def cutStep (e : BlockEvent) (done : Nat) (torn : Bool) (k : ResetKind) (s : State) : State :=
  let left := prefixState e done torn s
  if left.phase = .fault then left else applyReset k left

/-- The block's events enabled in a phase (R7, R18): no step of the block starts in RUN but an `Rx` or a `Tick` that the
environment offers (R149). -/
def blockEnabled (e : BlockEvent) (s : State) : Bool :=
  match e with
  | .boot => decide (s.phase = .boot)
  | .init => decide (s.phase = .init)
  | .rx => decide (s.phase = .run) && !s.rxQueue.isEmpty
  | .tick => decide (s.phase = .run)

/-- The scheduled events enabled in a state (R7, R18): resets in every phase but FAULT; what happens in the CAN controller
does not depend on the phase. -/
def enabled (e : Event) (s : State) : Bool :=
  match e with
  | .reset _ => decide (s.phase ≠ .fault)
  | .block b => blockEnabled b s
  | .cut b _ _ _ => blockEnabled b s
  | .arrive _ => true
  | .lose _ => true

/-- Take an enabled event. -/
def takeEvent (e : Event) (s : State) : Host.Outcome State Fault Refusal :=
  match e with
  | .reset k => .next (applyReset k s)
  | .block b =>
    match eventRefusal b s with
    | some r => .refused r
    | none => blockStep b s
  | .cut b done torn k =>
    match eventRefusal b s with
    | some r => .refused r
    | none => .next (cutStep b done torn k s)
  | .arrive f => .next (s.setRxQueue (s.rxQueue ++ [f]))
  | .lose i => .next (s.setRxQueue (s.rxQueue.eraseIdx i))

/-- The block's internal steps: `Boot` in BOOT, `Init` in INIT. In the other phases the block waits for the environment
(R149): a poll that finds no frame changes nothing (R93, log 10). -/
def internalStep (s : State) : Host.Outcome State Fault Refusal :=
  match s.phase with
  | .boot => blockStep .boot s
  | .init => blockStep .init s
  | .run => .next s
  | .resetPending => .next s
  | .app => .next s
  | .fault => .next s

/-- Read the schedule (log 8): an enabled event at its head is taken. An event that is not enabled waits while the block has
an internal step to do, and otherwise passes without effect. -/
def scheduledStep (s : State) : Host.Outcome State Fault Refusal :=
  match s.sched with
  | [] => internalStep s
  | e :: rest =>
    if enabled e s then takeEvent e (s.setSched rest)
    else if s.phase = .boot ∨ s.phase = .init then internalStep s
    else .next (s.setSched rest)

end Sys2Proof.Machine
end

