-- ==== Sys2Proof/Machine/Placement.lean ====
section
/-! DEFINITION. How one instruction is placed for the next step to run it (log 17): a command as the pending frame, a push by
the event whose step sends it. No step uses these. -/

namespace Sys2Proof.Machine

open Sys2Proof

/-- A frame with given bytes pending at the head of the receive queue in RUN, and its `Rx` next. -/
def offerFrame (bytes : List Byte) (s : State) : State :=
  { s with
    phase := .run
    rxQueue := { id := .std 0, rtr := false, data := bytes } :: s.rxQueue
    sched := .block .rx :: s.sched }

/-- A received frame, addressed to the node that its word 1 names (R59, R106). -/
def placeCommand (bytes : List Byte) (ws : List Word) (s : State) : State :=
  offerFrame bytes { s with cfg := { s.cfg with nodeId := ws.getD 1 s.cfg.nodeId } }

/-- The description words of the configuration set to a push's; a page count that no admissible configuration has leaves
AVAILABLE_PAGES as it is (R13, R125). -/
def describedBy (size first count : Word) (c : Config) : Config :=
  let described := { c with descPageSize := size, firstPageIndex := first }
  let counted := { described with availablePages := count.toNat }
  if counted.admissible then counted else described

/-- A page of exactly two words, page 0, that holds a push's data words (R112). -/
def holdingPage (d0 d1 : Word) (s : State) : State :=
  { s with
    cfg := { s.cfg with pageWords := 2 }
    buf := s.buf.take 2
    mem := s.mem.write s.cfg.flashBase (packWords [d0, d1]) }

/-- A command of this node whose one reply is the status (R102): none for PROGRAM_FAILED, which is never sent (R70). -/
def answeredBy (c : Config) (st : Status) : Option Instr :=
  match st with
  | .ok => some (.writePage c.nodeId [1])
  | .invalidSize => some (.writePage c.nodeId [])
  | .programFailed => none
  | .notProgramming => some (.pageData c.nodeId [0, 0])
  | .invalidValue => some (.writePage c.nodeId [0xFFFF])

/-- A push, by the event whose step sends it: `Init` its description, an `Rx` of READ_PAGE its two data words, an `Rx` of a
command its acknowledgement. The status PROGRAM_FAILED has no such event, and its words come as a received frame, which no
rule recognises (R68, R70). -/
def placePush (i : Instr) (bytes : List Byte) (ws : List Word) (s : State) : State :=
  match i with
  | .pushDescription size first count =>
    { s with phase := .init, cfg := describedBy size first count s.cfg, sched := .block .init :: s.sched }
  | .pushPageData d0 d1 => offerFrame (encodeBytes s.cfg (.readPage s.cfg.nodeId [0])) (holdingPage d0 d1 s)
  | .pushAck st =>
    match answeredBy s.cfg st with
    | some j => offerFrame (encodeBytes s.cfg j) { s with programmingMode := false, cursor := 0 }
    | none => placeCommand bytes ws s
  | .reset _ _ => placeCommand bytes ws s
  | .readPage _ _ => placeCommand bytes ws s
  | .writePage _ _ => placeCommand bytes ws s
  | .pageData _ _ => placeCommand bytes ws s

end Sys2Proof.Machine
end

