-- ==== Sys2Proof/Machine/Step.lean ====
section
/-! DEFINITION. One step of the machine, and how one instruction is placed for it to run. -/

namespace Sys2Proof.Machine

open Sys2Proof

/-- One step: an inadmissible configuration is refused (R13), FAULT is absorbing (R24), and otherwise the next event is
taken, with the outputs of the step before cleared (R9). -/
def step (s : State) : Host.Outcome State Fault Refusal :=
  if s.cfg.admissible = false then .refused .inadmissibleConfig
  else if s.phase = .fault then .fault (.absorbed s.fault)
  else scheduledStep s.clearOutputs

/-- An opcode-table word placed so that the next step runs it (log 17): a command as the pending frame of an `Rx`, a push by
the event whose step sends it. -/
def State.withFetchWord (s : State) (nbits w : Nat) : State :=
  let bytes := tableBytes s.cfg nbits w
  let ws := ((unpackBytes bytes).toOption).getD []
  match decodeCommand s.cfg ws, decodePush s.cfg ws with
  | .error _, .ok i => placePush i bytes ws s
  | _, _ => placeCommand bytes ws s

end Sys2Proof.Machine
end

