-- ==== Sys2Proof/Safety.lean ====
section
/-! DEFINITION. What claims are stated in: the invariants of 10_state.md with the model's own, a well-behaved environment, and
the observation of a run (00_scope.md R9). -/

namespace Sys2Proof.Machine

open Sys2Proof

/-- The invariants that hold between steps (R35 to R38, R157), and the facts of the model's own data they rest on. -/
structure Inv (s : State) : Prop where
  /-- the configuration is admissible (R13) -/
  admissible : s.cfg.admissible = true
  /-- flash keeps its canonical form -/
  memWf : Memory.wf s.mem
  /-- nothing outside the region was ever written (R44) -/
  memInRegion : ∀ c ∈ s.mem, s.cfg.flashBase ≤ c.1 ∧ c.1 < s.cfg.flashEnd
  /-- the buffer holds exactly one page (R22) -/
  bufLength : s.buf.length = s.cfg.pageWords
  /-- INV1 (R35) -/
  idleCursor : s.programmingMode = false → s.cursor = 0
  /-- INV2 (R36) -/
  openPage : s.programmingMode = true →
    s.cursor.toNat % 2 = 0 ∧ s.cursor.toNat + 2 ≤ s.cfg.pageWords ∧ s.currentPage.toNat < s.cfg.availablePages
  /-- INV3 (R37) -/
  openUnlocked : s.programmingMode = true → s.flashUnlocked = true
  /-- INV4 (R38), outside RESET_PENDING, where an expired timer stands (R128, log 20) -/
  armedTimer : s.timeoutEnabled = true → s.phase ≠ .resetPending → s.timer < s.cfg.timeoutTicks
  /-- the timer never exceeds TIMEOUT_TICKS (R128) -/
  timerBound : s.timer ≤ s.cfg.timeoutTicks
  /-- `fault` records a reason exactly in FAULT (R26) -/
  faultRecord : s.fault.isSome = true ↔ s.phase = .fault
  /-- before RUN the session registers hold their reset values (R33, R157) -/
  freshSession : s.phase = .boot ∨ s.phase = .init →
    s.programmingMode = false ∧ s.cursor = 0 ∧ s.currentPage = 0 ∧ s.timeoutEnabled = true ∧ s.timer = 0 ∧
      s.flashUnlocked = false
  /-- past `Boot` the latch does not hold the sentinel (R73, R77) -/
  latchConsumed : s.phase = .init ∨ s.phase = .run ∨ s.phase = .app → s.magic ≠ s.cfg.sentinel
  /-- in RESET_PENDING it does (R75) -/
  latchArmed : s.phase = .resetPending → s.magic = s.cfg.sentinel

/-- A scheduled event that is an event of the machine: a frame that arrives has at most 8 bytes (R57). -/
def Event.wellFormed (e : Event) : Bool :=
  match e with
  | .reset _ => true
  | .block _ => true
  | .cut _ _ _ _ => true
  | .arrive f => f.wellFormed
  | .lose _ => true

/-- The environment offers well-formed frames only. -/
def EnvOk (s : State) : Prop :=
  (∀ f ∈ s.rxQueue, f.wellFormed = true) ∧ (∀ e ∈ s.sched, e.wellFormed = true)

/-- The state after the timeout disarm (R127), for statements. -/
def disarmed (s : State) : State := { s with timer := 0, timeoutEnabled := false }

/-- The state after a row of sends (R95, R96), for statements: the frames of the word lists are appended to the transmit
list in order, each with an outcome draw of its own. -/
def sent (wss : List (List Word)) (s : State) : State :=
  { s with
    tx := s.tx ++ wss.mapIdx (fun k ws => (frameOf s.cfg ws, txOutcome (s.draws + k)))
    draws := s.draws + wss.length }

/-- Instructions one after another, each the whole effect of a step of its own, stopping at the first fault or refusal. -/
def execAll : List Instr → State → Host.Outcome State Fault Refusal
  | [], s => .next s
  | i :: is, s =>
    match exec i s with
    | .next t => execAll is t
    | .fault r => .fault r
    | .refused r => .refused r

/-- The PAGE_DATA commands that carry a list of data words in pairs (R39). -/
def pageDataOf (node : Word) : List Word → List Instr
  | d0 :: d1 :: ds => .pageData node [d0, d1] :: pageDataOf node ds
  | _ => []

/-- The step of the block a scheduled event runs, whole or cut. -/
def Event.blockPart (e : Event) : Option BlockEvent :=
  match e with
  | .block b => some b
  | .cut b _ _ _ => some b
  | .reset _ => none
  | .arrive _ => none
  | .lose _ => none

/-- The frame at the head of the receive queue decodes to an instruction (R91, R106). -/
def HeadFrame (s : State) (i : Instr) : Prop :=
  ∃ f q ws, s.rxQueue = f :: q ∧ f.wellFormed = true ∧ receive s.cfg f = some ws ∧ decodeCommand s.cfg ws = .ok i

/-- The frames of the latest step that appear on the bus: those whose outcome is `ok` (R96). -/
def onBus (s : State) : List Frame := (s.tx.filter (fun p => p.2 = .ok)).map Prod.fst

/-- The bytes of flash a step changed, each with its new value (R9). -/
def flashChanges (s t : State) : Memory := t.mem.filter (fun c => decide (s.mem.readByte c.1 ≠ c.2))

/-- The new value of the latch where a step changed it (R9). -/
def magicChange (s t : State) : Option Magic := if t.magic = s.magic then none else some t.magic

/-- A step's observable outputs (R9): the frames offered in order, each with its outcome, the two one-shot outputs, and the
changes to flash and to the latch. -/
structure StepOutput where
  frames      : List (Frame × TxOutcome)
  jumpApp     : Bool
  sysResetReq : Bool
  flash       : Memory
  magic       : Option Magic
  deriving DecidableEq, Repr

/-- The outputs of the step from `s` to `t` (R9). -/
def stepOutput (s t : State) : StepOutput := ⟨t.tx, t.jumpApp, t.sysResetReq, flashChanges s t, magicChange s t⟩

/-- The contents of the region, halfword by halfword (R28). -/
def flashContents (s : State) : List Word :=
  (List.range (s.cfg.availablePages * s.cfg.pageWords)).map fun i => memRead s (s.cfg.flashBase + 2 * i)

/-- The observation of a run (R9): the outputs of its steps, the final flash contents and the final phase. -/
structure Observation where
  outputs : List StepOutput
  flash   : List Word
  phase   : Phase
  deriving DecidableEq, Repr

/-- The observation of a run of `k` steps; none when a step faults or is refused, which satisfies no claim (R134). -/
def observe : Nat → State → Option Observation
  | 0, s => some ⟨[], flashContents s, s.phase⟩
  | k + 1, s =>
    match step s with
    | .next t =>
      match observe k t with
      | some o => some { o with outputs := stepOutput s t :: o.outputs }
      | none => none
    | .fault _ => none
    | .refused _ => none

end Sys2Proof.Machine
end

