-- ==== Sys2Proof/Certificates/Slice0/Obligations.lean ====
section
/-! DEFINITION. The statements for the provers. Each formalises rules of spec/, named in its docstring; where a clause rests on
a choice of the model, the docstring names its log entry. -/

open Sys2Proof Sys2Proof.Machine

/-! ### Encoding -/

/-- The example byte images of R60 and R61 decode to the frames they stand for, under REF, and a received opcode of no
command is unrecognised (R68). -/
def Obligations.SpecExampleFramesDecode : Prop :=
  decodeBytes Config.ref [0x00, 0x80, 0x01, 0x00] = .ok (.reset 0x0001 []) ∧
  decodeBytes Config.ref [0x01, 0x80, 0x01, 0x00, 0x02, 0x00] = .ok (.readPage 0x0001 [0x0002]) ∧
  decodeBytes Config.ref [0x02, 0x80, 0x01, 0x00, 0x00, 0x00] = .ok (.writePage 0x0001 [0x0000]) ∧
  decodeBytes Config.ref [0x03, 0x80, 0x01, 0x00, 0x34, 0x12, 0xCD, 0xAB] = .ok (.pageData 0x0001 [0x1234, 0xABCD]) ∧
  decodeBytes Config.ref [0x04, 0x80, 0x00, 0x20, 0x00, 0x00, 0x70, 0x00]
    = .ok (.pushDescription 0x2000 0x0000 0x0070) ∧
  decodeBytes Config.ref [0x05, 0x80, 0x34, 0x12, 0xCD, 0xAB] = .ok (.pushPageData 0x1234 0xABCD) ∧
  decodeBytes Config.ref [0x06, 0x80, 0x00, 0x00] = .ok (.pushAck .ok) ∧
  decodeCommand Config.ref [0x8006, 0x0001, 0x0000] = .error .unrecognised

/-- Decode and encode agree, for every well-formed instruction with every operand, under every admissible configuration
(R58, R60, R61, R63). -/
def Obligations.DecodeOfEncodedInstruction : Prop :=
  ∀ (c : Config) (i : Instr), c.admissible = true → i.wellFormed = true →
    unpackBytes (encodeBytes c i) = .ok (encode c i) ∧
    (i.isCommand = true → decodeCommand c (encode c i) = .ok i) ∧
    (i.isCommand = false → decodePush c (encode c i) = .ok i)

/-- The other direction: a decoded word list is the encoding of the instruction it decodes to, which is well formed and of
the right name space (R62, R63). -/
def Obligations.EncodeOfDecodedWords : Prop :=
  ∀ (c : Config) (ws : List Word) (i : Instr),
    (decodeCommand c ws = .ok i → i.isCommand = true ∧ i.wellFormed = true ∧ encode c i = ws) ∧
    (decodePush c ws = .ok i → i.isCommand = false ∧ i.wellFormed = true ∧ encode c i = ws)

/-- R58, both directions: a transmitted frame holds each word's low byte first, and a received word is the high byte above
the low byte. -/
def Obligations.FramesPackWordsLowByteFirst : Prop :=
  (∀ (c : Config) (ws : List Word),
    (frameOf c ws).len = 2 * ws.length ∧
    ∀ i (h : i < ws.length),
      (frameOf c ws).data[2 * i]? = some (ws[i].extractLsb' 0 8) ∧
      (frameOf c ws).data[2 * i + 1]? = some (ws[i].extractLsb' 8 8)) ∧
  (∀ (c : Config) (f : Frame) (ws : List Word), receive c f = some ws →
    f.len = 2 * ws.length ∧
    ∀ i (h : i < ws.length), ∃ lo hi, f.data[2 * i]? = some lo ∧ f.data[2 * i + 1]? = some hi ∧
      ws[i] = hi.setWidth 16 <<< 8 ||| lo.setWidth 16) ∧
  (∀ (f : Frame) (c : Config) (ws : List Word), f.wellFormed = true → receive c f = some ws → ws.length ≤ 4)

/-! ### The framer and the dispatcher -/

/-- What the framer passes on (R91, R92, R94): it answers the words of a frame exactly for a data frame that RX_ACCEPT takes
and whose payload is even, one word for two bytes, short frames too; and REF's RX_ACCEPT takes every data frame, of any
identifier (R66). -/
def Obligations.ReceiveTakesEveryEvenDataFrame : Prop :=
  (∀ (c : Config) (f : Frame),
    ((∃ ws, receive c f = some ws) ↔ f.rtr = false ∧ rxAccept c f = true ∧ f.len % 2 = 0) ∧
    (f.rtr = false → rxAccept c f = true → f.len % 2 = 0 →
      ∃ ws, receive c f = some ws ∧ ws.length = f.len / 2 ∧ (f.wellFormed = true → ws.length ≤ 4))) ∧
  (∀ (c : Config) (f : Frame), c.rxAccept = .allData → rxAccept c f = !f.rtr) ∧
  Config.ref.rxAccept = .allData

/-- R69: a frame the framer or the dispatcher drops changes nothing: a remote frame, one RX_ACCEPT does not take, an odd
payload, fewer than two words, another node's id. The step consumes it, with the outputs of the step before cleared
(log 11). -/
def Obligations.DroppedFramesChangeNothing : Prop :=
  ∀ (s : State) (f : Frame) (q : List Frame) (rest : List Event),
    s.cfg.admissible = true → s.phase = .run → s.sched = .block .rx :: rest → s.rxQueue = f :: q →
    f.wellFormed = true →
    (f.rtr = true ∨ rxAccept s.cfg f = false ∨ f.len % 2 = 1 ∨
      ∃ ws, unpackBytes f.data = .ok ws ∧ (ws.length < 2 ∨ ∃ node, ws[1]? = some node ∧ node ≠ s.cfg.nodeId)) →
    step s = .next { s.clearOutputs with sched := rest, rxQueue := q }

/-- R121: an addressed frame whose opcode is none of the four only disarms the timeout. -/
def Obligations.UnrecognisedFramesOnlyDisarm : Prop :=
  ∀ (s : State) (f : Frame) (q : List Frame) (rest : List Event) (op : Word) (args : List Word),
    s.cfg.admissible = true → s.phase = .run → s.sched = .block .rx :: rest → s.rxQueue = f :: q →
    f.wellFormed = true → receive s.cfg f = some (op :: s.cfg.nodeId :: args) →
    op ∉ [s.cfg.opReset, s.cfg.opReadPage, s.cfg.opWritePage, s.cfg.opPageData] →
    step s = .next (disarmed { s.clearOutputs with sched := rest, rxQueue := q })

/-- A step runs the decoded command: in RUN, when the environment offers the pending frame, the step is the meaning of the
command its words decode to, on the state with that frame and that event consumed (R91, R106). -/
def Obligations.StepRunsTheReceivedCommand : Prop :=
  ∀ (s : State) (f : Frame) (q : List Frame) (rest : List Event) (ws : List Word) (i : Instr),
    s.cfg.admissible = true → s.phase = .run → s.sched = .block .rx :: rest → s.rxQueue = f :: q →
    f.wellFormed = true → receive s.cfg f = some ws → decodeCommand s.cfg ws = .ok i →
    step s = exec i { s.clearOutputs with sched := rest, rxQueue := q }

/-- The pushes run inside the steps that send them, and nowhere else (R61, R95; log 16). The `Init` step is PUSH_DESCRIPTION
of the configuration's words and then the arming (R124). READ_PAGE is the PUSH_PAGE_DATA of its words in order on the disarmed
state (R112). A rejection is one PUSH_ACK on the disarmed state (R100, R102); RESET is PUSH_ACK of OK and then the reboot
(R109). -/
def Obligations.PushesRunInsideTheirSteps : Prop :=
  (∀ (s : State) (rest : List Event), s.cfg.admissible = true → s.phase = .init → s.sched = .block .init :: rest →
    ∃ u, exec (.pushDescription s.cfg.descPageSize s.cfg.firstPageIndex (u16 s.cfg.availablePages))
        { s.clearOutputs with sched := rest } = .next u ∧
      step s = .next { u with timeoutEnabled := true, timer := 0, phase := .run }) ∧
  (∀ (s : State) (p : Word), s.phase ≠ .fault → p.toNat < s.cfg.availablePages →
    exec (.readPage s.cfg.nodeId [p]) s = execAll ((List.range (s.cfg.pageWords / 2)).map fun k =>
      .pushPageData (readWord s p.toNat (2 * k)) (readWord s p.toNat (2 * k + 1))) (disarmed s)) ∧
  (∀ (s : State) (args : List Word), s.phase ≠ .fault →
    (∃ u, exec (.pushAck .ok) (disarmed s) = .next u ∧ exec (.reset s.cfg.nodeId args) s = .next
      { u with magic := s.cfg.sentinel, sysResetReq := true, phase := .resetPending }) ∧
    (args.length ≠ 1 →
      exec (.readPage s.cfg.nodeId args) s = exec (.pushAck .invalidSize) (disarmed s) ∧
      exec (.writePage s.cfg.nodeId args) s = exec (.pushAck .invalidSize) (disarmed s)) ∧
    (∀ p : Word, s.cfg.availablePages ≤ p.toNat →
      exec (.writePage s.cfg.nodeId [p]) s = exec (.pushAck .invalidValue) (disarmed s)) ∧
    (args.length ≠ 2 → exec (.pageData s.cfg.nodeId args) s = exec (.pushAck .invalidSize) (disarmed s)) ∧
    (args.length = 2 → s.programmingMode = false →
      exec (.pageData s.cfg.nodeId args) s = exec (.pushAck .notProgramming) (disarmed s)))

/-- R106: a command for another node changes nothing at all. -/
def Obligations.CommandsForOtherNodesAreIgnored : Prop :=
  ∀ (s : State) (node : Word) (args : List Word), node ≠ s.cfg.nodeId →
    exec (.reset node args) s = .next s ∧ exec (.readPage node args) s = .next s ∧
    exec (.writePage node args) s = .next s ∧ exec (.pageData node args) s = .next s

/-- R107: every addressed frame leaves the timeout disarmed, whatever its opcode, its size and its fate, also where the
command then faults or reboots. -/
def Obligations.AddressedFramesDisarmTheTimeout : Prop :=
  ∀ (s : State) (f : Frame) (q : List Frame) (rest : List Event) (ws : List Word),
    s.cfg.admissible = true → s.phase = .run → s.sched = .block .rx :: rest → s.rxQueue = f :: q →
    f.wellFormed = true → receive s.cfg f = some ws → ws[1]? = some s.cfg.nodeId →
    ∃ t, step s = .next t ∧ t.timer = 0 ∧ t.timeoutEnabled = false

/-- R23 and R127: the disarm lasts for the rest of the session. No step but `Init`, which only a reset leads to, arms the
timeout again: a step that leaves the session running leaves it disarmed, with the timer where it was or at 0. -/
def Obligations.DisarmLastsForTheSession : Prop :=
  ∀ s t : State, s.phase ≠ .init → s.timeoutEnabled = false → step s = .next t → t.phase ≠ .boot →
    t.timeoutEnabled = false ∧ (t.timer = s.timer ∨ t.timer = 0)

/-! ### Internal steps, ticks, resets, phases -/

/-- R73: the `Boot` step. With the sentinel in the latch it is consumed and the block jumps; with any other value the block
stays resident and the latch is left alone. -/
def Obligations.BootStepConsumesTheSentinel : Prop :=
  ∀ (s : State) (rest : List Event), s.cfg.admissible = true → s.phase = .boot → s.sched = .block .boot :: rest →
    (s.magic = s.cfg.sentinel →
      step s = .next { s.clearOutputs with
        sched := rest, magic := s.cfg.magicClear, jumpApp := true, phase := .app }) ∧
    (s.magic ≠ s.cfg.sentinel → step s = .next { s.clearOutputs with sched := rest, phase := .init })

/-- R124 and R125: the `Init` step sends the description push, arms the timeout and enters RUN. -/
def Obligations.InitStepSendsTheDescription : Prop :=
  ∀ (s : State) (rest : List Event), s.cfg.admissible = true → s.phase = .init → s.sched = .block .init :: rest →
    step s = .next
      { sent [[s.cfg.opDescription, s.cfg.descPageSize, s.cfg.firstPageIndex, u16 s.cfg.availablePages]]
          { s.clearOutputs with sched := rest } with
        timeoutEnabled := true, timer := 0, phase := .run }

/-- R124's corner cases, R145: the description is sent once per session and never again. A frame of four words is offered by
an `Init` step alone, as its one frame; and INIT is entered from BOOT only, so after the `Init` step the session has no
other. -/
def Obligations.DescriptionIsSentOncePerSession : Prop :=
  ∀ s t : State, step s = .next t →
    (∀ x ∈ t.tx, x.1.len = 8 → s.phase = .init ∧ t.tx = [x] ∧
      x.1 = frameOf s.cfg [s.cfg.opDescription, s.cfg.descPageSize, s.cfg.firstPageIndex, u16 s.cfg.availablePages]) ∧
    (t.phase = .init → s.phase = .boot ∨ s.phase = .init ∧ t.tx = []) ∧
    (s.phase = .init → t.phase = .run → t.tx.length = 1)

/-- `Boot` and `Init` wait for no event of the environment (R73, R124, R78): where the schedule is empty, or offers an event
that is not enabled, the step is theirs and the schedule stays (log 8). -/
def Obligations.InternalStepsWaitForNoEvent : Prop :=
  ∀ s : State, s.cfg.admissible = true →
    (s.sched = [] ∨ ∃ e rest, s.sched = e :: rest ∧ enabled e s = false) →
    (s.phase = .boot → step s = blockStep .boot s.clearOutputs) ∧
    (s.phase = .init → step s = blockStep .init s.clearOutputs) ∧
    (s.phase = .boot ∨ s.phase = .init → ∃ t, step s = .next t ∧ t.phase ≠ s.phase ∧ t.sched = s.sched)

/-- R128: a tick in RUN is ignored when disarmed, counts when armed, and at TIMEOUT_TICKS reboots without sending a frame; a
timer below TIMEOUT_TICKS does not pass it. -/
def Obligations.TickStepCountsAndReboots : Prop :=
  ∀ (s : State) (rest : List Event), s.cfg.admissible = true → s.phase = .run → s.sched = .block .tick :: rest →
    (s.timeoutEnabled = false → step s = .next { s.clearOutputs with sched := rest }) ∧
    (s.timeoutEnabled = true → s.timer + 1 ≠ s.cfg.timeoutTicks →
      step s = .next { s.clearOutputs with sched := rest, timer := s.timer + 1 }) ∧
    (s.timeoutEnabled = true → s.timer + 1 = s.cfg.timeoutTicks →
      step s = .next { s.clearOutputs with
        sched := rest, timer := s.timer + 1, magic := s.cfg.sentinel, sysResetReq := true, phase := .resetPending }) ∧
    (s.timer < s.cfg.timeoutTicks → ∃ t, step s = .next t ∧ t.timer ≤ s.cfg.timeoutTicks)

/-- R33 and R34: what `PowerOn` and `SysReset` leave, in every phase but FAULT. A draw is a free value, of some number. -/
def Obligations.ResetEventsSetTheState : Prop :=
  ∀ (s : State) (k : ResetKind) (rest : List Event),
    s.cfg.admissible = true → s.phase ≠ .fault → s.sched = .reset k :: rest →
    ∃ t, step s = .next t ∧
      t.phase = .boot ∧ t.programmingMode = false ∧ t.currentPage = 0 ∧ t.cursor = 0 ∧
      t.timeoutEnabled = true ∧ t.timer = 0 ∧ t.flashUnlocked = false ∧ t.fault = none ∧ t.mem = s.mem ∧
      t.buf.length = s.cfg.pageWords ∧ (∀ v ∈ t.buf, ∃ n, v = Config.freeWord n) ∧
      (k = .sysReset → t.magic = s.magic) ∧
      (k = .powerOn → s.cfg.magicPor = .cleared → t.magic = s.cfg.magicClear) ∧
      (k = .powerOn → s.cfg.magicPor = .arbitrary → ∃ n, t.magic = Config.freeMagic n)

/-- R33: the state after the first power-on under REF, where the spec gives the value. -/
def Obligations.ResetStateHoldsPowerOnValues : Prop :=
  State.reset.cfg = Config.ref ∧ State.reset.phase = .boot ∧ State.reset.programmingMode = false ∧
  State.reset.currentPage = 0 ∧ State.reset.cursor = 0 ∧ State.reset.timeoutEnabled = true ∧ State.reset.timer = 0 ∧
  State.reset.flashUnlocked = false ∧ State.reset.fault = none ∧ State.reset.magic = Config.ref.magicClear

/-- R24: FAULT is absorbing. No event is enabled in it, resets included, and the record stands: the step stops with it
(log 12). -/
def Obligations.FaultIsAbsorbing : Prop :=
  ∀ s : State, s.cfg.admissible = true → s.phase = .fault → step s = .fault (.absorbed s.fault)

/-- Which configurations are admissible: exactly those that meet the clauses of R13, the widths of R10 and R11, and R65's bound
on the node id of the REF identifier layout (log 27). -/
def Obligations.AdmissibleConfigurationsMeetTheClauses : Prop :=
  ∀ c : Config, c.admissible = true ↔
    (c.pageWords % 2 = 0 ∧ 2 ≤ c.pageWords ∧ c.pageWords ≤ 32768) ∧
    (2 ≤ c.pagesPerSector ∧ c.pagesPerSector ≤ 65535) ∧
    (c.availablePages % c.pagesPerSector = 0 ∧ 1 ≤ c.availablePages ∧ c.availablePages ≤ 65535) ∧
    (c.flashBase % (2 * c.pageWords * c.pagesPerSector) = 0 ∧ c.flashBase < 2 ^ 32 ∧
      c.flashBase + c.availablePages * (2 * c.pageWords) ≤ 2 ^ 32) ∧
    (c.firstSectorId ≤ 65535 ∧ c.firstSectorId + c.availablePages / c.pagesPerSector - 1 ≤ 65535) ∧
    [c.opReset, c.opReadPage, c.opWritePage, c.opPageData].Nodup ∧
    [c.stOk, c.stInvalidSize, c.stProgramFailed, c.stNotProgramming, c.stInvalidValue].Nodup ∧
    c.sentinel ≠ c.magicClear ∧ (1 ≤ c.timeoutTicks ∧ c.timeoutTicks ≤ 65535) ∧
    ∀ type, c.txId = .typeAndNode type → c.nodeId.toNat ≤ 0x00FF

/-- R13: an inadmissible configuration is refused. -/
def Obligations.InadmissibleConfigurationIsRefused : Prop :=
  ∀ s : State, s.cfg.admissible = false → step s = .refused .inadmissibleConfig

/-- R74 and R76: in APP and in RESET_PENDING no step of the block is enabled, whole or cut: the event passes and every
register, the flash and the latch stay as they were. -/
def Obligations.InertPhasesTakeNoBlockStep : Prop :=
  ∀ (s : State) (e : Event) (b : BlockEvent) (rest : List Event),
    s.cfg.admissible = true → s.phase = .app ∨ s.phase = .resetPending → s.sched = e :: rest →
    e.blockPart = some b → step s = .next { s.clearOutputs with sched := rest }

/-! ### The instructions: results and completion -/

/-- R109 and R75: RESET with any arguments acknowledges, arms the latch and requests the reset. -/
def Obligations.ResetCommandReboots : Prop :=
  ∀ (s : State) (args : List Word), s.phase ≠ .fault →
    exec (.reset s.cfg.nodeId args) s = .next
      { sent [[s.cfg.opAck, s.cfg.stOk]] (disarmed s) with
        magic := s.cfg.sentinel, sysResetReq := true, phase := .resetPending }

/-- R112: READ_PAGE of a page of the region sends exactly PAGE_WORDS/2 pushes, push k carrying the flash words at offsets
2k and 2k+1, and changes nothing else, whatever the programming mode. -/
def Obligations.ReadPageStreamsThePage : Prop :=
  ∀ (s : State) (p : Word), s.phase ≠ .fault → p.toNat < s.cfg.availablePages →
    exec (.readPage s.cfg.nodeId [p]) s = .next
      (sent ((List.range (s.cfg.pageWords / 2)).map fun k =>
        [s.cfg.opPageDataRead,
          s.mem.readHalf (s.cfg.flashBase + p.toNat * s.cfg.pageBytes + 2 * (2 * k)),
          s.mem.readHalf (s.cfg.flashBase + p.toNat * s.cfg.pageBytes + 2 * (2 * k + 1))])
        (disarmed s))

/-- R111: READ_PAGE of a page outside the region follows OOR_READ: a fault before any frame, or the normal count of pushes
with arbitrary words. -/
def Obligations.ReadPageOutOfRangeFollowsPolicy : Prop :=
  ∀ (s : State) (p : Word), s.phase ≠ .fault → s.cfg.availablePages ≤ p.toNat →
    (s.cfg.oorRead = .fault →
      exec (.readPage s.cfg.nodeId [p]) s = .next
        { disarmed s with fault := some (.outOfRegionRead p), phase := .fault }) ∧
    (s.cfg.oorRead = .anyValue → ∃ t frames,
      exec (.readPage s.cfg.nodeId [p]) s = .next t ∧
      t = { disarmed s with tx := s.tx ++ frames, draws := t.draws } ∧
      frames.length = s.cfg.pageWords / 2 ∧
      ∀ x ∈ frames, ∃ m n, x.1 = frameOf s.cfg [s.cfg.opPageDataRead, Config.freeWord m, Config.freeWord n])

/-- R116 with R85: an accepted WRITE_PAGE opens the page, unlocks flash, erases the whole sector exactly when the page is its
head, and acknowledges; it clears no buffer entry. The erased sector is all 0xFF bytes on a reliable flash (R83), and a draw in
every halfword on another (R89). -/
def Obligations.WritePageOpensAndErases : Prop :=
  ∀ (s : State) (p : Word), s.cfg.admissible = true → s.phase ≠ .fault → p.toNat < s.cfg.availablePages →
    ∃ m d,
      exec (.writePage s.cfg.nodeId [p]) s = .next
        (sent [[s.cfg.opAck, s.cfg.stOk]]
          { disarmed s with
            programmingMode := true, currentPage := p, cursor := 0, flashUnlocked := true, mem := m, draws := d }) ∧
      (p.toNat % s.cfg.pagesPerSector ≠ 0 → m = s.mem ∧ d = s.draws) ∧
      (p.toNat % s.cfg.pagesPerSector = 0 → s.cfg.flashReliable = true →
        d = s.draws ∧
        m = s.mem.write (s.cfg.flashBase + p.toNat * s.cfg.pageBytes) (List.replicate s.cfg.sectorBytes 0xFF)) ∧
      (p.toNat % s.cfg.pagesPerSector = 0 → s.cfg.flashReliable = false →
        (∀ i, i < s.cfg.sectorBytes / 2 →
          ∃ n, m.readHalf (s.cfg.flashBase + p.toNat * s.cfg.pageBytes + 2 * i) = Config.freeWord n) ∧
        ∀ a, a < s.cfg.flashBase + p.toNat * s.cfg.pageBytes ∨
            s.cfg.flashBase + p.toNat * s.cfg.pageBytes + s.cfg.sectorBytes ≤ a →
          m.readByte a = s.mem.readByte a)

/-- R100: a rejected command sends exactly one ACK with its error status and changes nothing but the timeout disarm. The
checks are those of R101: size first, then the page range of WRITE_PAGE (R115) or the state of PAGE_DATA (R120). -/
def Obligations.RejectedCommandsOnlyAnswer : Prop :=
  ∀ (s : State) (args : List Word), s.phase ≠ .fault →
    (args.length ≠ 1 →
      exec (.readPage s.cfg.nodeId args) s = .next (sent [[s.cfg.opAck, s.cfg.stInvalidSize]] (disarmed s)) ∧
      exec (.writePage s.cfg.nodeId args) s = .next (sent [[s.cfg.opAck, s.cfg.stInvalidSize]] (disarmed s))) ∧
    (∀ p : Word, s.cfg.availablePages ≤ p.toNat →
      exec (.writePage s.cfg.nodeId [p]) s = .next (sent [[s.cfg.opAck, s.cfg.stInvalidValue]] (disarmed s))) ∧
    (args.length ≠ 2 →
      exec (.pageData s.cfg.nodeId args) s = .next (sent [[s.cfg.opAck, s.cfg.stInvalidSize]] (disarmed s))) ∧
    (args.length = 2 → s.programmingMode = false →
      exec (.pageData s.cfg.nodeId args) s = .next (sent [[s.cfg.opAck, s.cfg.stNotProgramming]] (disarmed s)))

/-- R118: an accepted PAGE_DATA that does not fill the page stores its two words at the cursor, advances it by 2 and
acknowledges; nothing is committed. -/
def Obligations.PageDataFillsTheBuffer : Prop :=
  ∀ (s : State) (d0 d1 : Word), Inv s → s.phase ≠ .fault → s.programmingMode = true →
    s.cursor.toNat + 2 < s.cfg.pageWords →
    exec (.pageData s.cfg.nodeId [d0, d1]) s = .next
      (sent [[s.cfg.opAck, s.cfg.stOk]]
        { disarmed s with
          buf := (s.buf.set s.cursor.toNat d0).set (s.cursor.toNat + 1) d1, cursor := s.cursor + 2 })

/-- R119 with R86 and R84: the PAGE_DATA that fills the page programs it, re-locks flash, returns to idle and acknowledges,
whether the flash took the words or not (R88). A halfword that was erased takes its word on a reliable flash; any other
halfword of the page becomes a draw; no byte outside the page changes. -/
def Obligations.PageDataCommitsTheFullPage : Prop :=
  ∀ (s : State) (d0 d1 : Word), Inv s → s.phase ≠ .fault → s.programmingMode = true →
    s.cursor.toNat + 2 = s.cfg.pageWords →
    ∃ m d,
      exec (.pageData s.cfg.nodeId [d0, d1]) s = .next
        (sent [[s.cfg.opAck, s.cfg.stOk]]
          { disarmed s with
            buf := (s.buf.set s.cursor.toNat d0).set (s.cursor.toNat + 1) d1
            cursor := 0, programmingMode := false, flashUnlocked := false, mem := m, draws := d }) ∧
      (∀ i, i < s.cfg.pageWords →
        (s.cfg.flashReliable = true → readWord s s.currentPage.toNat i = 0xFFFF →
          some (m.readHalf (pageAddress s.cfg s.currentPage.toNat i)) =
            ((s.buf.set s.cursor.toNat d0).set (s.cursor.toNat + 1) d1)[i]?) ∧
        (¬ (s.cfg.flashReliable = true ∧ readWord s s.currentPage.toNat i = 0xFFFF) →
          ∃ n, m.readHalf (pageAddress s.cfg s.currentPage.toNat i) = Config.freeWord n)) ∧
      ∀ a, a < pageAddress s.cfg s.currentPage.toNat 0 ∨
          pageAddress s.cfg s.currentPage.toNat 0 + s.cfg.pageBytes ≤ a →
        m.readByte a = s.mem.readByte a

/-- R61 and R95: each push offers one frame with a standard identifier TX_ID(NODE_ID), not remote, that holds the push's
words low byte first, with an outcome draw of its own, and changes nothing else. The status PROGRAM_FAILED, which is reserved
and never sent (R70), is refused (log 16). -/
def Obligations.PushesOfferTheirFrame : Prop :=
  ∀ (s : State) (a b d : Word) (st : Status), s.phase ≠ .fault →
    exec (.pushDescription a b d) s = .next (sent [[s.cfg.opDescription, a, b, d]] s) ∧
    exec (.pushPageData a b) s = .next (sent [[s.cfg.opPageDataRead, a, b]] s) ∧
    (st ≠ .programFailed → exec (.pushAck st) s = .next (sent [[s.cfg.opAck, statusWord s.cfg st]] s)) ∧
    exec (.pushAck .programFailed) s = .refused .reservedStatus ∧
    ∀ ws, (sent [ws] s).tx =
      s.tx ++ [({ id := .std (txIdOf s.cfg), rtr := false, data := packWords ws }, txOutcome s.draws)]

/-! ### Frames -/

/-- What RESET, READ_PAGE and the three pushes leave unchanged: all of flash, the page buffer and the programming registers;
the latch and the reset request except RESET; the fault record except READ_PAGE; the timeout except an addressed
command (R17 to R27, R109, R110, R95). -/
def Obligations.NonStoringInstructionsFrame : Prop :=
  ∀ (i : Instr) (s t : State),
    (match i with
      | .reset _ _ => True
      | .readPage _ _ => True
      | .writePage _ _ => False
      | .pageData _ _ => False
      | .pushDescription _ _ _ => True
      | .pushPageData _ _ => True
      | .pushAck _ => True) →
    exec i s = .next t →
    (∀ a, t.mem.readByte a = s.mem.readByte a) ∧
    t.buf = s.buf ∧ t.programmingMode = s.programmingMode ∧ t.currentPage = s.currentPage ∧ t.cursor = s.cursor ∧
    t.flashUnlocked = s.flashUnlocked ∧ t.jumpApp = s.jumpApp ∧ t.cfg = s.cfg ∧ t.rxQueue = s.rxQueue ∧
    t.sched = s.sched ∧
    ((∀ node args, i ≠ .reset node args) → t.magic = s.magic ∧ t.sysResetReq = s.sysResetReq) ∧
    ((∀ node args, i ≠ .readPage node args) → t.fault = s.fault) ∧
    (i.isCommand = false → t.timer = s.timer ∧ t.timeoutEnabled = s.timeoutEnabled ∧ t.phase = s.phase)

/-- What WRITE_PAGE leaves unchanged: every byte of flash outside the sector it erases, all of flash in the forms that erase
nothing, and the page buffer, the latch, the outputs but the transmit list, the phase and the fault record (R113 to
R116, R85). -/
def Obligations.WritePageFrame : Prop :=
  ∀ (s t : State) (node : Word) (args : List Word), s.cfg.admissible = true →
    exec (.writePage node args) s = .next t →
    (∀ p sid a, args = [p] → pageSector s.cfg p.toNat = some sid →
      (a < sectorAddress s.cfg sid ∨ sectorAddress s.cfg sid + s.cfg.sectorBytes ≤ a) →
      t.mem.readByte a = s.mem.readByte a) ∧
    ((node ≠ s.cfg.nodeId ∨ args.length ≠ 1 ∨
        ∃ p, args = [p] ∧ (s.cfg.availablePages ≤ p.toNat ∨ pageSector s.cfg p.toNat = none)) →
      ∀ a, t.mem.readByte a = s.mem.readByte a) ∧
    t.buf = s.buf ∧ t.magic = s.magic ∧ t.phase = s.phase ∧ t.fault = s.fault ∧ t.jumpApp = s.jumpApp ∧
    t.sysResetReq = s.sysResetReq ∧ t.cfg = s.cfg ∧ t.rxQueue = s.rxQueue ∧ t.sched = s.sched

/-- What PAGE_DATA leaves unchanged: every byte of flash outside the page it commits, all of flash when it does not commit,
every buffer entry but the two at the cursor, and `current_page`, the latch, the phase, the fault record and the outputs but
the transmit list (R117 to R120, R86). -/
def Obligations.PageDataFrame : Prop :=
  ∀ (s t : State) (node : Word) (args : List Word), Inv s →
    exec (.pageData node args) s = .next t →
    (∀ a, (a < pageAddress s.cfg s.currentPage.toNat 0 ∨
        pageAddress s.cfg s.currentPage.toNat 0 + s.cfg.pageBytes ≤ a) →
      t.mem.readByte a = s.mem.readByte a) ∧
    ((node ≠ s.cfg.nodeId ∨ args.length ≠ 2 ∨ s.programmingMode = false ∨ s.cursor.toNat + 2 ≠ s.cfg.pageWords) →
      ∀ a, t.mem.readByte a = s.mem.readByte a) ∧
    (∀ j, j ≠ s.cursor.toNat → j ≠ s.cursor.toNat + 1 → t.buf[j]? = s.buf[j]?) ∧
    t.currentPage = s.currentPage ∧ t.magic = s.magic ∧ t.phase = s.phase ∧ t.fault = s.fault ∧
    t.jumpApp = s.jumpApp ∧ t.sysResetReq = s.sysResetReq ∧ t.cfg = s.cfg ∧ t.rxQueue = s.rxQueue ∧
    t.sched = s.sched

/-! ### Flash -/

/-- R83: an erase of a sector of the region, flash unlocked and reliable, makes every halfword of the sector 0xFFFF and
changes no byte outside it; unreliable, every halfword of the sector is a draw; locked, it faults and changes nothing. -/
def Obligations.EraseSectorRule : Prop :=
  ∀ (s : State) (sid : Nat), s.cfg.admissible = true → sectorInRegion s.cfg sid = true →
    (s.flashUnlocked = true →
      (∀ i, i < s.cfg.sectorBytes / 2 →
        (s.cfg.flashReliable = true → memRead (eraseSector sid s) (sectorAddress s.cfg sid + 2 * i) = 0xFFFF) ∧
        (s.cfg.flashReliable = false →
          ∃ n, memRead (eraseSector sid s) (sectorAddress s.cfg sid + 2 * i) = Config.freeWord n)) ∧
      (∀ a, a < sectorAddress s.cfg sid ∨ sectorAddress s.cfg sid + s.cfg.sectorBytes ≤ a →
        (eraseSector sid s).mem.readByte a = s.mem.readByte a)) ∧
    (s.flashUnlocked = false →
      eraseSector sid s =
        { s with fault := some (.programWhileLocked (sectorAddress s.cfg sid)), phase := .fault })

/-- R84: a program of a halfword of the region, flash unlocked, stores the value where the flash is reliable and the halfword
erased, and a draw anywhere else, and changes no other byte; locked, it faults and changes nothing. -/
def Obligations.MemWriteRule : Prop :=
  ∀ (s : State) (a : Nat) (v : Word), halfInRegion s.cfg a = true →
    (s.flashUnlocked = true →
      (s.cfg.flashReliable = true → memRead s a = 0xFFFF → memRead (memWrite a v s) a = v) ∧
      (¬ (s.cfg.flashReliable = true ∧ memRead s a = 0xFFFF) →
        ∃ n, memRead (memWrite a v s) a = Config.freeWord n) ∧
      (∀ x, x < a ∨ a + 2 ≤ x → (memWrite a v s).mem.readByte x = s.mem.readByte x)) ∧
    (s.flashUnlocked = false →
      memWrite a v s = { s with fault := some (.programWhileLocked a), phase := .fault })

/-- R90 and R42: a page's address is sector-aligned when the page is its sector's first, and `page_sector` returns that
sector exactly then; words of valid pages are even addresses of the region, and words of different places do not
overlap. -/
def Obligations.MapperPlacesPagesAndSectors : Prop :=
  ∀ (c : Config) (p q w v : Nat), c.admissible = true → p < c.availablePages → q < c.availablePages →
    w < c.pageWords → v < c.pageWords →
    (p % c.pagesPerSector = 0 →
      pageAddress c p 0 % c.sectorBytes = 0 ∧ pageSector c p = some (c.firstSectorId + p / c.pagesPerSector) ∧
      sectorAddress c (c.firstSectorId + p / c.pagesPerSector) = pageAddress c p 0) ∧
    (p % c.pagesPerSector ≠ 0 → pageSector c p = none) ∧
    pageAddress c p w % 2 = 0 ∧ c.flashBase ≤ pageAddress c p w ∧ pageAddress c p w + 2 ≤ c.flashEnd ∧
    pageAddress c p w < 2 ^ 32 ∧
    ((p, w) ≠ (q, v) → pageAddress c p w + 2 ≤ pageAddress c q v ∨ pageAddress c q v + 2 ≤ pageAddress c p w)

/-! ### The whole machine -/

/-- The state after reset meets the invariants. -/
def Obligations.ResetStateMeetsInvariants : Prop := Inv State.reset

/-- The invariants R35 to R38, R157 and those of the model's own data hold between steps: every step from a state that meets
them, whole, cut by a reset, or of the environment, leaves a state that meets them. -/
def Obligations.StepKeepsInvariants : Prop :=
  ∀ s t : State, Inv s → step s = .next t → Inv t

/-- Nothing stops the block but FAULT: from a state that meets the invariants, with a well-formed environment, every step
outside FAULT answers a next state, and the environment stays well formed (R133). -/
def Obligations.StepAnswersANextState : Prop :=
  ∀ s : State, Inv s → EnvOk s → s.phase ≠ .fault → ∃ t, step s = .next t ∧ EnvOk t

/-- R134 with R37: from a state that meets the invariants a step records no fault but an out-of-region read, and that only
under OOR_READ = fault for a page outside the region; ProgramWhileLocked and the model's own reasons (log 15) are never
recorded. -/
def Obligations.OnlyOutOfRegionReadsFault : Prop :=
  ∀ (s t : State) (r : FaultReason), Inv s → step s = .next t → t.fault = some r →
    s.cfg.oorRead = .fault ∧ ∃ p, r = .outOfRegionRead p ∧ s.cfg.availablePages ≤ p.toNat

/-- R44: no step, from any state, changes a byte of flash outside the region; in particular the bootloader's own code below
FLASH_BASE. -/
def Obligations.FlashOutsideTheRegionNeverChanges : Prop :=
  ∀ (s t : State) (a : Nat), step s = .next t → (a < s.cfg.flashBase ∨ s.cfg.flashEnd ≤ a) →
    t.mem.get? a = s.mem.get? a

/-- R30: no step changes the configuration. -/
def Obligations.ConfigurationIsFixed : Prop :=
  ∀ s t : State, step s = .next t → t.cfg = s.cfg

/-- R65: every frame the block transmits, in any step, has a standard identifier TX_ID(NODE_ID), is not remote, and carries at
most 8 bytes; the REF layout of TX_ID puts the type in bits 10..8 and the node id in bits 7..0, and an admissible
configuration with it has a node id of at most 0x00FF. -/
def Obligations.TransmittedFramesCarryTheNodeIdentifier : Prop :=
  (∀ s t : State, step s = .next t → ∀ x ∈ t.tx,
    x.1.id = .std (txIdOf s.cfg) ∧ x.1.ide = false ∧ x.1.rtr = false ∧ x.1.wellFormed = true) ∧
  (∀ (c : Config) (type : BitVec 3), c.txId = .typeAndNode type →
    (txIdOf c).extractLsb' 8 3 = type ∧ (txIdOf c).extractLsb' 0 8 = c.nodeId.extractLsb' 0 8 ∧
    (c.admissible = true → c.nodeId.toNat ≤ 0x00FF)) ∧
  Config.ref.txId = .typeAndNode 0b011 ∧ txIdOf Config.ref = 0x301

/-- R61 and R70: every frame of every step, whole or cut, is a push of R61, the description with the configuration's words, and
none is an ACK with the status PROGRAM_FAILED (R88: no rule sends it). -/
def Obligations.TransmittedFramesArePushes : Prop :=
  ∀ s t : State, step s = .next t → ∀ x ∈ t.tx,
    (x.1 = frameOf s.cfg [s.cfg.opDescription, s.cfg.descPageSize, s.cfg.firstPageIndex, u16 s.cfg.availablePages] ∨
      (∃ d0 d1, x.1 = frameOf s.cfg [s.cfg.opPageDataRead, d0, d1]) ∨
      ∃ st : Status, st ≠ .programFailed ∧ x.1 = frameOf s.cfg [s.cfg.opAck, statusWord s.cfg st]) ∧
    x.1.data ≠ packWords [s.cfg.opAck, s.cfg.stProgramFailed]

/-- R149 with R7: in RUN the block starts no step by itself. Where the schedule offers no `Rx` or `Tick`, whole or cut, and no
reset, a step changes nothing but the schedule, the receive queue and the outputs of the step before. -/
def Obligations.RunStepsAreOfferedByTheEnvironment : Prop :=
  ∀ s t : State, s.phase = .run → step s = .next t →
    (∀ e rest, s.sched = e :: rest →
      e.blockPart ≠ some .rx ∧ e.blockPart ≠ some .tick ∧ ∀ k, e ≠ .reset k) →
    t = { s.clearOutputs with sched := t.sched, rxQueue := t.rxQueue }

/-- R9: the outputs of a step account for what it changed in flash and in the latch: a byte of flash holds its new value where
the outputs list one and otherwise what it held, and so does the latch. -/
def Obligations.StepOutputsAccountForTheChanges : Prop :=
  ∀ s t : State, Inv s → step s = .next t →
    (∀ a, t.mem.readByte a = ((stepOutput s t).flash.get? a).getD (s.mem.readByte a)) ∧
    (∀ c ∈ (stepOutput s t).flash, s.mem.readByte c.1 ≠ c.2 ∧ s.cfg.flashBase ≤ c.1 ∧ c.1 < s.cfg.flashEnd) ∧
    t.magic = (stepOutput s t).magic.getD s.magic

/-- R31 and R51: the receive queue changes only where the CAN controller takes or loses a frame and where an `Rx`, whole or
cut, consumes the frame at its head; a reset leaves it alone (log 9). -/
def Obligations.ReceiveQueueChangesAsOffered : Prop :=
  ∀ s t : State, step s = .next t →
    t.rxQueue = s.rxQueue ∨ ∃ e rest, s.sched = e :: rest ∧
      ((∃ f, e = .arrive f ∧ t.rxQueue = s.rxQueue ++ [f]) ∨
       (∃ i, e = .lose i ∧ t.rxQueue = s.rxQueue.eraseIdx i) ∨
       (e.blockPart = some .rx ∧ s.phase = .run ∧ t.rxQueue = s.rxQueue.tail))

/-- R27, R75 and R77: with MAGIC_POR = cleared the latch comes to hold the sentinel only in a step, whole or cut, of a RESET
addressed to this node or of the tick that expires the timeout, in RUN. -/
def Obligations.SentinelOnlyFromResetOrTimeout : Prop :=
  ∀ s t : State, step s = .next t → s.cfg.magicPor = .cleared → s.magic ≠ s.cfg.sentinel →
    t.magic = s.cfg.sentinel →
    s.phase = .run ∧ ∃ e rest, s.sched = e :: rest ∧
      ((e.blockPart = some .rx ∧ ∃ args, HeadFrame s (.reset s.cfg.nodeId args)) ∨
       (e.blockPart = some .tick ∧ s.timeoutEnabled = true ∧ s.timer + 1 = s.cfg.timeoutTicks))

/-- R126: RUN is left only by reboot_to_application, by a fault, or by a reset. -/
def Obligations.RunIsLeftOnlyByRebootFaultOrReset : Prop :=
  ∀ s t : State, s.phase = .run → step s = .next t → t.phase ≠ .run →
    (t.phase = .resetPending ∧ t.magic = s.cfg.sentinel ∧ t.sysResetReq = true) ∨
    (t.phase = .fault ∧ t.fault.isSome = true) ∨
    (t.phase = .boot ∧ ∃ e rest, s.sched = e :: rest ∧
      ((∃ k, e = .reset k) ∨ ∃ b n torn k, e = .cut b n torn k))

/-- R129: with no frame offered, the ticks left to TIMEOUT_TICKS reboot the block, no earlier, without a frame, and exactly
once: the next step of the block, whatever it is, requests no second reset. -/
def Obligations.UndisturbedTimeoutRebootsOnce : Prop :=
  ∀ (s : State) (n : Nat) (rest : List Event), Inv s → s.phase = .run → s.timeoutEnabled = true →
    s.timer + n = s.cfg.timeoutTicks → s.sched = List.replicate n (.block .tick) ++ rest →
    (∀ m, m < n → ∃ u : State, Host.Core.run Sys2Proof.core m s = .next u ∧ u.phase = .run ∧ u.magic = s.magic) ∧
    (∃ t : State, Host.Core.run Sys2Proof.core n s = .next t ∧ t.phase = .resetPending ∧ t.magic = s.cfg.sentinel ∧
      t.sysResetReq = true ∧ t.tx = [] ∧ t.mem = s.mem ∧ t.sched = rest) ∧
    (∀ b more, rest = .block b :: more → ∃ u : State, Host.Core.run Sys2Proof.core (n + 1) s = .next u ∧
      u.phase = .resetPending ∧ u.sysResetReq = false)

/-- R155: RESET, the system reset it requests, and `Boot` end with the application started and the latch consumed. -/
def Obligations.ResetCycleStartsTheApplication : Prop :=
  ∀ (s : State) (args : List Word) (rest : List Event), s.cfg.admissible = true → s.phase = .run →
    HeadFrame s (.reset s.cfg.nodeId args) → s.sched = .block .rx :: .reset .sysReset :: .block .boot :: rest →
    ∃ t : State, Host.Core.run Sys2Proof.core 3 s = .next t ∧ t.phase = .app ∧ t.jumpApp = true ∧
      t.magic = s.cfg.magicClear ∧ t.mem = s.mem ∧ t.sched = rest

/-- R158: the two ends of a cut. After the last action the cut is the whole step and then the reset; before the first it is
the reset alone, with the pending frame of an `Rx` taken (log 19). FAULT is left by no reset (R24). -/
def Obligations.CutsAtTheEndsOfAStep : Prop :=
  ∀ (s : State) (e : BlockEvent) (n : Nat) (torn : Bool) (k : ResetKind) (rest : List Event),
    s.cfg.admissible = true → s.phase ≠ .fault → s.sched = .cut e n torn k :: rest →
    blockEnabled e s = true → eventRefusal e s = none →
    ((eventActions e s).length ≤ n →
      ∃ t, step { s with sched := .block e :: rest } = .next t ∧
        step s = .next (if t.phase = .fault then t else applyReset k t)) ∧
    (n = 0 → torn = false →
      step s = .next (applyReset k (stepStart e { s.clearOutputs with sched := rest })))

/-- R159, the commit: a reset, of either kind, that cuts a commit at word i leaves the words before i programmed (each the
new word where the flash is reliable and the halfword was erased, a draw elsewhere, R84), a draw at i when its program was in
progress, what the page held before from there on, and every byte outside the page; no frame is sent, and the session starts
afresh. That word i is the action numbered 5 + i, after the disarm, the two buffer entries and the cursor, is the model's
numbering (log 19). -/
def Obligations.TornCommitLeavesAPrefix : Prop :=
  ∀ (s : State) (d0 d1 : Word) (i : Nat) (torn : Bool) (k : ResetKind) (rest : List Event), Inv s → s.phase = .run →
    s.programmingMode = true → s.cursor.toNat + 2 = s.cfg.pageWords →
    HeadFrame s (.pageData s.cfg.nodeId [d0, d1]) → i < s.cfg.pageWords →
    s.sched = .cut .rx (5 + i) torn k :: rest →
    ∃ t, step s = .next t ∧ t.phase = .boot ∧ t.programmingMode = false ∧ t.tx = [] ∧
      (∀ j, j < s.cfg.pageWords →
        (j < i → s.cfg.flashReliable = true → readWord s s.currentPage.toNat j = 0xFFFF →
          some (readWord t s.currentPage.toNat j) = (filledBuf d0 d1 s)[j]?) ∧
        (j < i → ¬ (s.cfg.flashReliable = true ∧ readWord s s.currentPage.toNat j = 0xFFFF) →
          ∃ n, readWord t s.currentPage.toNat j = Config.freeWord n) ∧
        (j = i → torn = true → ∃ n, readWord t s.currentPage.toNat j = Config.freeWord n) ∧
        (i < j ∨ j = i ∧ torn = false →
          readWord t s.currentPage.toNat j = readWord s s.currentPage.toNat j)) ∧
      ∀ a, a < pageAddress s.cfg s.currentPage.toNat 0 ∨
          pageAddress s.cfg s.currentPage.toNat 0 + s.cfg.pageBytes ≤ a →
        t.mem.readByte a = s.mem.readByte a

/-- R159, the erase: a reset, of either kind, that cuts the erase of a WRITE_PAGE leaves every halfword of the sector a draw
and every byte outside it; no frame is sent. That the erase is the action numbered 6, after the disarm, the three registers and
the unlock, is the model's numbering (log 19). -/
def Obligations.TornEraseLeavesDraws : Prop :=
  ∀ (s : State) (p : Word) (k : ResetKind) (rest : List Event), s.cfg.admissible = true → s.phase = .run →
    p.toNat < s.cfg.availablePages → p.toNat % s.cfg.pagesPerSector = 0 →
    HeadFrame s (.writePage s.cfg.nodeId [p]) → s.sched = .cut .rx 6 true k :: rest →
    ∃ t, step s = .next t ∧ t.phase = .boot ∧ t.programmingMode = false ∧ t.tx = [] ∧
      (∀ i, i < s.cfg.sectorBytes / 2 →
        ∃ n, t.mem.readHalf (pageAddress s.cfg p.toNat 0 + 2 * i) = Config.freeWord n) ∧
      ∀ a, a < pageAddress s.cfg p.toNat 0 ∨ pageAddress s.cfg p.toNat 0 + s.cfg.sectorBytes ≤ a →
        t.mem.readByte a = s.mem.readByte a

/-- R160: a reset that cuts RESET or the expiring tick leaves the latch at its old value before the write of the sentinel and
at the sentinel after it; a power-on clears it in either case, with MAGIC_POR = cleared. -/
def Obligations.InterruptedRebootLatch : Prop :=
  ∀ (s : State) (done : Nat) (torn : Bool) (k : ResetKind) (rest : List Event), s.cfg.admissible = true →
    s.phase = .run → s.cfg.magicPor = .cleared →
    (∀ args, HeadFrame s (.reset s.cfg.nodeId args) → s.sched = .cut .rx done torn k :: rest →
      ∃ t, step s = .next t ∧ t.phase = .boot ∧ t.mem = s.mem ∧
        t.magic = (match k with
          | .powerOn => s.cfg.magicClear
          | .sysReset => if done ≤ 3 then s.magic else s.cfg.sentinel)) ∧
    (s.timeoutEnabled = true → s.timer + 1 = s.cfg.timeoutTicks → s.sched = .cut .tick done torn k :: rest →
      ∃ t, step s = .next t ∧ t.phase = .boot ∧ t.mem = s.mem ∧
        t.magic = (match k with
          | .powerOn => s.cfg.magicClear
          | .sysReset => if done ≤ 1 then s.magic else s.cfg.sentinel))

/-- R39: a WRITE_PAGE and exactly one page of data words in pairs leave the page's flash equal to the words sent, in order,
flash locked and the machine idle, with one acknowledgement per command: for a sector head, whose WRITE_PAGE erases it, and for
any other page that was erased before. -/
def Obligations.CompletePageIsProgrammedInOrder : Prop :=
  ∀ (s : State) (p : Word) (data : List Word), Inv s → s.phase = .run → s.cfg.flashReliable = true →
    p.toNat < s.cfg.availablePages →
    (p.toNat % s.cfg.pagesPerSector = 0 ∨ ∀ i, i < s.cfg.pageWords → readWord s p.toNat i = 0xFFFF) →
    data.length = s.cfg.pageWords →
    ∃ t, execAll (.writePage s.cfg.nodeId [p] :: pageDataOf s.cfg.nodeId data) s = .next t ∧
      (∀ i (h : i < data.length), readWord t p.toNat i = data[i]) ∧
      t.programmingMode = false ∧ t.cursor = 0 ∧ t.flashUnlocked = false ∧
      t.tx.length = s.tx.length + 1 + s.cfg.pageWords / 2
end

