-- ==== Sys2Proof/Laws/Config.lean ====
section
/-! SUPPORT. What an admissible configuration gives (R13), field by field; REF and TINY are admissible. -/

namespace Sys2Proof.Config

/-- The clauses of `admissible`, each under its own name. -/
structure Admissible (c : Config) : Prop where
  pageWordsEven : c.pageWords % 2 = 0
  pageWordsPos : 2 ≤ c.pageWords
  pageWordsMax : c.pageWords ≤ 32768
  pagesPerSectorMin : 2 ≤ c.pagesPerSector
  wholeSectors : c.availablePages % c.pagesPerSector = 0
  availablePos : 1 ≤ c.availablePages
  availableMax : c.availablePages ≤ 65535
  baseAligned : c.flashBase % c.sectorBytes = 0
  regionMax : c.flashEnd ≤ 2 ^ 32
  sectorIdMax : c.firstSectorId + c.sectors ≤ 65536
  opcodesNodup : [c.opReset, c.opReadPage, c.opWritePage, c.opPageData].Nodup
  statusesNodup : [c.stOk, c.stInvalidSize, c.stProgramFailed, c.stNotProgramming, c.stInvalidValue].Nodup
  sentinelNe : c.sentinel ≠ c.magicClear
  timeoutPos : 1 ≤ c.timeoutTicks
  timeoutMax : c.timeoutTicks ≤ 65535

theorem Admissible.of {c : Config} (h : c.admissible = true) : Admissible c := by
  simp only [admissible, geometryOk, opcodesOk, statusesOk, Bool.and_eq_true, decide_eq_true_eq] at h
  obtain ⟨⟨⟨⟨⟨⟨⟨⟨⟨⟨⟨h1, h2, h3⟩, h4, _⟩, h5, h6, h7⟩, h8⟩, h9⟩, h10⟩, h11⟩, h12⟩, _⟩, h13⟩, h14, h15⟩ := h
  exact ⟨h1, h2, h3, h4, h5, h6, h7, h8, h9, h10, h11, h12, h13, h14, h15⟩

theorem ref_admissible : ref.admissible = true := by decide

theorem tiny_admissible : tiny.admissible = true := by decide

namespace Admissible

variable {c : Config} (h : Admissible c)
include h

theorem pageBytesPos : 0 < c.pageBytes := by have := h.pageWordsPos; unfold pageBytes; omega

theorem sectorBytesPos : 0 < c.sectorBytes :=
  Nat.mul_pos h.pageBytesPos (by have := h.pagesPerSectorMin; omega)

/-- The sectors fill the region exactly (R43). -/
theorem sectors_mul : c.sectors * c.pagesPerSector = c.availablePages := by
  unfold sectors
  exact Nat.div_mul_cancel (Nat.dvd_of_mod_eq_zero h.wholeSectors)

theorem sectors_mul_bytes : c.sectors * c.sectorBytes = c.availablePages * c.pageBytes := by
  unfold sectorBytes
  rw [Nat.mul_comm c.pageBytes, ← Nat.mul_assoc, h.sectors_mul]

omit h in
theorem sectorBytesEven : c.sectorBytes % 2 = 0 := by
  unfold sectorBytes pageBytes
  rw [Nat.mul_assoc, Nat.mul_mod_right]

theorem baseEven : c.flashBase % 2 = 0 := by
  have h1 := Nat.dvd_of_mod_eq_zero h.baseAligned
  have h2 := Nat.dvd_of_mod_eq_zero (sectorBytesEven (c := c))
  exact Nat.mod_eq_zero_of_dvd (Nat.dvd_trans h2 h1)

end Admissible

end Sys2Proof.Config
end

