-- ==== Sys2Proof/Laws/Words.lean ====
section
/-! SUPPORT. The byte order of words: joining and splitting, packing and unpacking (R58), and the round trips of the codec's
parts. -/

namespace Sys2Proof

theorem joinWord_lo_hi (w : Word) : joinWord (loByte w) (hiByte w) = w := by
  unfold joinWord loByte hiByte
  apply BitVec.eq_of_getLsbD_eq
  intro i hi
  simp only [BitVec.getLsbD_or, BitVec.getLsbD_shiftLeft, BitVec.getLsbD_setWidth, BitVec.getLsbD_extractLsb']
  by_cases h : i < 8
  · simp [h, hi]
  · have h1 : i - 8 < 8 := by omega
    have h2 : 8 + (i - 8) = i := by omega
    have h3 : i - 8 < 16 := by omega
    simp [h, hi, h1, h2, h3]

theorem loByte_joinWord (lo hi : Byte) : loByte (joinWord lo hi) = lo := by
  unfold joinWord loByte
  apply BitVec.eq_of_getLsbD_eq
  intro i h
  simp only [BitVec.getLsbD_or, BitVec.getLsbD_shiftLeft, BitVec.getLsbD_setWidth, BitVec.getLsbD_extractLsb']
  have h16 : i < 16 := by omega
  simp [h, h16]

theorem hiByte_joinWord (lo hi : Byte) : hiByte (joinWord lo hi) = hi := by
  unfold joinWord hiByte
  apply BitVec.eq_of_getLsbD_eq
  intro i h
  simp only [BitVec.getLsbD_or, BitVec.getLsbD_shiftLeft, BitVec.getLsbD_setWidth, BitVec.getLsbD_extractLsb']
  have h16 : 8 + i < 16 := by omega
  have h17 : i < 16 := by omega
  simp [h, h16, h17]

@[simp] theorem length_packWords (ws : List Word) : (packWords ws).length = 2 * ws.length := by
  induction ws with
  | nil => rfl
  | cons w ws ih => simp [packWords, ih]; omega

theorem getElem_packWords_even (ws : List Word) (i : Nat) (h : i < ws.length) :
    (packWords ws)[2 * i]'(by simp; omega) = loByte ws[i] := by
  induction ws generalizing i with
  | nil => simp at h
  | cons w ws ih =>
    cases i with
    | zero => rfl
    | succ i => simpa [packWords, Nat.mul_add] using ih i (by simpa using h)

theorem getElem_packWords_odd (ws : List Word) (i : Nat) (h : i < ws.length) :
    (packWords ws)[2 * i + 1]'(by simp; omega) = hiByte ws[i] := by
  induction ws generalizing i with
  | nil => simp at h
  | cons w ws ih =>
    cases i with
    | zero => rfl
    | succ i =>
      have : 2 * (i + 1) + 1 = 2 * i + 1 + 1 + 1 := by omega
      simpa [packWords, this] using ih i (by simpa using h)

/-- Unpacking packed words gives them back (R58). -/
@[simp] theorem unpackBytes_packWords (ws : List Word) : unpackBytes (packWords ws) = .ok ws := by
  induction ws with
  | nil => rfl
  | cons w ws ih => simp [packWords, unpackBytes, ih, joinWord_lo_hi]

/-- Packing unpacked bytes gives them back (R58). -/
theorem packWords_of_unpackBytes {bs : List Byte} {ws : List Word} (h : unpackBytes bs = .ok ws) :
    packWords ws = bs := by
  induction bs using unpackBytes.induct generalizing ws with
  | case1 => simp [unpackBytes] at h; subst h; rfl
  | case2 b => simp [unpackBytes] at h
  | case3 lo hi bs vs hvs ih =>
    simp [unpackBytes, hvs] at h
    subst h
    simp [packWords, loByte_joinWord, hiByte_joinWord, ih hvs]
  | case4 lo hi bs e he ih => simp [unpackBytes, he] at h

/-- An odd number of bytes is rejected, an even number is not (R91). -/
theorem unpackBytes_isOk (bs : List Byte) : (unpackBytes bs).toOption.isSome = decide (bs.length % 2 = 0) := by
  induction bs using unpackBytes.induct with
  | case1 => rfl
  | case2 b => rfl
  | case3 lo hi bs vs hvs ih =>
    simp [hvs, Except.toOption] at ih
    simp [unpackBytes, hvs, Except.toOption]
    omega
  | case4 lo hi bs e he ih =>
    simp [he, Except.toOption] at ih
    simp [unpackBytes, he, Except.toOption]
    omega

end Sys2Proof
end

