-- ==== Sys2Proof/Laws/Decode.lean ====
section
/-! SUPPORT. The decoder by cases: what a decoded command and a decoded push can be, status words both ways, and what the
framer passes on. -/

namespace Sys2Proof

/-- A decoded command is one of the four, with at most two argument words, and its words are its encoding (R59, R60). -/
theorem decodeCommand_ok {c : Config} {ws : List Word} {i : Instr} (h : decodeCommand c ws = .ok i) :
    ∃ node args, args.length ≤ 2 ∧
      ((i = .reset node args ∧ ws = c.opReset :: node :: args) ∨
       (i = .readPage node args ∧ ws = c.opReadPage :: node :: args) ∨
       (i = .writePage node args ∧ ws = c.opWritePage :: node :: args) ∨
       (i = .pageData node args ∧ ws = c.opPageData :: node :: args)) := by
  unfold decodeCommand at h
  split at h
  next op node args =>
    refine ⟨node, args, ?_⟩
    repeat' split at h
    all_goals simp at h
    all_goals subst h; simp_all
  next => simp at h

/-- The decoder of received words gives commands only (R62). -/
theorem isCommand_of_decodeCommand {c : Config} {ws : List Word} {i : Instr} (h : decodeCommand c ws = .ok i) :
    i.isCommand = true := by
  obtain ⟨_, _, _, ⟨rfl, _⟩ | ⟨rfl, _⟩ | ⟨rfl, _⟩ | ⟨rfl, _⟩⟩ := decodeCommand_ok h <;> rfl

/-- A decoded push is one of the three, with its words (R61). -/
theorem decodePush_ok {c : Config} {ws : List Word} {i : Instr} (h : decodePush c ws = .ok i) :
    (∃ a b d, i = .pushDescription a b d ∧ ws = [c.opDescription, a, b, d]) ∨
    (∃ a b, i = .pushPageData a b ∧ ws = [c.opPageDataRead, a, b]) ∨
    (∃ w st, i = .pushAck st ∧ ws = [c.opAck, w] ∧ statusOf c w = .ok st) := by
  unfold decodePush at h
  split at h
  · split at h <;> simp at h
    subst h; simp_all
  · split at h <;> simp at h
    subst h; simp_all
  · split at h
    · split at h <;> simp at h
      subst h; simp_all
    · simp at h
  · simp at h

theorem statusWord_of_statusOf {c : Config} {w : Word} {st : Status} (h : statusOf c w = .ok st) :
    statusWord c st = w := by
  unfold statusOf at h
  repeat' split at h
  all_goals simp at h
  all_goals subst h; simp_all [statusWord]

theorem statusOf_statusWord {c : Config} (hc : c.Admissible) (st : Status) : statusOf c (statusWord c st) = .ok st := by
  have h := hc.statusesNodup
  simp only [List.nodup_cons, List.mem_cons, List.not_mem_nil, not_or, or_false] at h
  obtain ⟨⟨h1, h2, h3, h4⟩, ⟨h5, h6, h7⟩, ⟨h8, h9⟩, h10, _⟩ := h
  cases st <;>
    simp [statusOf, statusWord, Ne.symm h1, Ne.symm h2, Ne.symm h3, Ne.symm h4, Ne.symm h5, Ne.symm h6, Ne.symm h7,
      Ne.symm h8, Ne.symm h9, Ne.symm h10]

/-- What the framer passes on: an accepted data frame's words (R91). -/
theorem Machine.receive_some {c : Config} {f : Frame} {ws : List Word} (h : Machine.receive c f = some ws) :
    f.rtr = false ∧ Machine.rxAccept c f = true ∧ unpackBytes f.data = .ok ws := by
  unfold Machine.receive at h
  split at h
  · simp at h
  · split at h
    · cases hu : unpackBytes f.data with
      | ok v => simp [hu, Except.toOption] at h; subst h; simp_all
      | error e => simp [hu, Except.toOption] at h
    · simp at h

end Sys2Proof
end

