-- ==== Sys2Proof/Laws/Mapper.lean ====
section
/-! SUPPORT. The mapper: pages and sectors lie in the region, pages do not overlap, a head page starts its sector (R42, R43,
R80, R81). -/

namespace Sys2Proof.Machine

open Sys2Proof

/-- A page's words lie inside the page. -/
theorem pageAddress_bounds (c : Config) (p w : Nat) (hw : w < c.pageWords) :
    pageAddress c p 0 ≤ pageAddress c p w ∧ pageAddress c p w + 2 ≤ pageAddress c (p + 1) 0 := by
  unfold pageAddress Config.pageBytes
  constructor
  · omega
  · rw [Nat.add_mul, Nat.one_mul]
    omega

/-- Pages are laid out in ascending order (R42). -/
theorem pageAddress_mono (c : Config) {p q : Nat} (h : p ≤ q) : pageAddress c p 0 ≤ pageAddress c q 0 := by
  unfold pageAddress
  have := Nat.mul_le_mul_right c.pageBytes h
  omega

theorem pageAddress_end (c : Config) : pageAddress c c.availablePages 0 = c.flashEnd := rfl

/-- A word of a valid page is an even address of the region (R80, R48). -/
theorem pageAddress_inRegion {c : Config} (hc : c.Admissible) {p w : Nat} (hp : p < c.availablePages)
    (hw : w < c.pageWords) : halfInRegion c (pageAddress c p w) = true := by
  have h1 := pageAddress_bounds c p w hw
  have h2 := pageAddress_mono c (show p + 1 ≤ c.availablePages from hp)
  rw [pageAddress_end] at h2
  have h3 : c.flashBase ≤ pageAddress c p 0 := by unfold pageAddress; omega
  have h4 : pageAddress c p w % 2 = 0 := by
    have := hc.baseEven
    unfold pageAddress Config.pageBytes
    rw [Nat.mul_left_comm]
    omega
  simp only [halfInRegion, decide_eq_true_eq]
  exact ⟨h4, by omega, by omega⟩

/-- Words of different pages do not overlap (R42). -/
theorem pageAddress_disjoint (c : Config) {p q w v : Nat} (hw : w < c.pageWords) (hv : v < c.pageWords) (h : p ≠ q) :
    pageAddress c p w + 2 ≤ pageAddress c q v ∨ pageAddress c q v + 2 ≤ pageAddress c p w := by
  have hp := pageAddress_bounds c p w hw
  have hq := pageAddress_bounds c q v hv
  rcases Nat.lt_or_gt_of_ne h with h | h
  · have := pageAddress_mono c (show p + 1 ≤ q from h)
    left; omega
  · have := pageAddress_mono c (show q + 1 ≤ p from h)
    right; omega

/-- A sector head's sector starts at the page's first word (R81). -/
theorem sectorAddress_of_head {c : Config} {p sid : Nat} (h : pageSector c p = some sid) :
    sectorAddress c sid = pageAddress c p 0 := by
  unfold pageSector at h
  split at h
  next hm =>
    have hs : sid - c.firstSectorId = p / c.pagesPerSector := by
      rw [← Option.some.inj h, Nat.add_sub_cancel_left]
    have hd : p / c.pagesPerSector * c.pagesPerSector = p := Nat.div_mul_cancel (Nat.dvd_of_mod_eq_zero hm)
    unfold sectorAddress pageAddress Config.sectorBytes
    rw [hs, Nat.mul_comm c.pageBytes, ← Nat.mul_assoc, hd, Nat.mul_zero, Nat.add_zero]
  next => exact absurd h (by simp)

/-- The sector of a valid head page is a sector of the region (R83). -/
theorem sectorInRegion_of_head {c : Config} (hc : c.Admissible) {p sid : Nat} (hp : p < c.availablePages)
    (h : pageSector c p = some sid) : sectorInRegion c sid = true := by
  unfold pageSector at h
  split at h
  next =>
    have h1 : p / c.pagesPerSector < c.sectors := by
      rw [Nat.div_lt_iff_lt_mul (by have := hc.pagesPerSectorMin; omega), hc.sectors_mul]
      exact hp
    have h2 := Option.some.inj h
    generalize p / c.pagesPerSector = q at h1 h2
    simp only [sectorInRegion, decide_eq_true_eq]
    omega
  next => exact absurd h (by simp)

/-- A sector of the region lies in the region (R43). -/
theorem sector_bounds {c : Config} (hc : c.Admissible) {sid : Nat} (h : sectorInRegion c sid = true) :
    c.flashBase ≤ sectorAddress c sid ∧ sectorAddress c sid + c.sectorBytes ≤ c.flashEnd := by
  simp only [sectorInRegion, decide_eq_true_eq] at h
  have h1 : sid - c.firstSectorId + 1 ≤ c.sectors := by omega
  have h2 := Nat.mul_le_mul_right c.sectorBytes h1
  rw [hc.sectors_mul_bytes, Nat.add_mul, Nat.one_mul] at h2
  unfold sectorAddress Config.flashEnd
  omega

/-- Every sector starts on a SECTOR_BYTES boundary (R48, R90). -/
theorem sectorAddress_aligned {c : Config} (hc : c.Admissible) (sid : Nat) :
    sectorAddress c sid % c.sectorBytes = 0 := by
  unfold sectorAddress
  rw [Nat.add_mul_mod_self_right]
  exact hc.baseAligned

end Sys2Proof.Machine
end

