-- ==== Sys2Proof/Laws/Memory.lean ====
section
/-! SUPPORT. What the flash operations do: reading back a write, its frame, its cells, its canonical form; equal flash is
equal data. -/

namespace Sys2Proof.Machine.Memory

open Sys2Proof

theorem get?_append (m n : Memory) (x : Nat) : get? (m ++ n) x = (get? m x).or (get? n x) := by
  induction m with
  | nil => simp [get?, unlisted]
  | cons c m ih =>
    obtain ⟨b, v⟩ := c
    by_cases h : b = x <;> simp [get?, h, ih]

theorem get?_filter_of_true (m : Memory) (p : Nat → Bool) (x : Nat) (h : p x = true) :
    get? (m.filter (fun c => p c.1)) x = get? m x := by
  induction m with
  | nil => rfl
  | cons c m ih =>
    obtain ⟨b, v⟩ := c
    by_cases hb : b = x
    · subst hb; simp [h, get?]
    · by_cases hp : p b = true <;> simp [hp, get?, hb, ih]

theorem get?_filter_of_false (m : Memory) (p : Nat → Bool) (x : Nat) (h : p x = false) :
    get? (m.filter (fun c => p c.1)) x = none := by
  induction m with
  | nil => rfl
  | cons c m ih =>
    obtain ⟨b, v⟩ := c
    by_cases hp : p b = true
    · have hb : b ≠ x := by rintro rfl; simp [h] at hp
      simp [hp, get?, hb, ih]
    · simp [hp, ih]

theorem get?_cellsFrom (a : Nat) (bs : List Byte) (x : Nat) :
    get? (cellsFrom a bs) x = if a ≤ x then bs[x - a]? else none := by
  induction bs generalizing a with
  | nil => simp [cellsFrom, get?, unlisted]
  | cons v bs ih =>
    by_cases h : a = x
    · subst h; simp [cellsFrom, get?]
    · by_cases h1 : a ≤ x
      · have h2 : a + 1 ≤ x := by omega
        obtain ⟨k, rfl⟩ := Nat.exists_eq_add_of_le h2
        have h3 : a + 1 + k - a = k + 1 := by omega
        simp [cellsFrom, get?, h, ih, h1, h3]
      · have h2 : ¬ a + 1 ≤ x := by omega
        simp [cellsFrom, get?, h, ih, h1, h2]

/-- Read after write: the written bytes inside the run, the old byte everywhere else. -/
theorem get?_write (m : Memory) (a : Nat) (bs : List Byte) (x : Nat) :
    get? (write m a bs) x = if a ≤ x ∧ x < a + bs.length then bs[x - a]? else get? m x := by
  have hlt := fun h => get?_filter_of_true m (fun b => decide (b < a)) x h
  have hlt' := fun h => get?_filter_of_false m (fun b => decide (b < a)) x h
  have hge := fun h => get?_filter_of_true m (fun b => decide (a + bs.length ≤ b)) x h
  have hge' := fun h => get?_filter_of_false m (fun b => decide (a + bs.length ≤ b)) x h
  unfold write
  rw [get?_append, get?_append, get?_cellsFrom]
  by_cases h1 : x < a
  · rw [hlt (by simpa using h1), hge' (by simp; omega)]
    simp [show ¬ a ≤ x by omega]
  · rw [hlt' (by simpa using h1)]
    by_cases h2 : x < a + bs.length
    · rw [hge' (by simp; omega)]
      simp [show a ≤ x by omega, h2]
    · rw [hge (by simp; omega)]
      have : bs[x - a]? = none := by simp; omega
      simp [show a ≤ x by omega, h2, this]

/-- A write leaves every byte outside its run alone. -/
theorem get?_write_outside (m : Memory) (a : Nat) (bs : List Byte) (x : Nat) (h : x < a ∨ a + bs.length ≤ x) :
    get? (write m a bs) x = get? m x := by
  rw [get?_write, if_neg (by omega)]

/-- A write puts its bytes where it says. -/
theorem get?_write_inside (m : Memory) (a : Nat) (bs : List Byte) (i : Nat) (h : i < bs.length) :
    get? (write m a bs) (a + i) = some bs[i] := by
  rw [get?_write, if_pos (by omega)]
  simp [h]

theorem fst_of_mem_cellsFrom {a : Nat} {bs : List Byte} {c : Host.Cell} (h : c ∈ cellsFrom a bs) :
    a ≤ c.1 ∧ c.1 < a + bs.length := by
  induction bs generalizing a with
  | nil => simp [cellsFrom] at h
  | cons v bs ih =>
    simp only [cellsFrom, List.mem_cons] at h
    rcases h with rfl | h
    · simp
    · have := ih h
      simp only [List.length_cons]
      omega

/-- The cells of a write: old ones, or ones of its run. -/
theorem mem_write {m : Memory} {a : Nat} {bs : List Byte} {c : Host.Cell} (h : c ∈ write m a bs) :
    c ∈ m ∨ (a ≤ c.1 ∧ c.1 < a + bs.length) := by
  simp only [write, List.mem_append, List.mem_filter] at h
  rcases h with (h | h) | h
  · exact .inl h.1
  · exact .inr (fst_of_mem_cellsFrom h)
  · exact .inl h.1

theorem wf_cellsFrom (a : Nat) (bs : List Byte) : wf (cellsFrom a bs) := by
  induction bs generalizing a with
  | nil => exact List.Pairwise.nil
  | cons v bs ih =>
    refine List.Pairwise.cons (fun c hc => ?_) (ih (a + 1))
    have := fst_of_mem_cellsFrom hc
    simp only
    omega

/-- A write keeps the canonical form. -/
theorem wf_write {m : Memory} (h : wf m) (a : Nat) (bs : List Byte) : wf (write m a bs) := by
  refine List.pairwise_append.2 ⟨List.pairwise_append.2 ⟨h.filter _, wf_cellsFrom a bs, ?_⟩, h.filter _, ?_⟩
  · intro c hc d hd
    have := fst_of_mem_cellsFrom hd
    simp only [List.mem_filter, decide_eq_true_eq] at hc
    omega
  · intro c hc d hd
    simp only [List.mem_filter, decide_eq_true_eq] at hd
    rcases List.mem_append.1 hc with hc | hc
    · simp only [List.mem_filter, decide_eq_true_eq] at hc
      omega
    · have := fst_of_mem_cellsFrom hc
      omega

theorem cellsFrom_append (a : Nat) (bs cs : List Byte) :
    cellsFrom a (bs ++ cs) = cellsFrom a bs ++ cellsFrom (a + bs.length) cs := by
  induction bs generalizing a with
  | nil => rfl
  | cons v bs ih => simp [cellsFrom, ih, Nat.add_assoc, Nat.add_comm 1]

/-- Two writes in a row, the second where the first ends, are one write. -/
theorem write_write (m : Memory) (a : Nat) (bs cs : List Byte) :
    write (write m a bs) (a + bs.length) cs = write m a (bs ++ cs) := by
  have hc1 : (cellsFrom a bs).filter (fun c => decide (c.1 < a + bs.length)) = cellsFrom a bs :=
    List.filter_eq_self.2 fun c hc => by have := fst_of_mem_cellsFrom hc; simp; omega
  have hc2 : (cellsFrom a bs).filter (fun c => decide (a + bs.length + cs.length ≤ c.1)) = [] :=
    List.filter_eq_nil_iff.2 fun c hc => by have := fst_of_mem_cellsFrom hc; simp; omega
  have h1 : ∀ p q : Nat → Bool, (∀ x, p x = (p x && q x)) →
      (m.filter (fun c => p c.1)).filter (fun c => q c.1) = m.filter (fun c => p c.1) := fun p q h => by
    rw [List.filter_filter]
    exact List.filter_congr fun c _ => by rw [Bool.and_comm, ← h]
  have h2 : (m.filter (fun c => decide (a + bs.length ≤ c.1))).filter (fun c => decide (c.1 < a + bs.length)) = [] :=
    List.filter_eq_nil_iff.2 fun c hc => by simp [List.mem_filter] at hc ⊢; omega
  have h3 : (m.filter (fun c => decide (c.1 < a))).filter (fun c => decide (a + bs.length + cs.length ≤ c.1)) = [] :=
    List.filter_eq_nil_iff.2 fun c hc => by simp [List.mem_filter] at hc ⊢; omega
  have h4 : (m.filter (fun c => decide (a + bs.length ≤ c.1))).filter
      (fun c => decide (a + bs.length + cs.length ≤ c.1)) =
      m.filter (fun c => decide (a + bs.length + cs.length ≤ c.1)) := by
    rw [List.filter_filter]
    exact List.filter_congr fun c _ => by
      by_cases h : a + bs.length + cs.length ≤ c.1
      · simp [h, show a + bs.length ≤ c.1 by omega]
      · simp [h]
  have h5 : (m.filter (fun c => decide (c.1 < a))).filter (fun c => decide (c.1 < a + bs.length)) =
      m.filter (fun c => decide (c.1 < a)) :=
    h1 (fun x => decide (x < a)) (fun x => decide (x < a + bs.length)) fun x => by
      by_cases h : x < a
      · simp [h, show x < a + bs.length by omega]
      · simp [h]
  simp only [write, List.filter_append, hc1, hc2, h2, h3, h4, h5, List.append_nil, List.nil_append,
    cellsFrom_append, List.length_append, ← Nat.add_assoc, ← List.append_assoc]

theorem wf_nil : wf [] := List.Pairwise.nil

theorem wf_writeHalf {m : Memory} (h : wf m) (a : Nat) (v : Word) : wf (writeHalf m a v) := wf_write h a _

theorem get?_eq_none_of_lt {m : Memory} {x : Nat} (h : ∀ c ∈ m, x < c.1) : get? m x = none := by
  induction m with
  | nil => rfl
  | cons c m ih =>
    obtain ⟨b, v⟩ := c
    have hb := h (b, v) List.mem_cons_self
    have hne : b ≠ x := by simp only at hb; omega
    simp [get?, hne, ih (fun d hd => h d (List.mem_cons_of_mem _ hd))]

/-- Flash in canonical form that reads the same everywhere is the same data. -/
theorem ext_of_wf {m n : Memory} (hm : wf m) (hn : wf n) (h : ∀ x, get? m x = get? n x) : m = n := by
  induction m generalizing n with
  | nil =>
    cases n with
    | nil => rfl
    | cons d n => have := h d.1; simp [get?, unlisted] at this
  | cons c m ih =>
    obtain ⟨b, v⟩ := c
    cases n with
    | nil => have := h b; simp [get?, unlisted] at this
    | cons d n =>
      obtain ⟨b', v'⟩ := d
      rw [wf, List.pairwise_cons] at hm hn
      have hbb : b = b' := by
        by_contra hne
        rcases Nat.lt_or_gt_of_ne hne with hlt | hlt
        · have h1 := h b
          have h2 : get? n b = none := get?_eq_none_of_lt fun e he => Nat.lt_trans hlt (hn.1 e he)
          simp [get?, h2, Ne.symm hne] at h1
        · have h1 := h b'
          have h2 : get? m b' = none := get?_eq_none_of_lt fun e he => Nat.lt_trans hlt (hm.1 e he)
          simp [get?, h2, hne] at h1
      subst hbb
      have hv : v = v' := by have := h b; simpa [get?] using this
      subst hv
      congr 1
      refine ih hm.2 hn.2 fun x => ?_
      by_cases hx : b = x
      · subst hx
        rw [get?_eq_none_of_lt hm.1, get?_eq_none_of_lt hn.1]
      · have := h x
        simpa [get?, hx] using this

/-- Writing no byte changes nothing. -/
theorem write_nil {m : Memory} (h : wf m) (a : Nat) : write m a [] = m :=
  ext_of_wf (wf_write h a []) h fun x => get?_write_outside m a [] x (by simp; omega)

theorem readByte_write_outside (m : Memory) (a : Nat) (bs : List Byte) (x : Nat) (h : x < a ∨ a + bs.length ≤ x) :
    readByte (write m a bs) x = readByte m x := by
  rw [readByte, get?_write_outside m a bs x h, readByte]

theorem readHalf_write_outside (m : Memory) (a : Nat) (bs : List Byte) (x : Nat) (h : x + 1 < a ∨ a + bs.length ≤ x) :
    readHalf (write m a bs) x = readHalf m x := by
  rw [readHalf, readByte_write_outside m a bs x (by omega), readByte_write_outside m a bs (x + 1) (by omega), readHalf]

/-- A halfword reads back as stored. -/
@[simp] theorem readHalf_writeHalf (m : Memory) (a : Nat) (v : Word) : readHalf (writeHalf m a v) a = v := by
  have h0 := get?_write_inside m a [loByte v, hiByte v] 0 (by simp)
  have h1 := get?_write_inside m a [loByte v, hiByte v] 1 (by simp)
  simp only [Nat.add_zero] at h0
  rw [readHalf, writeHalf, readByte, readByte, h0, h1]
  exact joinWord_lo_hi v

/-- Storing a halfword leaves every halfword that does not overlap it alone. -/
theorem readHalf_writeHalf_of_disjoint (m : Memory) (a : Nat) (v : Word) (x : Nat) (h : x + 1 < a ∨ a + 2 ≤ x) :
    readHalf (writeHalf m a v) x = readHalf m x :=
  readHalf_write_outside m a _ x (by simpa using h)

/-- Words written as a run read back in order. -/
theorem readHalf_write_packWords (m : Memory) (a : Nat) (ws : List Word) (i : Nat) (h : i < ws.length) :
    readHalf (write m a (packWords ws)) (a + 2 * i) = ws[i] := by
  have hlen := length_packWords ws
  have h0 := get?_write_inside m a (packWords ws) (2 * i) (by omega)
  have h1 := get?_write_inside m a (packWords ws) (2 * i + 1) (by omega)
  rw [readHalf, readByte, readByte, Nat.add_assoc, h0, h1]
  simp only [Option.getD_some, getElem_packWords_even ws i h, getElem_packWords_odd ws i h, joinWord_lo_hi]

/-- A run of 0xFF bytes reads as erased halfwords (R83). -/
theorem readHalf_write_erased (m : Memory) (a n x : Nat) (h : a ≤ x) (h' : x + 2 ≤ a + n) :
    readHalf (write m a (List.replicate n 0xFF)) x = 0xFFFF := by
  obtain ⟨k, rfl⟩ := Nat.exists_eq_add_of_le h
  have h0 := get?_write_inside m a (List.replicate n 0xFF) k (by simp; omega)
  have h1 := get?_write_inside m a (List.replicate n 0xFF) (k + 1) (by simp; omega)
  rw [readHalf, readByte, readByte, Nat.add_assoc, h0, h1]
  simp only [List.getElem_replicate, Option.getD_some]
  decide

end Sys2Proof.Machine.Memory
end

