-- ==== Sys2Proof/Laws/State.lean ====
section
/-! SUPPORT. One lemma per field of State per named update, true by definition. -/

namespace Sys2Proof.Machine.State

open Sys2Proof

@[simp] theorem raiseFault_cfg (r : FaultReason) (s : State) : (s.raiseFault r).cfg = s.cfg := rfl
@[simp] theorem raiseFault_phase (r : FaultReason) (s : State) : (s.raiseFault r).phase = .fault := rfl
@[simp] theorem raiseFault_programmingMode (r : FaultReason) (s : State) : (s.raiseFault r).programmingMode = s.programmingMode := rfl
@[simp] theorem raiseFault_currentPage (r : FaultReason) (s : State) : (s.raiseFault r).currentPage = s.currentPage := rfl
@[simp] theorem raiseFault_cursor (r : FaultReason) (s : State) : (s.raiseFault r).cursor = s.cursor := rfl
@[simp] theorem raiseFault_buf (r : FaultReason) (s : State) : (s.raiseFault r).buf = s.buf := rfl
@[simp] theorem raiseFault_timeoutEnabled (r : FaultReason) (s : State) : (s.raiseFault r).timeoutEnabled = s.timeoutEnabled := rfl
@[simp] theorem raiseFault_timer (r : FaultReason) (s : State) : (s.raiseFault r).timer = s.timer := rfl
@[simp] theorem raiseFault_flashUnlocked (r : FaultReason) (s : State) : (s.raiseFault r).flashUnlocked = s.flashUnlocked := rfl
@[simp] theorem raiseFault_fault (r : FaultReason) (s : State) : (s.raiseFault r).fault = some r := rfl
@[simp] theorem raiseFault_magic (r : FaultReason) (s : State) : (s.raiseFault r).magic = s.magic := rfl
@[simp] theorem raiseFault_mem (r : FaultReason) (s : State) : (s.raiseFault r).mem = s.mem := rfl
@[simp] theorem raiseFault_rxQueue (r : FaultReason) (s : State) : (s.raiseFault r).rxQueue = s.rxQueue := rfl
@[simp] theorem raiseFault_tx (r : FaultReason) (s : State) : (s.raiseFault r).tx = s.tx := rfl
@[simp] theorem raiseFault_jumpApp (r : FaultReason) (s : State) : (s.raiseFault r).jumpApp = s.jumpApp := rfl
@[simp] theorem raiseFault_sysResetReq (r : FaultReason) (s : State) : (s.raiseFault r).sysResetReq = s.sysResetReq := rfl
@[simp] theorem raiseFault_sched (r : FaultReason) (s : State) : (s.raiseFault r).sched = s.sched := rfl
@[simp] theorem raiseFault_draws (r : FaultReason) (s : State) : (s.raiseFault r).draws = s.draws := rfl

@[simp] theorem setTimer_cfg (v : Nat) (s : State) : (s.setTimer v).cfg = s.cfg := rfl
@[simp] theorem setTimer_phase (v : Nat) (s : State) : (s.setTimer v).phase = s.phase := rfl
@[simp] theorem setTimer_programmingMode (v : Nat) (s : State) : (s.setTimer v).programmingMode = s.programmingMode := rfl
@[simp] theorem setTimer_currentPage (v : Nat) (s : State) : (s.setTimer v).currentPage = s.currentPage := rfl
@[simp] theorem setTimer_cursor (v : Nat) (s : State) : (s.setTimer v).cursor = s.cursor := rfl
@[simp] theorem setTimer_buf (v : Nat) (s : State) : (s.setTimer v).buf = s.buf := rfl
@[simp] theorem setTimer_timeoutEnabled (v : Nat) (s : State) : (s.setTimer v).timeoutEnabled = s.timeoutEnabled := rfl
@[simp] theorem setTimer_timer (v : Nat) (s : State) : (s.setTimer v).timer = v := rfl
@[simp] theorem setTimer_flashUnlocked (v : Nat) (s : State) : (s.setTimer v).flashUnlocked = s.flashUnlocked := rfl
@[simp] theorem setTimer_fault (v : Nat) (s : State) : (s.setTimer v).fault = s.fault := rfl
@[simp] theorem setTimer_magic (v : Nat) (s : State) : (s.setTimer v).magic = s.magic := rfl
@[simp] theorem setTimer_mem (v : Nat) (s : State) : (s.setTimer v).mem = s.mem := rfl
@[simp] theorem setTimer_rxQueue (v : Nat) (s : State) : (s.setTimer v).rxQueue = s.rxQueue := rfl
@[simp] theorem setTimer_tx (v : Nat) (s : State) : (s.setTimer v).tx = s.tx := rfl
@[simp] theorem setTimer_jumpApp (v : Nat) (s : State) : (s.setTimer v).jumpApp = s.jumpApp := rfl
@[simp] theorem setTimer_sysResetReq (v : Nat) (s : State) : (s.setTimer v).sysResetReq = s.sysResetReq := rfl
@[simp] theorem setTimer_sched (v : Nat) (s : State) : (s.setTimer v).sched = s.sched := rfl
@[simp] theorem setTimer_draws (v : Nat) (s : State) : (s.setTimer v).draws = s.draws := rfl

@[simp] theorem setTimeoutEnabled_cfg (v : Bool) (s : State) : (s.setTimeoutEnabled v).cfg = s.cfg := rfl
@[simp] theorem setTimeoutEnabled_phase (v : Bool) (s : State) : (s.setTimeoutEnabled v).phase = s.phase := rfl
@[simp] theorem setTimeoutEnabled_programmingMode (v : Bool) (s : State) : (s.setTimeoutEnabled v).programmingMode = s.programmingMode := rfl
@[simp] theorem setTimeoutEnabled_currentPage (v : Bool) (s : State) : (s.setTimeoutEnabled v).currentPage = s.currentPage := rfl
@[simp] theorem setTimeoutEnabled_cursor (v : Bool) (s : State) : (s.setTimeoutEnabled v).cursor = s.cursor := rfl
@[simp] theorem setTimeoutEnabled_buf (v : Bool) (s : State) : (s.setTimeoutEnabled v).buf = s.buf := rfl
@[simp] theorem setTimeoutEnabled_timeoutEnabled (v : Bool) (s : State) : (s.setTimeoutEnabled v).timeoutEnabled = v := rfl
@[simp] theorem setTimeoutEnabled_timer (v : Bool) (s : State) : (s.setTimeoutEnabled v).timer = s.timer := rfl
@[simp] theorem setTimeoutEnabled_flashUnlocked (v : Bool) (s : State) : (s.setTimeoutEnabled v).flashUnlocked = s.flashUnlocked := rfl
@[simp] theorem setTimeoutEnabled_fault (v : Bool) (s : State) : (s.setTimeoutEnabled v).fault = s.fault := rfl
@[simp] theorem setTimeoutEnabled_magic (v : Bool) (s : State) : (s.setTimeoutEnabled v).magic = s.magic := rfl
@[simp] theorem setTimeoutEnabled_mem (v : Bool) (s : State) : (s.setTimeoutEnabled v).mem = s.mem := rfl
@[simp] theorem setTimeoutEnabled_rxQueue (v : Bool) (s : State) : (s.setTimeoutEnabled v).rxQueue = s.rxQueue := rfl
@[simp] theorem setTimeoutEnabled_tx (v : Bool) (s : State) : (s.setTimeoutEnabled v).tx = s.tx := rfl
@[simp] theorem setTimeoutEnabled_jumpApp (v : Bool) (s : State) : (s.setTimeoutEnabled v).jumpApp = s.jumpApp := rfl
@[simp] theorem setTimeoutEnabled_sysResetReq (v : Bool) (s : State) : (s.setTimeoutEnabled v).sysResetReq = s.sysResetReq := rfl
@[simp] theorem setTimeoutEnabled_sched (v : Bool) (s : State) : (s.setTimeoutEnabled v).sched = s.sched := rfl
@[simp] theorem setTimeoutEnabled_draws (v : Bool) (s : State) : (s.setTimeoutEnabled v).draws = s.draws := rfl

@[simp] theorem setProgrammingMode_cfg (v : Bool) (s : State) : (s.setProgrammingMode v).cfg = s.cfg := rfl
@[simp] theorem setProgrammingMode_phase (v : Bool) (s : State) : (s.setProgrammingMode v).phase = s.phase := rfl
@[simp] theorem setProgrammingMode_programmingMode (v : Bool) (s : State) : (s.setProgrammingMode v).programmingMode = v := rfl
@[simp] theorem setProgrammingMode_currentPage (v : Bool) (s : State) : (s.setProgrammingMode v).currentPage = s.currentPage := rfl
@[simp] theorem setProgrammingMode_cursor (v : Bool) (s : State) : (s.setProgrammingMode v).cursor = s.cursor := rfl
@[simp] theorem setProgrammingMode_buf (v : Bool) (s : State) : (s.setProgrammingMode v).buf = s.buf := rfl
@[simp] theorem setProgrammingMode_timeoutEnabled (v : Bool) (s : State) : (s.setProgrammingMode v).timeoutEnabled = s.timeoutEnabled := rfl
@[simp] theorem setProgrammingMode_timer (v : Bool) (s : State) : (s.setProgrammingMode v).timer = s.timer := rfl
@[simp] theorem setProgrammingMode_flashUnlocked (v : Bool) (s : State) : (s.setProgrammingMode v).flashUnlocked = s.flashUnlocked := rfl
@[simp] theorem setProgrammingMode_fault (v : Bool) (s : State) : (s.setProgrammingMode v).fault = s.fault := rfl
@[simp] theorem setProgrammingMode_magic (v : Bool) (s : State) : (s.setProgrammingMode v).magic = s.magic := rfl
@[simp] theorem setProgrammingMode_mem (v : Bool) (s : State) : (s.setProgrammingMode v).mem = s.mem := rfl
@[simp] theorem setProgrammingMode_rxQueue (v : Bool) (s : State) : (s.setProgrammingMode v).rxQueue = s.rxQueue := rfl
@[simp] theorem setProgrammingMode_tx (v : Bool) (s : State) : (s.setProgrammingMode v).tx = s.tx := rfl
@[simp] theorem setProgrammingMode_jumpApp (v : Bool) (s : State) : (s.setProgrammingMode v).jumpApp = s.jumpApp := rfl
@[simp] theorem setProgrammingMode_sysResetReq (v : Bool) (s : State) : (s.setProgrammingMode v).sysResetReq = s.sysResetReq := rfl
@[simp] theorem setProgrammingMode_sched (v : Bool) (s : State) : (s.setProgrammingMode v).sched = s.sched := rfl
@[simp] theorem setProgrammingMode_draws (v : Bool) (s : State) : (s.setProgrammingMode v).draws = s.draws := rfl

@[simp] theorem setCurrentPage_cfg (v : Word) (s : State) : (s.setCurrentPage v).cfg = s.cfg := rfl
@[simp] theorem setCurrentPage_phase (v : Word) (s : State) : (s.setCurrentPage v).phase = s.phase := rfl
@[simp] theorem setCurrentPage_programmingMode (v : Word) (s : State) : (s.setCurrentPage v).programmingMode = s.programmingMode := rfl
@[simp] theorem setCurrentPage_currentPage (v : Word) (s : State) : (s.setCurrentPage v).currentPage = v := rfl
@[simp] theorem setCurrentPage_cursor (v : Word) (s : State) : (s.setCurrentPage v).cursor = s.cursor := rfl
@[simp] theorem setCurrentPage_buf (v : Word) (s : State) : (s.setCurrentPage v).buf = s.buf := rfl
@[simp] theorem setCurrentPage_timeoutEnabled (v : Word) (s : State) : (s.setCurrentPage v).timeoutEnabled = s.timeoutEnabled := rfl
@[simp] theorem setCurrentPage_timer (v : Word) (s : State) : (s.setCurrentPage v).timer = s.timer := rfl
@[simp] theorem setCurrentPage_flashUnlocked (v : Word) (s : State) : (s.setCurrentPage v).flashUnlocked = s.flashUnlocked := rfl
@[simp] theorem setCurrentPage_fault (v : Word) (s : State) : (s.setCurrentPage v).fault = s.fault := rfl
@[simp] theorem setCurrentPage_magic (v : Word) (s : State) : (s.setCurrentPage v).magic = s.magic := rfl
@[simp] theorem setCurrentPage_mem (v : Word) (s : State) : (s.setCurrentPage v).mem = s.mem := rfl
@[simp] theorem setCurrentPage_rxQueue (v : Word) (s : State) : (s.setCurrentPage v).rxQueue = s.rxQueue := rfl
@[simp] theorem setCurrentPage_tx (v : Word) (s : State) : (s.setCurrentPage v).tx = s.tx := rfl
@[simp] theorem setCurrentPage_jumpApp (v : Word) (s : State) : (s.setCurrentPage v).jumpApp = s.jumpApp := rfl
@[simp] theorem setCurrentPage_sysResetReq (v : Word) (s : State) : (s.setCurrentPage v).sysResetReq = s.sysResetReq := rfl
@[simp] theorem setCurrentPage_sched (v : Word) (s : State) : (s.setCurrentPage v).sched = s.sched := rfl
@[simp] theorem setCurrentPage_draws (v : Word) (s : State) : (s.setCurrentPage v).draws = s.draws := rfl

@[simp] theorem setCursor_cfg (v : Word) (s : State) : (s.setCursor v).cfg = s.cfg := rfl
@[simp] theorem setCursor_phase (v : Word) (s : State) : (s.setCursor v).phase = s.phase := rfl
@[simp] theorem setCursor_programmingMode (v : Word) (s : State) : (s.setCursor v).programmingMode = s.programmingMode := rfl
@[simp] theorem setCursor_currentPage (v : Word) (s : State) : (s.setCursor v).currentPage = s.currentPage := rfl
@[simp] theorem setCursor_cursor (v : Word) (s : State) : (s.setCursor v).cursor = v := rfl
@[simp] theorem setCursor_buf (v : Word) (s : State) : (s.setCursor v).buf = s.buf := rfl
@[simp] theorem setCursor_timeoutEnabled (v : Word) (s : State) : (s.setCursor v).timeoutEnabled = s.timeoutEnabled := rfl
@[simp] theorem setCursor_timer (v : Word) (s : State) : (s.setCursor v).timer = s.timer := rfl
@[simp] theorem setCursor_flashUnlocked (v : Word) (s : State) : (s.setCursor v).flashUnlocked = s.flashUnlocked := rfl
@[simp] theorem setCursor_fault (v : Word) (s : State) : (s.setCursor v).fault = s.fault := rfl
@[simp] theorem setCursor_magic (v : Word) (s : State) : (s.setCursor v).magic = s.magic := rfl
@[simp] theorem setCursor_mem (v : Word) (s : State) : (s.setCursor v).mem = s.mem := rfl
@[simp] theorem setCursor_rxQueue (v : Word) (s : State) : (s.setCursor v).rxQueue = s.rxQueue := rfl
@[simp] theorem setCursor_tx (v : Word) (s : State) : (s.setCursor v).tx = s.tx := rfl
@[simp] theorem setCursor_jumpApp (v : Word) (s : State) : (s.setCursor v).jumpApp = s.jumpApp := rfl
@[simp] theorem setCursor_sysResetReq (v : Word) (s : State) : (s.setCursor v).sysResetReq = s.sysResetReq := rfl
@[simp] theorem setCursor_sched (v : Word) (s : State) : (s.setCursor v).sched = s.sched := rfl
@[simp] theorem setCursor_draws (v : Word) (s : State) : (s.setCursor v).draws = s.draws := rfl

@[simp] theorem setBuf_cfg (v : List Word) (s : State) : (s.setBuf v).cfg = s.cfg := rfl
@[simp] theorem setBuf_phase (v : List Word) (s : State) : (s.setBuf v).phase = s.phase := rfl
@[simp] theorem setBuf_programmingMode (v : List Word) (s : State) : (s.setBuf v).programmingMode = s.programmingMode := rfl
@[simp] theorem setBuf_currentPage (v : List Word) (s : State) : (s.setBuf v).currentPage = s.currentPage := rfl
@[simp] theorem setBuf_cursor (v : List Word) (s : State) : (s.setBuf v).cursor = s.cursor := rfl
@[simp] theorem setBuf_buf (v : List Word) (s : State) : (s.setBuf v).buf = v := rfl
@[simp] theorem setBuf_timeoutEnabled (v : List Word) (s : State) : (s.setBuf v).timeoutEnabled = s.timeoutEnabled := rfl
@[simp] theorem setBuf_timer (v : List Word) (s : State) : (s.setBuf v).timer = s.timer := rfl
@[simp] theorem setBuf_flashUnlocked (v : List Word) (s : State) : (s.setBuf v).flashUnlocked = s.flashUnlocked := rfl
@[simp] theorem setBuf_fault (v : List Word) (s : State) : (s.setBuf v).fault = s.fault := rfl
@[simp] theorem setBuf_magic (v : List Word) (s : State) : (s.setBuf v).magic = s.magic := rfl
@[simp] theorem setBuf_mem (v : List Word) (s : State) : (s.setBuf v).mem = s.mem := rfl
@[simp] theorem setBuf_rxQueue (v : List Word) (s : State) : (s.setBuf v).rxQueue = s.rxQueue := rfl
@[simp] theorem setBuf_tx (v : List Word) (s : State) : (s.setBuf v).tx = s.tx := rfl
@[simp] theorem setBuf_jumpApp (v : List Word) (s : State) : (s.setBuf v).jumpApp = s.jumpApp := rfl
@[simp] theorem setBuf_sysResetReq (v : List Word) (s : State) : (s.setBuf v).sysResetReq = s.sysResetReq := rfl
@[simp] theorem setBuf_sched (v : List Word) (s : State) : (s.setBuf v).sched = s.sched := rfl
@[simp] theorem setBuf_draws (v : List Word) (s : State) : (s.setBuf v).draws = s.draws := rfl

@[simp] theorem setFlashUnlocked_cfg (v : Bool) (s : State) : (s.setFlashUnlocked v).cfg = s.cfg := rfl
@[simp] theorem setFlashUnlocked_phase (v : Bool) (s : State) : (s.setFlashUnlocked v).phase = s.phase := rfl
@[simp] theorem setFlashUnlocked_programmingMode (v : Bool) (s : State) : (s.setFlashUnlocked v).programmingMode = s.programmingMode := rfl
@[simp] theorem setFlashUnlocked_currentPage (v : Bool) (s : State) : (s.setFlashUnlocked v).currentPage = s.currentPage := rfl
@[simp] theorem setFlashUnlocked_cursor (v : Bool) (s : State) : (s.setFlashUnlocked v).cursor = s.cursor := rfl
@[simp] theorem setFlashUnlocked_buf (v : Bool) (s : State) : (s.setFlashUnlocked v).buf = s.buf := rfl
@[simp] theorem setFlashUnlocked_timeoutEnabled (v : Bool) (s : State) : (s.setFlashUnlocked v).timeoutEnabled = s.timeoutEnabled := rfl
@[simp] theorem setFlashUnlocked_timer (v : Bool) (s : State) : (s.setFlashUnlocked v).timer = s.timer := rfl
@[simp] theorem setFlashUnlocked_flashUnlocked (v : Bool) (s : State) : (s.setFlashUnlocked v).flashUnlocked = v := rfl
@[simp] theorem setFlashUnlocked_fault (v : Bool) (s : State) : (s.setFlashUnlocked v).fault = s.fault := rfl
@[simp] theorem setFlashUnlocked_magic (v : Bool) (s : State) : (s.setFlashUnlocked v).magic = s.magic := rfl
@[simp] theorem setFlashUnlocked_mem (v : Bool) (s : State) : (s.setFlashUnlocked v).mem = s.mem := rfl
@[simp] theorem setFlashUnlocked_rxQueue (v : Bool) (s : State) : (s.setFlashUnlocked v).rxQueue = s.rxQueue := rfl
@[simp] theorem setFlashUnlocked_tx (v : Bool) (s : State) : (s.setFlashUnlocked v).tx = s.tx := rfl
@[simp] theorem setFlashUnlocked_jumpApp (v : Bool) (s : State) : (s.setFlashUnlocked v).jumpApp = s.jumpApp := rfl
@[simp] theorem setFlashUnlocked_sysResetReq (v : Bool) (s : State) : (s.setFlashUnlocked v).sysResetReq = s.sysResetReq := rfl
@[simp] theorem setFlashUnlocked_sched (v : Bool) (s : State) : (s.setFlashUnlocked v).sched = s.sched := rfl
@[simp] theorem setFlashUnlocked_draws (v : Bool) (s : State) : (s.setFlashUnlocked v).draws = s.draws := rfl

@[simp] theorem setMagic_cfg (v : Magic) (s : State) : (s.setMagic v).cfg = s.cfg := rfl
@[simp] theorem setMagic_phase (v : Magic) (s : State) : (s.setMagic v).phase = s.phase := rfl
@[simp] theorem setMagic_programmingMode (v : Magic) (s : State) : (s.setMagic v).programmingMode = s.programmingMode := rfl
@[simp] theorem setMagic_currentPage (v : Magic) (s : State) : (s.setMagic v).currentPage = s.currentPage := rfl
@[simp] theorem setMagic_cursor (v : Magic) (s : State) : (s.setMagic v).cursor = s.cursor := rfl
@[simp] theorem setMagic_buf (v : Magic) (s : State) : (s.setMagic v).buf = s.buf := rfl
@[simp] theorem setMagic_timeoutEnabled (v : Magic) (s : State) : (s.setMagic v).timeoutEnabled = s.timeoutEnabled := rfl
@[simp] theorem setMagic_timer (v : Magic) (s : State) : (s.setMagic v).timer = s.timer := rfl
@[simp] theorem setMagic_flashUnlocked (v : Magic) (s : State) : (s.setMagic v).flashUnlocked = s.flashUnlocked := rfl
@[simp] theorem setMagic_fault (v : Magic) (s : State) : (s.setMagic v).fault = s.fault := rfl
@[simp] theorem setMagic_magic (v : Magic) (s : State) : (s.setMagic v).magic = v := rfl
@[simp] theorem setMagic_mem (v : Magic) (s : State) : (s.setMagic v).mem = s.mem := rfl
@[simp] theorem setMagic_rxQueue (v : Magic) (s : State) : (s.setMagic v).rxQueue = s.rxQueue := rfl
@[simp] theorem setMagic_tx (v : Magic) (s : State) : (s.setMagic v).tx = s.tx := rfl
@[simp] theorem setMagic_jumpApp (v : Magic) (s : State) : (s.setMagic v).jumpApp = s.jumpApp := rfl
@[simp] theorem setMagic_sysResetReq (v : Magic) (s : State) : (s.setMagic v).sysResetReq = s.sysResetReq := rfl
@[simp] theorem setMagic_sched (v : Magic) (s : State) : (s.setMagic v).sched = s.sched := rfl
@[simp] theorem setMagic_draws (v : Magic) (s : State) : (s.setMagic v).draws = s.draws := rfl

@[simp] theorem setMem_cfg (v : Memory) (s : State) : (s.setMem v).cfg = s.cfg := rfl
@[simp] theorem setMem_phase (v : Memory) (s : State) : (s.setMem v).phase = s.phase := rfl
@[simp] theorem setMem_programmingMode (v : Memory) (s : State) : (s.setMem v).programmingMode = s.programmingMode := rfl
@[simp] theorem setMem_currentPage (v : Memory) (s : State) : (s.setMem v).currentPage = s.currentPage := rfl
@[simp] theorem setMem_cursor (v : Memory) (s : State) : (s.setMem v).cursor = s.cursor := rfl
@[simp] theorem setMem_buf (v : Memory) (s : State) : (s.setMem v).buf = s.buf := rfl
@[simp] theorem setMem_timeoutEnabled (v : Memory) (s : State) : (s.setMem v).timeoutEnabled = s.timeoutEnabled := rfl
@[simp] theorem setMem_timer (v : Memory) (s : State) : (s.setMem v).timer = s.timer := rfl
@[simp] theorem setMem_flashUnlocked (v : Memory) (s : State) : (s.setMem v).flashUnlocked = s.flashUnlocked := rfl
@[simp] theorem setMem_fault (v : Memory) (s : State) : (s.setMem v).fault = s.fault := rfl
@[simp] theorem setMem_magic (v : Memory) (s : State) : (s.setMem v).magic = s.magic := rfl
@[simp] theorem setMem_mem (v : Memory) (s : State) : (s.setMem v).mem = v := rfl
@[simp] theorem setMem_rxQueue (v : Memory) (s : State) : (s.setMem v).rxQueue = s.rxQueue := rfl
@[simp] theorem setMem_tx (v : Memory) (s : State) : (s.setMem v).tx = s.tx := rfl
@[simp] theorem setMem_jumpApp (v : Memory) (s : State) : (s.setMem v).jumpApp = s.jumpApp := rfl
@[simp] theorem setMem_sysResetReq (v : Memory) (s : State) : (s.setMem v).sysResetReq = s.sysResetReq := rfl
@[simp] theorem setMem_sched (v : Memory) (s : State) : (s.setMem v).sched = s.sched := rfl
@[simp] theorem setMem_draws (v : Memory) (s : State) : (s.setMem v).draws = s.draws := rfl

@[simp] theorem setPhase_cfg (v : Phase) (s : State) : (s.setPhase v).cfg = s.cfg := rfl
@[simp] theorem setPhase_phase (v : Phase) (s : State) : (s.setPhase v).phase = v := rfl
@[simp] theorem setPhase_programmingMode (v : Phase) (s : State) : (s.setPhase v).programmingMode = s.programmingMode := rfl
@[simp] theorem setPhase_currentPage (v : Phase) (s : State) : (s.setPhase v).currentPage = s.currentPage := rfl
@[simp] theorem setPhase_cursor (v : Phase) (s : State) : (s.setPhase v).cursor = s.cursor := rfl
@[simp] theorem setPhase_buf (v : Phase) (s : State) : (s.setPhase v).buf = s.buf := rfl
@[simp] theorem setPhase_timeoutEnabled (v : Phase) (s : State) : (s.setPhase v).timeoutEnabled = s.timeoutEnabled := rfl
@[simp] theorem setPhase_timer (v : Phase) (s : State) : (s.setPhase v).timer = s.timer := rfl
@[simp] theorem setPhase_flashUnlocked (v : Phase) (s : State) : (s.setPhase v).flashUnlocked = s.flashUnlocked := rfl
@[simp] theorem setPhase_fault (v : Phase) (s : State) : (s.setPhase v).fault = s.fault := rfl
@[simp] theorem setPhase_magic (v : Phase) (s : State) : (s.setPhase v).magic = s.magic := rfl
@[simp] theorem setPhase_mem (v : Phase) (s : State) : (s.setPhase v).mem = s.mem := rfl
@[simp] theorem setPhase_rxQueue (v : Phase) (s : State) : (s.setPhase v).rxQueue = s.rxQueue := rfl
@[simp] theorem setPhase_tx (v : Phase) (s : State) : (s.setPhase v).tx = s.tx := rfl
@[simp] theorem setPhase_jumpApp (v : Phase) (s : State) : (s.setPhase v).jumpApp = s.jumpApp := rfl
@[simp] theorem setPhase_sysResetReq (v : Phase) (s : State) : (s.setPhase v).sysResetReq = s.sysResetReq := rfl
@[simp] theorem setPhase_sched (v : Phase) (s : State) : (s.setPhase v).sched = s.sched := rfl
@[simp] theorem setPhase_draws (v : Phase) (s : State) : (s.setPhase v).draws = s.draws := rfl

@[simp] theorem pulseJumpApp_cfg (s : State) : (s.pulseJumpApp).cfg = s.cfg := rfl
@[simp] theorem pulseJumpApp_phase (s : State) : (s.pulseJumpApp).phase = s.phase := rfl
@[simp] theorem pulseJumpApp_programmingMode (s : State) : (s.pulseJumpApp).programmingMode = s.programmingMode := rfl
@[simp] theorem pulseJumpApp_currentPage (s : State) : (s.pulseJumpApp).currentPage = s.currentPage := rfl
@[simp] theorem pulseJumpApp_cursor (s : State) : (s.pulseJumpApp).cursor = s.cursor := rfl
@[simp] theorem pulseJumpApp_buf (s : State) : (s.pulseJumpApp).buf = s.buf := rfl
@[simp] theorem pulseJumpApp_timeoutEnabled (s : State) : (s.pulseJumpApp).timeoutEnabled = s.timeoutEnabled := rfl
@[simp] theorem pulseJumpApp_timer (s : State) : (s.pulseJumpApp).timer = s.timer := rfl
@[simp] theorem pulseJumpApp_flashUnlocked (s : State) : (s.pulseJumpApp).flashUnlocked = s.flashUnlocked := rfl
@[simp] theorem pulseJumpApp_fault (s : State) : (s.pulseJumpApp).fault = s.fault := rfl
@[simp] theorem pulseJumpApp_magic (s : State) : (s.pulseJumpApp).magic = s.magic := rfl
@[simp] theorem pulseJumpApp_mem (s : State) : (s.pulseJumpApp).mem = s.mem := rfl
@[simp] theorem pulseJumpApp_rxQueue (s : State) : (s.pulseJumpApp).rxQueue = s.rxQueue := rfl
@[simp] theorem pulseJumpApp_tx (s : State) : (s.pulseJumpApp).tx = s.tx := rfl
@[simp] theorem pulseJumpApp_jumpApp (s : State) : (s.pulseJumpApp).jumpApp = true := rfl
@[simp] theorem pulseJumpApp_sysResetReq (s : State) : (s.pulseJumpApp).sysResetReq = s.sysResetReq := rfl
@[simp] theorem pulseJumpApp_sched (s : State) : (s.pulseJumpApp).sched = s.sched := rfl
@[simp] theorem pulseJumpApp_draws (s : State) : (s.pulseJumpApp).draws = s.draws := rfl

@[simp] theorem pulseSysResetReq_cfg (s : State) : (s.pulseSysResetReq).cfg = s.cfg := rfl
@[simp] theorem pulseSysResetReq_phase (s : State) : (s.pulseSysResetReq).phase = s.phase := rfl
@[simp] theorem pulseSysResetReq_programmingMode (s : State) : (s.pulseSysResetReq).programmingMode = s.programmingMode := rfl
@[simp] theorem pulseSysResetReq_currentPage (s : State) : (s.pulseSysResetReq).currentPage = s.currentPage := rfl
@[simp] theorem pulseSysResetReq_cursor (s : State) : (s.pulseSysResetReq).cursor = s.cursor := rfl
@[simp] theorem pulseSysResetReq_buf (s : State) : (s.pulseSysResetReq).buf = s.buf := rfl
@[simp] theorem pulseSysResetReq_timeoutEnabled (s : State) : (s.pulseSysResetReq).timeoutEnabled = s.timeoutEnabled := rfl
@[simp] theorem pulseSysResetReq_timer (s : State) : (s.pulseSysResetReq).timer = s.timer := rfl
@[simp] theorem pulseSysResetReq_flashUnlocked (s : State) : (s.pulseSysResetReq).flashUnlocked = s.flashUnlocked := rfl
@[simp] theorem pulseSysResetReq_fault (s : State) : (s.pulseSysResetReq).fault = s.fault := rfl
@[simp] theorem pulseSysResetReq_magic (s : State) : (s.pulseSysResetReq).magic = s.magic := rfl
@[simp] theorem pulseSysResetReq_mem (s : State) : (s.pulseSysResetReq).mem = s.mem := rfl
@[simp] theorem pulseSysResetReq_rxQueue (s : State) : (s.pulseSysResetReq).rxQueue = s.rxQueue := rfl
@[simp] theorem pulseSysResetReq_tx (s : State) : (s.pulseSysResetReq).tx = s.tx := rfl
@[simp] theorem pulseSysResetReq_jumpApp (s : State) : (s.pulseSysResetReq).jumpApp = s.jumpApp := rfl
@[simp] theorem pulseSysResetReq_sysResetReq (s : State) : (s.pulseSysResetReq).sysResetReq = true := rfl
@[simp] theorem pulseSysResetReq_sched (s : State) : (s.pulseSysResetReq).sched = s.sched := rfl
@[simp] theorem pulseSysResetReq_draws (s : State) : (s.pulseSysResetReq).draws = s.draws := rfl

@[simp] theorem advanceDraws_cfg (n : Nat) (s : State) : (s.advanceDraws n).cfg = s.cfg := rfl
@[simp] theorem advanceDraws_phase (n : Nat) (s : State) : (s.advanceDraws n).phase = s.phase := rfl
@[simp] theorem advanceDraws_programmingMode (n : Nat) (s : State) : (s.advanceDraws n).programmingMode = s.programmingMode := rfl
@[simp] theorem advanceDraws_currentPage (n : Nat) (s : State) : (s.advanceDraws n).currentPage = s.currentPage := rfl
@[simp] theorem advanceDraws_cursor (n : Nat) (s : State) : (s.advanceDraws n).cursor = s.cursor := rfl
@[simp] theorem advanceDraws_buf (n : Nat) (s : State) : (s.advanceDraws n).buf = s.buf := rfl
@[simp] theorem advanceDraws_timeoutEnabled (n : Nat) (s : State) : (s.advanceDraws n).timeoutEnabled = s.timeoutEnabled := rfl
@[simp] theorem advanceDraws_timer (n : Nat) (s : State) : (s.advanceDraws n).timer = s.timer := rfl
@[simp] theorem advanceDraws_flashUnlocked (n : Nat) (s : State) : (s.advanceDraws n).flashUnlocked = s.flashUnlocked := rfl
@[simp] theorem advanceDraws_fault (n : Nat) (s : State) : (s.advanceDraws n).fault = s.fault := rfl
@[simp] theorem advanceDraws_magic (n : Nat) (s : State) : (s.advanceDraws n).magic = s.magic := rfl
@[simp] theorem advanceDraws_mem (n : Nat) (s : State) : (s.advanceDraws n).mem = s.mem := rfl
@[simp] theorem advanceDraws_rxQueue (n : Nat) (s : State) : (s.advanceDraws n).rxQueue = s.rxQueue := rfl
@[simp] theorem advanceDraws_tx (n : Nat) (s : State) : (s.advanceDraws n).tx = s.tx := rfl
@[simp] theorem advanceDraws_jumpApp (n : Nat) (s : State) : (s.advanceDraws n).jumpApp = s.jumpApp := rfl
@[simp] theorem advanceDraws_sysResetReq (n : Nat) (s : State) : (s.advanceDraws n).sysResetReq = s.sysResetReq := rfl
@[simp] theorem advanceDraws_sched (n : Nat) (s : State) : (s.advanceDraws n).sched = s.sched := rfl
@[simp] theorem advanceDraws_draws (n : Nat) (s : State) : (s.advanceDraws n).draws = s.draws + n := rfl

@[simp] theorem appendTx_cfg (f : Frame) (o : TxOutcome) (s : State) : (s.appendTx f o).cfg = s.cfg := rfl
@[simp] theorem appendTx_phase (f : Frame) (o : TxOutcome) (s : State) : (s.appendTx f o).phase = s.phase := rfl
@[simp] theorem appendTx_programmingMode (f : Frame) (o : TxOutcome) (s : State) : (s.appendTx f o).programmingMode = s.programmingMode := rfl
@[simp] theorem appendTx_currentPage (f : Frame) (o : TxOutcome) (s : State) : (s.appendTx f o).currentPage = s.currentPage := rfl
@[simp] theorem appendTx_cursor (f : Frame) (o : TxOutcome) (s : State) : (s.appendTx f o).cursor = s.cursor := rfl
@[simp] theorem appendTx_buf (f : Frame) (o : TxOutcome) (s : State) : (s.appendTx f o).buf = s.buf := rfl
@[simp] theorem appendTx_timeoutEnabled (f : Frame) (o : TxOutcome) (s : State) : (s.appendTx f o).timeoutEnabled = s.timeoutEnabled := rfl
@[simp] theorem appendTx_timer (f : Frame) (o : TxOutcome) (s : State) : (s.appendTx f o).timer = s.timer := rfl
@[simp] theorem appendTx_flashUnlocked (f : Frame) (o : TxOutcome) (s : State) : (s.appendTx f o).flashUnlocked = s.flashUnlocked := rfl
@[simp] theorem appendTx_fault (f : Frame) (o : TxOutcome) (s : State) : (s.appendTx f o).fault = s.fault := rfl
@[simp] theorem appendTx_magic (f : Frame) (o : TxOutcome) (s : State) : (s.appendTx f o).magic = s.magic := rfl
@[simp] theorem appendTx_mem (f : Frame) (o : TxOutcome) (s : State) : (s.appendTx f o).mem = s.mem := rfl
@[simp] theorem appendTx_rxQueue (f : Frame) (o : TxOutcome) (s : State) : (s.appendTx f o).rxQueue = s.rxQueue := rfl
@[simp] theorem appendTx_tx (f : Frame) (o : TxOutcome) (s : State) : (s.appendTx f o).tx = s.tx ++ [(f, o)] := rfl
@[simp] theorem appendTx_jumpApp (f : Frame) (o : TxOutcome) (s : State) : (s.appendTx f o).jumpApp = s.jumpApp := rfl
@[simp] theorem appendTx_sysResetReq (f : Frame) (o : TxOutcome) (s : State) : (s.appendTx f o).sysResetReq = s.sysResetReq := rfl
@[simp] theorem appendTx_sched (f : Frame) (o : TxOutcome) (s : State) : (s.appendTx f o).sched = s.sched := rfl
@[simp] theorem appendTx_draws (f : Frame) (o : TxOutcome) (s : State) : (s.appendTx f o).draws = s.draws := rfl

@[simp] theorem setRxQueue_cfg (v : List Frame) (s : State) : (s.setRxQueue v).cfg = s.cfg := rfl
@[simp] theorem setRxQueue_phase (v : List Frame) (s : State) : (s.setRxQueue v).phase = s.phase := rfl
@[simp] theorem setRxQueue_programmingMode (v : List Frame) (s : State) : (s.setRxQueue v).programmingMode = s.programmingMode := rfl
@[simp] theorem setRxQueue_currentPage (v : List Frame) (s : State) : (s.setRxQueue v).currentPage = s.currentPage := rfl
@[simp] theorem setRxQueue_cursor (v : List Frame) (s : State) : (s.setRxQueue v).cursor = s.cursor := rfl
@[simp] theorem setRxQueue_buf (v : List Frame) (s : State) : (s.setRxQueue v).buf = s.buf := rfl
@[simp] theorem setRxQueue_timeoutEnabled (v : List Frame) (s : State) : (s.setRxQueue v).timeoutEnabled = s.timeoutEnabled := rfl
@[simp] theorem setRxQueue_timer (v : List Frame) (s : State) : (s.setRxQueue v).timer = s.timer := rfl
@[simp] theorem setRxQueue_flashUnlocked (v : List Frame) (s : State) : (s.setRxQueue v).flashUnlocked = s.flashUnlocked := rfl
@[simp] theorem setRxQueue_fault (v : List Frame) (s : State) : (s.setRxQueue v).fault = s.fault := rfl
@[simp] theorem setRxQueue_magic (v : List Frame) (s : State) : (s.setRxQueue v).magic = s.magic := rfl
@[simp] theorem setRxQueue_mem (v : List Frame) (s : State) : (s.setRxQueue v).mem = s.mem := rfl
@[simp] theorem setRxQueue_rxQueue (v : List Frame) (s : State) : (s.setRxQueue v).rxQueue = v := rfl
@[simp] theorem setRxQueue_tx (v : List Frame) (s : State) : (s.setRxQueue v).tx = s.tx := rfl
@[simp] theorem setRxQueue_jumpApp (v : List Frame) (s : State) : (s.setRxQueue v).jumpApp = s.jumpApp := rfl
@[simp] theorem setRxQueue_sysResetReq (v : List Frame) (s : State) : (s.setRxQueue v).sysResetReq = s.sysResetReq := rfl
@[simp] theorem setRxQueue_sched (v : List Frame) (s : State) : (s.setRxQueue v).sched = s.sched := rfl
@[simp] theorem setRxQueue_draws (v : List Frame) (s : State) : (s.setRxQueue v).draws = s.draws := rfl

@[simp] theorem setSched_cfg (v : List Event) (s : State) : (s.setSched v).cfg = s.cfg := rfl
@[simp] theorem setSched_phase (v : List Event) (s : State) : (s.setSched v).phase = s.phase := rfl
@[simp] theorem setSched_programmingMode (v : List Event) (s : State) : (s.setSched v).programmingMode = s.programmingMode := rfl
@[simp] theorem setSched_currentPage (v : List Event) (s : State) : (s.setSched v).currentPage = s.currentPage := rfl
@[simp] theorem setSched_cursor (v : List Event) (s : State) : (s.setSched v).cursor = s.cursor := rfl
@[simp] theorem setSched_buf (v : List Event) (s : State) : (s.setSched v).buf = s.buf := rfl
@[simp] theorem setSched_timeoutEnabled (v : List Event) (s : State) : (s.setSched v).timeoutEnabled = s.timeoutEnabled := rfl
@[simp] theorem setSched_timer (v : List Event) (s : State) : (s.setSched v).timer = s.timer := rfl
@[simp] theorem setSched_flashUnlocked (v : List Event) (s : State) : (s.setSched v).flashUnlocked = s.flashUnlocked := rfl
@[simp] theorem setSched_fault (v : List Event) (s : State) : (s.setSched v).fault = s.fault := rfl
@[simp] theorem setSched_magic (v : List Event) (s : State) : (s.setSched v).magic = s.magic := rfl
@[simp] theorem setSched_mem (v : List Event) (s : State) : (s.setSched v).mem = s.mem := rfl
@[simp] theorem setSched_rxQueue (v : List Event) (s : State) : (s.setSched v).rxQueue = s.rxQueue := rfl
@[simp] theorem setSched_tx (v : List Event) (s : State) : (s.setSched v).tx = s.tx := rfl
@[simp] theorem setSched_jumpApp (v : List Event) (s : State) : (s.setSched v).jumpApp = s.jumpApp := rfl
@[simp] theorem setSched_sysResetReq (v : List Event) (s : State) : (s.setSched v).sysResetReq = s.sysResetReq := rfl
@[simp] theorem setSched_sched (v : List Event) (s : State) : (s.setSched v).sched = v := rfl
@[simp] theorem setSched_draws (v : List Event) (s : State) : (s.setSched v).draws = s.draws := rfl

@[simp] theorem clearOutputs_cfg (s : State) : (s.clearOutputs).cfg = s.cfg := rfl
@[simp] theorem clearOutputs_phase (s : State) : (s.clearOutputs).phase = s.phase := rfl
@[simp] theorem clearOutputs_programmingMode (s : State) : (s.clearOutputs).programmingMode = s.programmingMode := rfl
@[simp] theorem clearOutputs_currentPage (s : State) : (s.clearOutputs).currentPage = s.currentPage := rfl
@[simp] theorem clearOutputs_cursor (s : State) : (s.clearOutputs).cursor = s.cursor := rfl
@[simp] theorem clearOutputs_buf (s : State) : (s.clearOutputs).buf = s.buf := rfl
@[simp] theorem clearOutputs_timeoutEnabled (s : State) : (s.clearOutputs).timeoutEnabled = s.timeoutEnabled := rfl
@[simp] theorem clearOutputs_timer (s : State) : (s.clearOutputs).timer = s.timer := rfl
@[simp] theorem clearOutputs_flashUnlocked (s : State) : (s.clearOutputs).flashUnlocked = s.flashUnlocked := rfl
@[simp] theorem clearOutputs_fault (s : State) : (s.clearOutputs).fault = s.fault := rfl
@[simp] theorem clearOutputs_magic (s : State) : (s.clearOutputs).magic = s.magic := rfl
@[simp] theorem clearOutputs_mem (s : State) : (s.clearOutputs).mem = s.mem := rfl
@[simp] theorem clearOutputs_rxQueue (s : State) : (s.clearOutputs).rxQueue = s.rxQueue := rfl
@[simp] theorem clearOutputs_tx (s : State) : (s.clearOutputs).tx = [] := rfl
@[simp] theorem clearOutputs_jumpApp (s : State) : (s.clearOutputs).jumpApp = false := rfl
@[simp] theorem clearOutputs_sysResetReq (s : State) : (s.clearOutputs).sysResetReq = false := rfl
@[simp] theorem clearOutputs_sched (s : State) : (s.clearOutputs).sched = s.sched := rfl
@[simp] theorem clearOutputs_draws (s : State) : (s.clearOutputs).draws = s.draws := rfl

end Sys2Proof.Machine.State
end

