-- ==== Sys2Proof/Laws/Ops.lean ====
section
/-! SUPPORT. What each shared operation can do, said once: the fields no action writes, a run of actions (its inversion, its
frame and its invariants), the flash primitives, send, the resets. -/

namespace Sys2Proof.Machine

open Sys2Proof

/-! ### Runs -/

@[simp] theorem run_nil (s : State) : run [] s = s := rfl

theorem run_cons {a : Action} {as : List Action} {s : State} (h : s.phase ≠ .fault) :
    run (a :: as) s = run as (perform a s) := by simp [run, h]

/-- FAULT is absorbing (R24): nothing runs in it. -/
theorem run_of_fault {s : State} (h : s.phase = .fault) (as : List Action) : run as s = s := by
  cases as with
  | nil => rfl
  | cons a as => simp [run, h]

theorem run_append (as bs : List Action) (s : State) : run (as ++ bs) s = run bs (run as s) := by
  induction as generalizing s with
  | nil => rfl
  | cons a as ih =>
    by_cases h : s.phase = .fault
    · rw [run_of_fault h, run_of_fault h, run_of_fault h]
    · rw [List.cons_append, run_cons h, run_cons h, ih]

/-- An invariant of every action of a run is an invariant of the run. -/
theorem run_invariant {P : State → Prop} {as : List Action} (h : ∀ a ∈ as, ∀ s, P s → P (perform a s)) {s : State}
    (hs : P s) : P (run as s) := by
  induction as generalizing s with
  | nil => exact hs
  | cons a as ih =>
    by_cases hf : s.phase = .fault
    · rwa [run_of_fault hf]
    · rw [run_cons hf]
      exact ih (fun b hb => h b (List.mem_cons_of_mem _ hb)) (h a List.mem_cons_self s hs)

/-- What no action of a run changes, the run does not change. -/
theorem run_frame {α : Type} (f : State → α) {as : List Action} (h : ∀ a ∈ as, ∀ s, f (perform a s) = f s) (s : State) :
    f (run as s) = f s :=
  run_invariant (P := fun t => f t = f s) (fun a ha t ht => (h a ha t).trans ht) rfl

/-! ### The shared operations, by cases -/

/-- `buf[i] <- v`: the entry is written, or the model's own fault is raised. -/
theorem writeBuf_cases (i : Nat) (v : Word) (s : State) :
    (i < s.buf.length ∧ writeBuf i v s = s.setBuf (s.buf.set i v)) ∨
    (s.buf.length ≤ i ∧ writeBuf i v s = s.raiseFault (.outsideBuffer i)) := by
  unfold writeBuf
  split
  next h => exact .inl ⟨h, rfl⟩
  next h => exact .inr ⟨by omega, rfl⟩

/-- `EraseSector`: a fault, or 0xFF bytes in the whole sector, or draws in it. -/
theorem eraseSector_cases (sid : Nat) (s : State) :
    (∃ r, eraseSector sid s = s.raiseFault r) ∨
    (s.flashUnlocked = true ∧ sectorInRegion s.cfg sid = true ∧ s.cfg.flashReliable = true ∧
      eraseSector sid s =
        s.setMem (s.mem.write (sectorAddress s.cfg sid) (List.replicate s.cfg.sectorBytes 0xFF))) ∨
    (s.flashUnlocked = true ∧ sectorInRegion s.cfg sid = true ∧ s.cfg.flashReliable = false ∧
      eraseSector sid s = scramble (sectorAddress s.cfg sid) (s.cfg.sectorBytes / 2) s) := by
  unfold eraseSector
  split
  next => exact .inl ⟨_, rfl⟩
  next h1 =>
    split
    next => exact .inl ⟨_, rfl⟩
    next h2 =>
      have h1' : s.flashUnlocked = true := by simpa using h1
      have h2' : sectorInRegion s.cfg sid = true := by simpa using h2
      split
      next h3 => exact .inr (.inl ⟨h1', h2', h3, rfl⟩)
      next h3 => exact .inr (.inr ⟨h1', h2', by simpa using h3, rfl⟩)

/-- `MemWrite`: a fault, or the value on an erased halfword, or a draw. -/
theorem memWrite_cases (a : Nat) (v : Word) (s : State) :
    (∃ r, memWrite a v s = s.raiseFault r) ∨
    (s.flashUnlocked = true ∧ halfInRegion s.cfg a = true ∧ s.cfg.flashReliable = true ∧ s.mem.readHalf a = 0xFFFF ∧
      memWrite a v s = s.setMem (s.mem.writeHalf a v)) ∨
    (s.flashUnlocked = true ∧ halfInRegion s.cfg a = true ∧
      ¬ (s.cfg.flashReliable = true ∧ s.mem.readHalf a = 0xFFFF) ∧ memWrite a v s = scramble a 1 s) := by
  unfold memWrite
  split
  next => exact .inl ⟨_, rfl⟩
  next h1 =>
    split
    next => exact .inl ⟨_, rfl⟩
    next h2 =>
      have h1' : s.flashUnlocked = true := by simpa using h1
      have h2' : halfInRegion s.cfg a = true := by simpa using h2
      split
      next h3 => exact .inr (.inl ⟨h1', h2', h3.1, h3.2, rfl⟩)
      next h3 => exact .inr (.inr ⟨h1', h2', h3, rfl⟩)

/-- `send` of at most four words offers one frame and draws its outcome (R95, R96). -/
theorem send_of_le {ws : List Word} (h : ws.length ≤ 4) (s : State) :
    send ws s = (s.appendTx (frameOf s.cfg ws) (txOutcome s.draws)).advanceDraws 1 := by
  simp [send, show ¬ ws.length > 4 by omega]

/-- Every push has at most four words (R61, R97). -/
theorem send_cases (ws : List Word) (s : State) :
    send ws s = s ∨ send ws s = (s.appendTx (frameOf s.cfg ws) (txOutcome s.draws)).advanceDraws 1 := by
  by_cases h : ws.length ≤ 4
  · exact .inr (send_of_le h s)
  · left; simp [send, show ws.length > 4 by omega]

@[simp] theorem sendDrawn_eq (s : State) :
    sendDrawn s =
      ((s.advanceDraws 2).appendTx
        (frameOf s.cfg [s.cfg.opPageDataRead, Config.freeWord s.draws, Config.freeWord (s.draws + 1)])
        (txOutcome (s.draws + 2))).advanceDraws 1 := by
  simp [sendDrawn, send]

/-! ### What no action writes -/

theorem scramble_cfg (a n : Nat) (s : State) : (scramble a n s).cfg = s.cfg := rfl

@[simp] theorem perform_cfg (a : Action) (s : State) : (perform a s).cfg = s.cfg := by
  cases a <;> simp only [perform, sendDrawn_eq] <;> try rfl
  case setBuf i v => rcases writeBuf_cases i v s with ⟨_, h⟩ | ⟨_, h⟩ <;> (rw [h]; rfl)
  case eraseSector sid => rcases eraseSector_cases sid s with ⟨_, h⟩ | ⟨_, _, _, h⟩ | ⟨_, _, _, h⟩ <;> (rw [h]; rfl)
  case memWrite i v => rcases memWrite_cases i v s with ⟨_, h⟩ | ⟨_, _, _, _, h⟩ | ⟨_, _, _, h⟩ <;> (rw [h]; rfl)
  case send ws => rcases send_cases ws s with h | h <;> simp [h]

@[simp] theorem perform_rxQueue (a : Action) (s : State) : (perform a s).rxQueue = s.rxQueue := by
  cases a <;> simp only [perform, sendDrawn_eq] <;> try rfl
  case setBuf i v => rcases writeBuf_cases i v s with ⟨_, h⟩ | ⟨_, h⟩ <;> (rw [h]; rfl)
  case eraseSector sid => rcases eraseSector_cases sid s with ⟨_, h⟩ | ⟨_, _, _, h⟩ | ⟨_, _, _, h⟩ <;> (rw [h]; rfl)
  case memWrite i v => rcases memWrite_cases i v s with ⟨_, h⟩ | ⟨_, _, _, _, h⟩ | ⟨_, _, _, h⟩ <;> (rw [h]; rfl)
  case send ws => rcases send_cases ws s with h | h <;> simp [h]

@[simp] theorem perform_sched (a : Action) (s : State) : (perform a s).sched = s.sched := by
  cases a <;> simp only [perform, sendDrawn_eq] <;> try rfl
  case setBuf i v => rcases writeBuf_cases i v s with ⟨_, h⟩ | ⟨_, h⟩ <;> (rw [h]; rfl)
  case eraseSector sid => rcases eraseSector_cases sid s with ⟨_, h⟩ | ⟨_, _, _, h⟩ | ⟨_, _, _, h⟩ <;> (rw [h]; rfl)
  case memWrite i v => rcases memWrite_cases i v s with ⟨_, h⟩ | ⟨_, _, _, _, h⟩ | ⟨_, _, _, h⟩ <;> (rw [h]; rfl)
  case send ws => rcases send_cases ws s with h | h <;> simp [h]

@[simp] theorem run_cfg (as : List Action) (s : State) : (run as s).cfg = s.cfg :=
  run_frame State.cfg (fun a _ t => perform_cfg a t) s

@[simp] theorem run_rxQueue (as : List Action) (s : State) : (run as s).rxQueue = s.rxQueue :=
  run_frame State.rxQueue (fun a _ t => perform_rxQueue a t) s

@[simp] theorem run_sched (as : List Action) (s : State) : (run as s).sched = s.sched :=
  run_frame State.sched (fun a _ t => perform_sched a t) s

/-- An action that stores to flash: an erase or a program. -/
def Action.stores : Action → Bool
  | .eraseSector _ => true
  | .memWrite _ _ => true
  | _ => false

/-- Only an erase or a program changes flash (R40). -/
theorem perform_mem {a : Action} (h : a.stores = false) (s : State) : (perform a s).mem = s.mem := by
  cases a <;> simp only [perform, sendDrawn_eq] <;> first | rfl | skip
  case setBuf i v => rcases writeBuf_cases i v s with ⟨_, h⟩ | ⟨_, h⟩ <;> (rw [h]; rfl)
  case eraseSector sid => simp [Action.stores] at h
  case memWrite i v => simp [Action.stores] at h
  case send ws => rcases send_cases ws s with h | h <;> simp [h]

/-- A run without erase or program leaves flash alone. -/
theorem run_mem {as : List Action} (h : ∀ a ∈ as, a.stores = false) (s : State) : (run as s).mem = s.mem :=
  run_frame State.mem (fun a ha t => perform_mem (h a ha) t) s

/-! ### Sends in a row -/

/-- A run of sends: the frames are appended in order, each with its outcome draw, and nothing else changes (R95, R96). -/
theorem run_sends (wss : List (List Word)) (h : ∀ ws ∈ wss, ws.length ≤ 4) (s : State) (hp : s.phase ≠ .fault) :
    run (wss.map .send) s = sent wss s := by
  induction wss generalizing s with
  | nil => simp [sent]
  | cons ws wss ih =>
    have hp' : ((s.appendTx (frameOf s.cfg ws) (txOutcome s.draws)).advanceDraws 1).phase ≠ .fault := hp
    rw [List.map_cons, run_cons hp, perform, send_of_le (h ws List.mem_cons_self),
      ih (fun w hw => h w (List.mem_cons_of_mem _ hw)) _ hp']
    simp [sent, State.advanceDraws, State.appendTx, List.mapIdx_cons, Nat.add_assoc, Nat.add_comm 1]

/-! ### Programming a page -/

/-- Where flash is unlocked and reliable and the halfword erased, a program stores its value (R84). -/
theorem memWrite_of_erased {a : Nat} {v : Word} {s : State} (hu : s.flashUnlocked = true)
    (hr : halfInRegion s.cfg a = true) (hf : s.cfg.flashReliable = true) (he : s.mem.readHalf a = 0xFFFF) :
    memWrite a v s = s.setMem (s.mem.writeHalf a v) := by
  simp [memWrite, hu, hr, hf, he]

/-- A program changes no byte outside its halfword. -/
theorem memWrite_outside (a : Nat) (v : Word) (s : State) (x : Nat) (h : x < a ∨ a + 2 ≤ x) :
    (memWrite a v s).mem.get? x = s.mem.get? x := by
  rcases memWrite_cases a v s with ⟨_, e⟩ | ⟨_, _, _, _, e⟩ | ⟨_, _, _, e⟩ <;> rw [e]
  · rfl
  · exact Memory.get?_write_outside _ _ _ _ (by simpa using h)
  · exact Memory.get?_write_outside _ _ _ _ (by simpa [drawnBytes] using h)

/-- An erase changes no byte outside its sector. -/
theorem eraseSector_outside (s : State) (sid x : Nat)
    (h : x < sectorAddress s.cfg sid ∨ sectorAddress s.cfg sid + s.cfg.sectorBytes ≤ x) :
    (eraseSector sid s).mem.get? x = s.mem.get? x := by
  have he := Config.Admissible.sectorBytesEven (c := s.cfg)
  rcases eraseSector_cases sid s with ⟨_, e⟩ | ⟨_, _, _, e⟩ | ⟨_, _, _, e⟩ <;> rw [e]
  · rfl
  · exact Memory.get?_write_outside _ _ _ _ (by simpa using h)
  · refine Memory.get?_write_outside _ _ _ _ ?_
    simp only [drawnBytes, length_packWords, List.length_map, List.length_range]
    omega

/-! ### The resets -/

@[simp] theorem resetSession_phase (s : State) : (resetSession s).phase = .boot := rfl
@[simp] theorem resetSession_mem (s : State) : (resetSession s).mem = s.mem := rfl
@[simp] theorem resetSession_magic (s : State) : (resetSession s).magic = s.magic := rfl
@[simp] theorem resetSession_cfg (s : State) : (resetSession s).cfg = s.cfg := rfl
@[simp] theorem resetSession_tx (s : State) : (resetSession s).tx = s.tx := rfl
@[simp] theorem resetSession_rxQueue (s : State) : (resetSession s).rxQueue = s.rxQueue := rfl
@[simp] theorem resetSession_sched (s : State) : (resetSession s).sched = s.sched := rfl

/-- `PowerOn` writes the latch and nothing else but the count of draws (R33). -/
theorem powerOnMagic_cases (s : State) :
    (s.cfg.magicPor = .cleared ∧ powerOnMagic s = s.setMagic s.cfg.magicClear) ∨
    (s.cfg.magicPor = .arbitrary ∧
      powerOnMagic s = (s.setMagic (Config.freeMagic s.draws)).advanceDraws 1) := by
  unfold powerOnMagic
  cases h : s.cfg.magicPor
  · exact .inl ⟨rfl, rfl⟩
  · exact .inr ⟨rfl, rfl⟩

/-- No reset changes flash (R32). -/
@[simp] theorem applyReset_mem (k : ResetKind) (s : State) : (applyReset k s).mem = s.mem := by
  cases k
  · rcases powerOnMagic_cases s with ⟨_, h⟩ | ⟨_, h⟩ <;> simp [applyReset, h]
  · rfl

@[simp] theorem applyReset_cfg (k : ResetKind) (s : State) : (applyReset k s).cfg = s.cfg := by
  cases k
  · rcases powerOnMagic_cases s with ⟨_, h⟩ | ⟨_, h⟩ <;> simp [applyReset, h]
  · rfl

@[simp] theorem applyReset_phase (k : ResetKind) (s : State) : (applyReset k s).phase = .boot := by
  cases k <;> rfl

end Sys2Proof.Machine
end

