-- ==== Sys2Proof/Laws/Flash.lean ====
section
/-! SUPPORT. Flash under the shared operations: every one keeps the canonical form and stays in the region, and programming a
page of erased halfwords stores its words in order. -/

namespace Sys2Proof.Machine

open Sys2Proof

/-- The flash is in canonical form and lists only addresses of the region. -/
def MemOk (s : State) : Prop :=
  Memory.wf s.mem ∧ ∀ c ∈ s.mem, s.cfg.flashBase ≤ c.1 ∧ c.1 < s.cfg.flashEnd

theorem MemOk.write {s : State} (h : MemOk s) {a : Nat} {bs : List Byte} (h1 : s.cfg.flashBase ≤ a)
    (h2 : a + bs.length ≤ s.cfg.flashEnd) : MemOk (s.setMem (s.mem.write a bs)) := by
  refine ⟨Memory.wf_write h.1 a bs, fun c hc => ?_⟩
  rcases Memory.mem_write hc with hc | hc
  · exact h.2 c hc
  · simp only [State.setMem_cfg]; omega

theorem MemOk.congr {s t : State} (h : MemOk s) (hm : t.mem = s.mem) (hc : t.cfg = s.cfg) : MemOk t := by
  unfold MemOk at *
  rwa [hm, hc]

@[simp] theorem length_drawnBytes (d n : Nat) : (drawnBytes d n).length = 2 * n := by simp [drawnBytes]

theorem MemOk.scramble {s : State} (h : MemOk s) {a n : Nat} (h1 : s.cfg.flashBase ≤ a)
    (h2 : a + 2 * n ≤ s.cfg.flashEnd) : MemOk (scramble a n s) :=
  (h.write (bs := drawnBytes s.draws n) h1 (by simpa using h2)).congr rfl rfl

theorem MemOk.memWrite {s : State} (h : MemOk s) (a : Nat) (v : Word) : MemOk (memWrite a v s) := by
  rcases memWrite_cases a v s with ⟨r, e⟩ | ⟨_, hr, _, _, e⟩ | ⟨_, hr, _, e⟩ <;> rw [e]
  · exact h.congr rfl rfl
  all_goals simp only [halfInRegion, decide_eq_true_eq] at hr
  · exact h.write hr.2.1 (by simpa using hr.2.2)
  · exact h.scramble hr.2.1 (by omega)

theorem MemOk.eraseSector {s : State} (h : MemOk s) (hc : s.cfg.Admissible) (sid : Nat) : MemOk (eraseSector sid s) := by
  have he := Config.Admissible.sectorBytesEven (c := s.cfg)
  rcases eraseSector_cases sid s with ⟨r, e⟩ | ⟨_, hr, _, e⟩ | ⟨_, hr, _, e⟩ <;> rw [e]
  · exact h.congr rfl rfl
  all_goals have hb := sector_bounds hc hr
  · exact h.write hb.1 (by simpa using hb.2)
  · exact h.scramble hb.1 (by omega)

/-- Every action keeps the flash's canonical form, inside the region. -/
theorem MemOk.perform {s : State} (h : MemOk s) (hc : s.cfg.Admissible) (a : Action) : MemOk (perform a s) := by
  by_cases ha : a.stores = false
  · exact h.congr (perform_mem ha s) (perform_cfg a s)
  · cases a <;> first | exact absurd rfl ha | skip
    · exact h.eraseSector hc _
    · exact h.memWrite _ _

/-- Every run keeps the flash's canonical form, inside the region. -/
theorem MemOk.run {s : State} (h : MemOk s) (hc : s.cfg.Admissible) (as : List Action) : MemOk (run as s) :=
  (run_invariant (P := fun t => MemOk t ∧ t.cfg.Admissible)
    (fun a _ t ht => ⟨ht.1.perform ht.2 a, by rw [perform_cfg]; exact ht.2⟩) ⟨h, hc⟩).1

/-- A torn action keeps it too (R158.3). -/
theorem MemOk.tear {s : State} (h : MemOk s) (hc : s.cfg.Admissible) (a : Action) : MemOk (tear a s) := by
  have he := Config.Admissible.sectorBytesEven (c := s.cfg)
  unfold Machine.tear
  split
  · split
    next hr =>
      have hb := sector_bounds hc hr.2
      exact h.scramble hb.1 (by omega)
    next => exact h
  · split
    next hr =>
      have hr' := hr.2
      simp only [halfInRegion, decide_eq_true_eq] at hr'
      exact h.scramble hr'.2.1 (by omega)
    next => exact h
  · exact h

/-- No action changes a byte outside the region (R44). -/
theorem perform_outside_region (a : Action) (s : State) (hc : s.cfg.Admissible) (x : Nat)
    (hx : x < s.cfg.flashBase ∨ s.cfg.flashEnd ≤ x) : (perform a s).mem.get? x = s.mem.get? x := by
  by_cases ha : a.stores = false
  · rw [perform_mem ha]
  · cases a <;> first | exact absurd rfl ha | skip
    case neg.eraseSector sid =>
      rcases eraseSector_cases sid s with ⟨r, e⟩ | ⟨_, hr, _, _⟩ | ⟨_, hr, _, _⟩
      · rw [perform, e]; rfl
      all_goals
        have hb := sector_bounds hc hr
        exact eraseSector_outside s sid x (by omega)
    case neg.memWrite addr v =>
      rcases memWrite_cases addr v s with ⟨r, e⟩ | ⟨_, hr, _, _, _⟩ | ⟨_, hr, _, _⟩
      · rw [perform, e]; rfl
      all_goals
        simp only [halfInRegion, decide_eq_true_eq] at hr
        exact memWrite_outside addr v s x (by omega)

/-- No run changes a byte outside the region (R44). -/
theorem run_outside_region (as : List Action) (s : State) (hc : s.cfg.Admissible) (x : Nat)
    (hx : x < s.cfg.flashBase ∨ s.cfg.flashEnd ≤ x) : (run as s).mem.get? x = s.mem.get? x :=
  (run_invariant (P := fun t => t.mem.get? x = s.mem.get? x ∧ t.cfg = s.cfg)
    (fun a _ t ht => ⟨(perform_outside_region a t (by rw [ht.2]; exact hc) x (by rw [ht.2]; exact hx)).trans ht.1,
      (perform_cfg a t).trans ht.2⟩) ⟨rfl, rfl⟩).1

theorem packWords_append (vs ws : List Word) : packWords (vs ++ ws) = packWords vs ++ packWords ws := by
  induction vs with
  | nil => rfl
  | cons v vs ih => simp [packWords, ih]

/-- Programming erased halfwords of a page, in ascending order, stores the words in order (R84, R86). -/
theorem run_program {s : State} (hc : s.cfg.Admissible) (hm : Memory.wf s.mem) (hp : s.phase ≠ .fault)
    (hu : s.flashUnlocked = true) (hf : s.cfg.flashReliable = true) {p : Nat} (hpage : p < s.cfg.availablePages)
    (ws : List Word) (hlen : ws.length ≤ s.cfg.pageWords)
    (he : ∀ i, i < ws.length → s.mem.readHalf (pageAddress s.cfg p i) = 0xFFFF) :
    run (ws.mapIdx fun i v => .memWrite (pageAddress s.cfg p i) v) s =
      s.setMem (s.mem.write (pageAddress s.cfg p 0) (packWords ws)) := by
  induction ws using List.reverseRecOn with
  | nil =>
    have h := Memory.write_nil hm (pageAddress s.cfg p 0)
    simp only [List.mapIdx_nil, run_nil, packWords, h]
    rfl
  | append_singleton ws w ih =>
    simp only [List.length_append, List.length_cons, List.length_nil] at hlen he
    have ih := ih (by omega) (fun i hi => he i (by omega))
    have ha : pageAddress s.cfg p ws.length = pageAddress s.cfg p 0 + (packWords ws).length := by
      simp [pageAddress]
    have hr : Memory.readHalf (s.mem.write (pageAddress s.cfg p 0) (packWords ws)) (pageAddress s.cfg p ws.length)
        = 0xFFFF := by
      rw [Memory.readHalf_write_outside _ _ _ _ (by omega)]
      exact he _ (by omega)
    rw [List.mapIdx_append, run_append, ih]
    simp only [List.mapIdx_cons, List.mapIdx_nil, Nat.zero_add]
    have hp' : (s.setMem (s.mem.write (pageAddress s.cfg p 0) (packWords ws))).phase ≠ .fault := hp
    have hin := pageAddress_inRegion hc hpage (show ws.length < s.cfg.pageWords by omega)
    rw [run_cons hp', run_nil, perform, memWrite_of_erased (by exact hu) (by exact hin) (by exact hf) (by exact hr),
      packWords_append]
    simp only [State.setMem, Memory.writeHalf, packWords, ha, Memory.write_write]

end Sys2Proof.Machine
end

