-- ==== Sys2Proof/Laws/Step.lean ====
section
/-! SUPPORT. What one step of the machine can do, said once: `StepCase` and the inversion of `step`; every instruction is the
run of its actions. -/

namespace Sys2Proof.Machine

open Sys2Proof

/-- Every instruction is the run of its actions (R8), but for the status that is never sent (R70). -/
theorem exec_eq_run {i : Instr} (h : i ≠ .pushAck .programFailed) (s : State) :
    exec i s = .next (run (instrActions i s) s) := by
  cases i with
  | pushAck st => exact if_neg fun e => h (by rw [e])
  | _ => rfl

/-- A command is the run of its actions (R8). -/
theorem exec_command_eq_run {i : Instr} (h : i.isCommand = true) (s : State) :
    exec i s = .next (run (instrActions i s) s) :=
  exec_eq_run (fun e => by subst e; exact absurd h (by decide)) s

/-- A whole step of the block is the run of its actions (R158.1). -/
theorem blockStep_eq_run {e : BlockEvent} {s : State} (h : eventRefusal e s = none) :
    blockStep e s = .next (run (eventActions e s) (stepStart e s)) := by
  cases e with
  | boot => rfl
  | init => rfl
  | tick => rfl
  | rx =>
    simp only [blockStep, eventActions, stepStart]
    cases hq : s.rxQueue with
    | nil =>
      have : takeFrame s = s := by cases s; simp only at hq; subst hq; rfl
      simp [this]
    | cons f q =>
      simp only [rxStep, rxActions]
      split
      · rfl
      · split
        next hd => exact exec_command_eq_run (isCommand_of_decodeCommand hd) _
        · rfl

/-- What a step that answers a next state did, on the state `u` it started from. -/
inductive StepCase (s : State) : State → Prop where
  /-- nothing: an idle poll, or an event that is not enabled -/
  | idle {u : State} (hu : u = s.clearOutputs ∨ ∃ e rest, s.sched = e :: rest ∧ u = s.clearOutputs.setSched rest) :
      StepCase s u
  /-- a reset between steps -/
  | reset {k : ResetKind} {rest : List Event} (hs : s.sched = .reset k :: rest) :
      StepCase s (applyReset k (s.clearOutputs.setSched rest))
  /-- an internal step that waits for no event -/
  | internal {e : BlockEvent} (he : e = .boot ∧ s.phase = .boot ∨ e = .init ∧ s.phase = .init) :
      StepCase s (run (eventActions e s.clearOutputs) s.clearOutputs)
  /-- a scheduled step of the block -/
  | block {e : BlockEvent} {rest : List Event} (hs : s.sched = .block e :: rest) (he : blockEnabled e s = true)
      (hr : eventRefusal e s = none) :
      StepCase s (run (eventActions e (s.clearOutputs.setSched rest)) (stepStart e (s.clearOutputs.setSched rest)))
  /-- a step of the block cut by a reset -/
  | cut {e : BlockEvent} {n : Nat} {torn : Bool} {k : ResetKind} {rest : List Event}
      (hs : s.sched = .cut e n torn k :: rest) (he : blockEnabled e s = true) (hr : eventRefusal e s = none) :
      StepCase s (cutStep e n torn k (s.clearOutputs.setSched rest))
  /-- the CAN controller takes a frame -/
  | arrive {f : Frame} {rest : List Event} (hs : s.sched = .arrive f :: rest) :
      StepCase s ((s.clearOutputs.setSched rest).setRxQueue (s.rxQueue ++ [f]))
  /-- the CAN controller loses a frame -/
  | lose {i : Nat} {rest : List Event} (hs : s.sched = .lose i :: rest) :
      StepCase s ((s.clearOutputs.setSched rest).setRxQueue (s.rxQueue.eraseIdx i))

theorem internalStep_cases {s t : State} (h : internalStep s.clearOutputs = .next t) : StepCase s t := by
  unfold internalStep at h
  simp only [State.clearOutputs_phase] at h
  split at h
  · next hp => injection h with h; rw [← h]; exact .internal (.inl ⟨rfl, hp⟩)
  · next hp => injection h with h; rw [← h]; exact .internal (.inr ⟨rfl, hp⟩)
  all_goals injection h with h; rw [← h]; exact .idle (.inl rfl)

/-- A step answers a next state only under an admissible configuration, outside FAULT, and as one of the cases. -/
theorem step_next {s t : State} (h : step s = .next t) :
    s.cfg.admissible = true ∧ s.phase ≠ .fault ∧ StepCase s t := by
  unfold step at h
  split at h
  · simp at h
  next ha =>
    split at h
    · simp at h
    next hp =>
      refine ⟨by simpa using ha, hp, ?_⟩
      unfold scheduledStep at h
      split at h
      · exact internalStep_cases h
      next e rest hs =>
        simp only [State.clearOutputs_sched] at hs
        split at h
        next he =>
          cases e with
          | reset k => simp only [takeEvent] at h; injection h with h; rw [← h]; exact .reset hs
          | arrive f => simp only [takeEvent] at h; injection h with h; rw [← h]; exact .arrive hs
          | lose i => simp only [takeEvent] at h; injection h with h; rw [← h]; exact .lose hs
          | block b =>
            simp only [takeEvent] at h
            split at h
            · simp at h
            next hr => rw [blockStep_eq_run hr] at h; injection h with h; rw [← h]; exact .block hs he hr
          | cut b n torn k =>
            simp only [takeEvent] at h
            split at h
            · simp at h
            next hr => injection h with h; rw [← h]; exact .cut hs he hr
        · split at h
          · exact internalStep_cases h
          · injection h with h; rw [← h]; exact .idle (.inr ⟨e, rest, hs, rfl⟩)

/-- A step of the block starts from the state itself, or from it with the pending frame taken. -/
theorem stepStart_eq (e : BlockEvent) (s : State) : stepStart e s = s ∨ stepStart e s = takeFrame s := by
  cases e <;> simp [stepStart]

end Sys2Proof.Machine
end

