-- ==== Sys2Proof/Laws/Commands.lean ====
section
/-! SUPPORT. What the pieces of the commands do when run: the disarm, the acknowledgement, the buffer entries, opening a page,
programming a page of any flash, and the drawn pushes. -/

namespace Sys2Proof.Machine

open Sys2Proof

@[simp] theorem ifAddressed_self (c : Config) (body : List Action) :
    ifAddressed c c.nodeId body = addressed ++ body := by
  simp [ifAddressed, addressedTo]

/-- A command for another node runs no action (R106). -/
theorem ifAddressed_of_ne {c : Config} {node : Word} (h : node ≠ c.nodeId) (body : List Action) :
    ifAddressed c node body = [] := by
  simp [ifAddressed, addressedTo, h]

/-- An addressed command runs its body on the disarmed state (R107, R127). -/
theorem run_addressed {s : State} (hp : s.phase ≠ .fault) (body : List Action) :
    run (addressed ++ body) s = run body (disarmed s) := by
  rw [addressed, List.cons_append, run_cons hp, List.cons_append, List.nil_append, run_cons (by exact hp)]
  rfl

/-- One send (R95). -/
theorem run_send {ws : List Word} (h : ws.length ≤ 4) {s : State} (hp : s.phase ≠ .fault) :
    run [.send ws] s = sent [ws] s := by
  simpa using run_sends [ws] (by simpa using h) s hp

/-- One acknowledgement (R102). -/
theorem run_ack {c : Config} {st : Status} {s : State} (hp : s.phase ≠ .fault) (hc : s.cfg = c) :
    run [ack c st] s = sent [[c.opAck, statusWord c st]] s := by
  subst hc
  exact run_send (ws := [s.cfg.opAck, statusWord s.cfg st]) (by simp) hp

/-- A program of a halfword that is not erased, or of an unreliable flash, leaves a draw (R84, R89). -/
theorem memWrite_of_not_erased {a : Nat} {v : Word} {s : State} (hu : s.flashUnlocked = true)
    (hr : halfInRegion s.cfg a = true) (he : ¬ (s.cfg.flashReliable = true ∧ s.mem.readHalf a = 0xFFFF)) :
    memWrite a v s = scramble a 1 s := by
  unfold memWrite
  rw [if_neg (by simp [hu]), if_neg (by simp [hr]), if_neg he]

/-- Draws written to flash read back as free values. -/
theorem readHalf_drawnBytes (m : Memory) (a d n i : Nat) (h : i < n) :
    Memory.readHalf (m.write a (drawnBytes d n)) (a + 2 * i) = Config.freeWord (d + i) := by
  rw [drawnBytes, Memory.readHalf_write_packWords _ _ _ _ (by simpa using h)]
  simp

/-- The sector of a head page (R81). -/
theorem pageSector_of_head {c : Config} {p : Nat} (h : p % c.pagesPerSector = 0) :
    pageSector c p = some (c.firstSectorId + p / c.pagesPerSector) := by
  simp [pageSector, h]

/-- Under the invariants the cursor does not wrap (R21, R36). -/
theorem nextCursor_toNat {s : State} (hi : Inv s) (hm : s.programmingMode = true) :
    (nextCursor s).toNat = s.cursor.toNat + 2 := by
  have h := hi.openPage hm
  have := (Config.Admissible.of hi.admissible).pageWordsMax
  simp [nextCursor, BitVec.toNat_add]
  omega

@[simp] theorem length_filledBuf (d0 d1 : Word) (s : State) : (filledBuf d0 d1 s).length = s.buf.length := by
  simp [filledBuf]

/-- The two buffer entries and the cursor of an accepted PAGE_DATA (R118). -/
theorem run_fill {s : State} (hi : Inv s) (hp : s.phase ≠ .fault) (hm : s.programmingMode = true) (d0 d1 : Word) :
    run [.setBuf s.cursor.toNat d0, .setBuf (s.cursor.toNat + 1) d1, .setCursor (nextCursor s)] (disarmed s) =
      { disarmed s with buf := filledBuf d0 d1 s, cursor := s.cursor + 2 } := by
  have h := hi.openPage hm
  have hl := hi.bufLength
  simp [run, perform, disarmed, hp, writeBuf, show s.cursor.toNat < s.buf.length by omega,
    show s.cursor.toNat + 1 < s.buf.length by omega, State.setBuf, State.setCursor, filledBuf, nextCursor]

/-- Opening a page: no fault; only the programming registers, flash and the count of draws change (R116, R85). -/
theorem run_openPage {s : State} {p : Word} (hc : s.cfg.Admissible) (hp : s.phase ≠ .fault)
    (h : p.toNat < s.cfg.availablePages) :
    ∃ m d, run (openPage p ++ erasePage s.cfg p.toNat) s =
      { s with
        programmingMode := true, currentPage := p, cursor := 0, flashUnlocked := true, mem := m, draws := d } := by
  cases e : pageSector s.cfg p.toNat with
  | none =>
    refine ⟨s.mem, s.draws, ?_⟩
    simp [openPage, erasePage, e, run, perform, hp, State.setProgrammingMode, State.setCurrentPage, State.setCursor,
      State.setFlashUnlocked]
  | some sid =>
    have h1 := sectorInRegion_of_head hc h e
    by_cases hf : s.cfg.flashReliable = true
    · refine ⟨s.mem.write (sectorAddress s.cfg sid) (List.replicate s.cfg.sectorBytes 0xFF), s.draws, ?_⟩
      simp [openPage, erasePage, e, run, perform, hp, State.setProgrammingMode, State.setCurrentPage, State.setCursor,
        State.setFlashUnlocked, eraseSector, h1, hf, State.setMem]
    · refine ⟨s.mem.write (sectorAddress s.cfg sid) (drawnBytes s.draws (s.cfg.sectorBytes / 2)),
        s.draws + s.cfg.sectorBytes / 2, ?_⟩
      simp [openPage, erasePage, e, run, perform, hp, State.setProgrammingMode, State.setCurrentPage, State.setCursor,
        State.setFlashUnlocked, eraseSector, h1, hf, State.setMem, scramble, State.advanceDraws]

/-- Programming words of a page, on any flash: no fault; flash and the count of draws alone change, and each halfword holds
its word or a draw (R84, R86). -/
theorem run_writes {s : State} (hc : s.cfg.Admissible) (hp : s.phase ≠ .fault) (hu : s.flashUnlocked = true) {p : Nat}
    (hpage : p < s.cfg.availablePages) (ws : List Word) (hlen : ws.length ≤ s.cfg.pageWords) :
    ∃ m d, run (ws.mapIdx fun i v => .memWrite (pageAddress s.cfg p i) v) s = { s with mem := m, draws := d } ∧
      (∀ x, (x < pageAddress s.cfg p 0 ∨ pageAddress s.cfg p ws.length ≤ x) → m.readByte x = s.mem.readByte x) ∧
      ∀ i (h : i < ws.length),
        (s.cfg.flashReliable = true ∧ s.mem.readHalf (pageAddress s.cfg p i) = 0xFFFF →
          m.readHalf (pageAddress s.cfg p i) = ws[i]) ∧
        (¬ (s.cfg.flashReliable = true ∧ s.mem.readHalf (pageAddress s.cfg p i) = 0xFFFF) →
          ∃ n, m.readHalf (pageAddress s.cfg p i) = Config.freeWord n) := by
  induction ws using List.reverseRecOn with
  | nil => exact ⟨s.mem, s.draws, rfl, fun _ _ => rfl, by simp⟩
  | append_singleton ws w ih =>
    have hl : (ws ++ [w]).length = ws.length + 1 := by simp
    rw [hl] at hlen
    obtain ⟨m, d, e, ho, hr⟩ := ih (by omega)
    have hin := pageAddress_inRegion hc hpage (show ws.length < s.cfg.pageWords by omega)
    have hb : ∀ i, pageAddress s.cfg p i = pageAddress s.cfg p 0 + 2 * i := fun i => by simp [pageAddress]
    have hsame : m.readHalf (pageAddress s.cfg p ws.length) = s.mem.readHalf (pageAddress s.cfg p ws.length) := by
      simp only [Memory.readHalf]
      rw [ho _ (by omega), ho _ (by omega)]
    have outside : ∀ (bs : List Byte), bs.length = 2 → ∀ x,
        (x < pageAddress s.cfg p 0 ∨ pageAddress s.cfg p (ws ++ [w]).length ≤ x) →
        (m.write (pageAddress s.cfg p ws.length) bs).readByte x = s.mem.readByte x := by
      intro bs hbs x hx
      rw [hl, hb (ws.length + 1)] at hx
      have h1 := hb ws.length
      rw [Memory.readByte_write_outside _ _ _ _ (by omega), ho x (by omega)]
    have earlier : ∀ (bs : List Byte), bs.length = 2 → ∀ i, i < ws.length →
        (m.write (pageAddress s.cfg p ws.length) bs).readHalf (pageAddress s.cfg p i)
          = m.readHalf (pageAddress s.cfg p i) := by
      intro bs hbs i h
      have h1 := hb i
      have h2 := hb ws.length
      exact Memory.readHalf_write_outside _ _ _ _ (by omega)
    rw [List.mapIdx_append, run_append, e]
    simp only [List.mapIdx_cons, List.mapIdx_nil, Nat.zero_add]
    rw [run_cons (by exact hp), run_nil, perform]
    by_cases hk : s.cfg.flashReliable = true ∧ s.mem.readHalf (pageAddress s.cfg p ws.length) = 0xFFFF
    · rw [memWrite_of_erased (by exact hu) (by exact hin) (by exact hk.1) (by rw [← hk.2, ← hsame])]
      refine ⟨m.writeHalf (pageAddress s.cfg p ws.length) w, d, rfl, outside _ rfl, fun i h => ?_⟩
      rw [hl] at h
      by_cases hi : i = ws.length
      · subst hi
        simp [hk]
      · have hi' : i < ws.length := by omega
        rw [Memory.writeHalf, earlier _ rfl i hi', List.getElem_append_left hi']
        exact hr i hi'
    · have hms : memWrite (pageAddress s.cfg p ws.length) w { s with mem := m, draws := d } =
          scramble (pageAddress s.cfg p ws.length) 1 { s with mem := m, draws := d } :=
        memWrite_of_not_erased hu hin fun h => hk ⟨h.1, hsame.symm.trans h.2⟩
      rw [hms]
      refine ⟨m.write (pageAddress s.cfg p ws.length) (drawnBytes d 1), d + 1, rfl, outside _ rfl, fun i h => ?_⟩
      rw [hl] at h
      by_cases hi : i = ws.length
      · subst hi
        refine ⟨fun h => absurd h hk, fun _ => ⟨d, ?_⟩⟩
        simpa using readHalf_drawnBytes m (pageAddress s.cfg p ws.length) d 1 0 (by simp)
      · have hi' : i < ws.length := by omega
        rw [earlier _ rfl i hi', List.getElem_append_left hi']
        exact hr i hi'

/-- The pushes of a page are a row of sends (R112). -/
theorem pageStream_eq (s : State) (p : Nat) :
    pageStream s p =
      ((List.range (s.cfg.pageWords / 2)).map fun k =>
        encode s.cfg (.pushPageData (readWord s p (2 * k)) (readWord s p (2 * k + 1)))).map .send := by
  simp [pageStream, push, List.map_map]

/-- A row of drawn pushes: the transmit list and the count of draws alone change (R111). -/
theorem run_drawn (n : Nat) (s : State) (hp : s.phase ≠ .fault) :
    ∃ frames d, run (List.replicate n .sendDrawn) s = { s with tx := s.tx ++ frames, draws := d } ∧
      frames.length = n ∧
      ∀ x ∈ frames, ∃ m n, x.1 = frameOf s.cfg [s.cfg.opPageDataRead, Config.freeWord m, Config.freeWord n] := by
  induction n generalizing s with
  | zero => exact ⟨[], s.draws, by simp, rfl, by simp⟩
  | succ n ih =>
    rw [List.replicate_succ, run_cons hp, perform, sendDrawn_eq]
    obtain ⟨frames, d, h1, h2, h3⟩ := ih (((s.advanceDraws 2).appendTx
        (frameOf s.cfg [s.cfg.opPageDataRead, Config.freeWord s.draws, Config.freeWord (s.draws + 1)])
        (txOutcome (s.draws + 2))).advanceDraws 1) hp
    refine ⟨(frameOf s.cfg [s.cfg.opPageDataRead, Config.freeWord s.draws, Config.freeWord (s.draws + 1)],
      txOutcome (s.draws + 2)) :: frames, d, ?_, by simp [h2], fun x hx => ?_⟩
    · rw [h1]
      simp [State.advanceDraws, State.appendTx]
    · rcases List.mem_cons.1 hx with rfl | hx
      · exact ⟨_, _, rfl⟩
      · exact h3 x hx

end Sys2Proof.Machine
end

