-- ==== Sys2Proof/Laws/PerInstr.lean ====
section
/-! SUPPORT. Per-instruction families: EncodedLength, the number of words of an instruction's encoding (R58, R60, R61). -/

namespace Sys2Proof.Laws.EncodedLength

open Sys2Proof

/-- A well-formed instruction is two to four words, as a frame carries them. -/
def Statement (i : Instr) : Prop :=
  i.wellFormed = true → ∀ c : Config, 2 ≤ (encode c i).length ∧ (encode c i).length ≤ 4

theorem reset (node : Word) (args : List Word) : Statement (.reset node args) := by
  intro h c; simp [Instr.wellFormed] at h; simp [encode]; omega

theorem readPage (node : Word) (args : List Word) : Statement (.readPage node args) := by
  intro h c; simp [Instr.wellFormed] at h; simp [encode]; omega

theorem writePage (node : Word) (args : List Word) : Statement (.writePage node args) := by
  intro h c; simp [Instr.wellFormed] at h; simp [encode]; omega

theorem pageData (node : Word) (args : List Word) : Statement (.pageData node args) := by
  intro h c; simp [Instr.wellFormed] at h; simp [encode]; omega

theorem pushDescription (size first count : Word) : Statement (.pushDescription size first count) := by
  intro _ c; simp [encode]

theorem pushPageData (d0 d1 : Word) : Statement (.pushPageData d0 d1) := by
  intro _ c; simp [encode]

theorem pushAck (status : Status) : Statement (.pushAck status) := by
  intro _ c; simp [encode]

end Sys2Proof.Laws.EncodedLength
end

