-- ==== Sys2Proof/Laws/Sequencer.lean ====
section
/-! SUPPORT. The sequencer: which actions never fault, what a cut step leaves, how a scheduled step is taken, and that the
invariants survive a reset. -/

namespace Sys2Proof.Machine

open Sys2Proof

/-- An action that faults in no state outside FAULT. -/
def Action.calm : Action → Bool
  | .setBuf _ _ => false
  | .eraseSector _ => false
  | .memWrite _ _ => false
  | .setPhase p => decide (p ≠ .fault)
  | .raiseFault _ => false
  | _ => true

theorem perform_calm {a : Action} (h : a.calm = true) {s : State} (hp : s.phase ≠ .fault) :
    (perform a s).phase ≠ .fault := by
  cases a <;> simp [Action.calm] at h <;> simp only [perform, sendDrawn_eq] <;> try exact hp
  case send ws => rcases send_cases ws s with h | h <;> (rw [h]; exact hp)
  case setPhase p => exact h

/-- Calm actions never fault. -/
theorem run_calm {as : List Action} (h : ∀ a ∈ as, a.calm = true) {s : State} (hp : s.phase ≠ .fault) :
    (run as s).phase ≠ .fault :=
  run_invariant (P := fun t => t.phase ≠ .fault) (fun a ha _ ht => perform_calm (h a ha) ht) hp

/-- An action that does not fault while flash is unlocked and the buffer holds a page. -/
def Action.good (c : Config) : Action → Bool
  | .setBuf i _ => decide (i < c.pageWords)
  | .eraseSector sid => sectorInRegion c sid
  | .memWrite a _ => halfInRegion c a
  | .setFlashUnlocked v => v
  | a => a.calm

theorem perform_good {c : Config} {a : Action} (h : a.good c = true) {s : State} (hp : s.phase ≠ .fault)
    (hc : s.cfg = c) (hu : s.flashUnlocked = true) (hl : s.buf.length = c.pageWords) :
    (perform a s).phase ≠ .fault ∧ (perform a s).flashUnlocked = true ∧ (perform a s).buf.length = c.pageWords := by
  cases a <;> simp only [Action.good] at h <;> simp only [perform, sendDrawn_eq]
  case setBuf i v =>
    have hi : i < s.buf.length := by simpa [hl] using h
    rw [writeBuf, if_pos hi]
    exact ⟨hp, hu, by simpa using hl⟩
  case eraseSector sid =>
    simp only [eraseSector, hc, hu, h]
    split <;> simp_all [scramble]
    split <;> simp_all
  case memWrite a v =>
    simp only [memWrite, hc, hu, h]
    split <;> simp_all [scramble]
    split <;> simp_all
  case setFlashUnlocked v => exact ⟨hp, h, hl⟩
  case send ws => rcases send_cases ws s with h | h <;> (rw [h]; exact ⟨hp, hu, hl⟩)
  case setPhase p => exact ⟨by simpa [Action.calm] using h, hu, hl⟩
  case raiseFault r => simp [Action.calm] at h
  all_goals exact ⟨hp, hu, hl⟩

/-- Good actions never fault while flash is unlocked and the buffer holds a page. -/
theorem run_good {c : Config} {as : List Action} (h : ∀ a ∈ as, a.good c = true) {s : State} (hp : s.phase ≠ .fault)
    (hc : s.cfg = c) (hu : s.flashUnlocked = true) (hl : s.buf.length = c.pageWords) : (run as s).phase ≠ .fault :=
  (run_invariant
    (P := fun t => t.phase ≠ .fault ∧ t.cfg = c ∧ t.flashUnlocked = true ∧ t.buf.length = c.pageWords)
    (fun a ha _ ht =>
      have hg := perform_good (h a ha) ht.1 ht.2.1 ht.2.2.1 ht.2.2.2
      ⟨hg.1, (perform_cfg _ _).trans ht.2.1, hg.2⟩)
    ⟨hp, hc, hu, hl⟩).1

/-- A prefix of two lists of actions is a prefix of the first, then of the second. -/
theorem run_take_append (as bs : List Action) (n : Nat) (s : State) :
    run ((as ++ bs).take n) s = run (bs.take (n - as.length)) (run (as.take n) s) := by
  rw [List.take_append, run_append]

/-- An action in progress leaves its mark on flash and on the count of draws alone (R158.3). -/
theorem tear_eq (a : Action) (s : State) : ∃ m d, tear a s = { s with mem := m, draws := d } := by
  unfold tear
  split
  · split
    · exact ⟨_, _, rfl⟩
    · exact ⟨s.mem, s.draws, rfl⟩
  · split
    · exact ⟨_, _, rfl⟩
    · exact ⟨s.mem, s.draws, rfl⟩
  · exact ⟨s.mem, s.draws, rfl⟩

/-- What a cut leaves before the reset: the run of the prefix, but for flash and the count of draws. -/
theorem prefixState_eq (e : BlockEvent) (n : Nat) (torn : Bool) (s : State) :
    ∃ m d, prefixState e n torn s = { run ((eventActions e s).take n) (stepStart e s) with mem := m, draws := d } := by
  unfold prefixState
  simp only
  split
  · split
    · exact ⟨_, _, rfl⟩
    · exact tear_eq _ _
  · exact ⟨_, _, rfl⟩

@[simp] theorem stepStart_cfg (e : BlockEvent) (s : State) : (stepStart e s).cfg = s.cfg := by cases e <;> rfl
@[simp] theorem stepStart_magic (e : BlockEvent) (s : State) : (stepStart e s).magic = s.magic := by cases e <;> rfl
@[simp] theorem stepStart_phase (e : BlockEvent) (s : State) : (stepStart e s).phase = s.phase := by cases e <;> rfl
@[simp] theorem stepStart_mem (e : BlockEvent) (s : State) : (stepStart e s).mem = s.mem := by cases e <;> rfl

/-- The actions of a step do not depend on the outputs of the step before, nor on the rest of the schedule. -/
@[simp] theorem eventActions_clearOutputs (e : BlockEvent) (s : State) : eventActions e s.clearOutputs = eventActions e s := by
  cases e <;> rfl

@[simp] theorem eventActions_setSched (e : BlockEvent) (s : State) (rest : List Event) :
    eventActions e (s.setSched rest) = eventActions e s := by
  cases e <;> rfl

/-- The induction over the steps of the machine, packaged once: what holds of the state a step starts from, and is kept by every
action of the events enabled in it and by what a cut leaves of an action, holds after the step, up to the reset that may end
it. -/
theorem step_invariant {s t : State} (h : step s = .next t) {P : State → Prop}
    (start : ∀ q rest, P ((s.clearOutputs.setSched rest).setRxQueue q))
    (act : ∀ e, blockEnabled e s = true → ∀ a ∈ eventActions e s, ∀ u, u.cfg = s.cfg → P u → P (perform a u))
    (torn : ∀ a u, u.cfg = s.cfg → P u → P (tear a u)) :
    P t ∨ ∃ k u, P u ∧ u.cfg = s.cfg ∧ t = applyReset k u ∧
      ((∃ rest, s.sched = .reset k :: rest) ∨ ∃ e n torn rest, s.sched = .cut e n torn k :: rest) := by
  obtain ⟨_, _, hc⟩ := step_next h
  have base : ∀ rest, P (s.clearOutputs.setSched rest) := fun rest => start s.rxQueue rest
  have base' : P s.clearOutputs := base s.sched
  have first : ∀ e rest, P (stepStart e (s.clearOutputs.setSched rest)) := by
    intro e rest
    cases e
    case rx => exact start _ _
    all_goals exact base rest
  have runs : ∀ e, blockEnabled e s = true → ∀ as, (∀ a ∈ as, a ∈ eventActions e s) → ∀ u, u.cfg = s.cfg → P u →
      P (run as u) := fun e he as hs u hu hP =>
    (run_invariant (P := fun u => P u ∧ u.cfg = s.cfg)
      (fun a ha v hv => ⟨act e he a (hs a ha) v hv.2 hv.1, (perform_cfg a v).trans hv.2⟩) ⟨hP, hu⟩).1
  cases hc with
  | idle hu =>
    rcases hu with rfl | ⟨e, rest, _, rfl⟩
    · exact .inl base'
    · exact .inl (base rest)
  | reset hs => exact .inr ⟨_, _, base _, rfl, rfl, .inl ⟨_, hs⟩⟩
  | internal he =>
    refine .inl (runs _ ?_ _ (fun a ha => by simpa using ha) _ rfl base')
    rcases he with ⟨rfl, hp⟩ | ⟨rfl, hp⟩ <;> simp [blockEnabled, hp]
  | block hs he hr => exact .inl (runs _ he _ (fun a ha => by simpa using ha) _ (stepStart_cfg _ _) (first _ _))
  | @cut e n torn' k rest hs he hr =>
    have hpre : P (prefixState e n torn' (s.clearOutputs.setSched rest)) ∧
        (prefixState e n torn' (s.clearOutputs.setSched rest)).cfg = s.cfg := by
      have hrun := runs e he ((eventActions e (s.clearOutputs.setSched rest)).take n)
        (fun a ha => by simpa using List.mem_of_mem_take ha) (stepStart e (s.clearOutputs.setSched rest))
        (stepStart_cfg e _) (first e rest)
      have hcfg : (run ((eventActions e (s.clearOutputs.setSched rest)).take n)
          (stepStart e (s.clearOutputs.setSched rest))).cfg = s.cfg := by simp
      unfold prefixState
      simp only
      split
      · split
        · exact ⟨hrun, hcfg⟩
        · refine ⟨torn _ _ hcfg hrun, ?_⟩
          obtain ⟨m, d, h⟩ := tear_eq _ (run ((eventActions e (s.clearOutputs.setSched rest)).take n)
            (stepStart e (s.clearOutputs.setSched rest)))
          rw [h]
          exact hcfg
      · exact ⟨hrun, hcfg⟩
    unfold cutStep
    simp only
    split
    · exact .inl hpre.1
    · exact .inr ⟨_, _, hpre.1, hpre.2, rfl, .inr ⟨_, _, _, _, hs⟩⟩
  | arrive hs => exact .inl (start _ _)
  | lose hs => exact .inl (start _ _)

/-- The frames a command can offer: page data and acknowledgements, none with the status that is never sent (R61, R70). -/
theorem send_mem_instrActions {i : Instr} (hi : i.isCommand = true) {s : State} {ws : List Word}
    (h : .send ws ∈ instrActions i s) :
    (∃ d0 d1, ws = encode s.cfg (.pushPageData d0 d1)) ∨
      ∃ st, st ≠ .programFailed ∧ ws = encode s.cfg (.pushAck st) := by
  have hack : ∀ st, st ≠ .programFailed → .send ws = ack s.cfg st →
      (∃ d0 d1, ws = encode s.cfg (.pushPageData d0 d1)) ∨
        ∃ st, st ≠ .programFailed ∧ ws = encode s.cfg (.pushAck st) :=
    fun st hst e => .inr ⟨st, hst, by simpa [ack, push] using e⟩
  cases i with
  | reset node args =>
    simp only [instrActions, resetActions, ifAddressed] at h
    split at h
    · simp [addressed, rebootToApplication] at h
      exact hack .ok (by decide) h
    · simp at h
  | readPage node args =>
    simp only [instrActions, readPageActions, ifAddressed] at h
    split at h
    · rw [List.mem_append] at h
      rcases h with h | h
      · simp [addressed] at h
      · split at h
        · exact hack .invalidSize (by decide) (by simpa using h)
        · split at h
          · simp only [pageStream, push, List.mem_map] at h
            obtain ⟨k, _, h⟩ := h
            exact .inl ⟨_, _, (by simpa using h.symm)⟩
          · unfold outOfRangeRead at h
            split at h <;> simp at h
    · simp at h
  | writePage node args =>
    simp only [instrActions, writePageActions, ifAddressed] at h
    split at h
    · rw [List.mem_append] at h
      rcases h with h | h
      · simp [addressed] at h
      · split at h
        · exact hack .invalidSize (by decide) (by simpa using h)
        · split at h
          · simp only [List.mem_append, openPage, erasePage] at h
            rcases h with (h | h) | h
            · simp at h
            · split at h <;> simp at h
            · exact hack .ok (by decide) (by simpa using h)
          · exact hack .invalidValue (by decide) (by simpa using h)
    · simp at h
  | pageData node args =>
    simp only [instrActions, pageDataActions, ifAddressed] at h
    split at h
    · rw [List.mem_append] at h
      rcases h with h | h
      · simp [addressed] at h
      · split at h
        · exact hack .invalidSize (by decide) (by simpa using h)
        · split at h
          · simp only [List.mem_append] at h
            rcases h with (h | h) | h
            · simp at h
            · unfold commitActions at h
              split at h
              · simp [writePage, closePage] at h
              · simp at h
            · exact hack .ok (by decide) (by simpa using h)
          · exact hack .notProgramming (by decide) (by simpa using h)
    · simp at h
  | pushDescription => simp [Instr.isCommand] at hi
  | pushPageData => simp [Instr.isCommand] at hi
  | pushAck => simp [Instr.isCommand] at hi

/-- The actions of an `Rx` step: those of the decoded command, or at most the disarm (R91, R106, R121). -/
theorem eventActions_rx_cases (s : State) :
    (∃ i, i.isCommand = true ∧ eventActions .rx s = instrActions i (takeFrame s)) ∨
    eventActions .rx s = [] ∨ eventActions .rx s = addressed := by
  simp only [eventActions]
  split
  · exact .inr (.inl rfl)
  · unfold rxActions
    split
    · exact .inr (.inl rfl)
    · split
      next h => exact .inl ⟨_, isCommand_of_decodeCommand h, rfl⟩
      · unfold strayActions
        split
        · unfold ifAddressed
          split <;> simp
        · simp

/-- The frames a step of the block can offer: the description in an `Init`, page data and acknowledgements in an `Rx`, and
none with the status that is never sent (R61, R70, R124). -/
theorem send_mem_eventActions {e : BlockEvent} {s : State} {ws : List Word} (h : .send ws ∈ eventActions e s) :
    (e = .init ∧ ws = encode s.cfg (.pushDescription s.cfg.descPageSize s.cfg.firstPageIndex (u16 s.cfg.availablePages))) ∨
    (e = .rx ∧ ((∃ d0 d1, ws = encode s.cfg (.pushPageData d0 d1)) ∨
      ∃ st, st ≠ .programFailed ∧ ws = encode s.cfg (.pushAck st))) := by
  cases e with
  | boot =>
    simp only [eventActions, bootActions] at h
    split at h <;> simp at h
  | init => exact .inl ⟨rfl, by simpa [eventActions, initActions, push] using h⟩
  | tick =>
    simp only [eventActions, tickActions, rebootToApplication] at h
    split at h
    · split at h <;> simp at h
    · simp at h
  | rx =>
    rcases eventActions_rx_cases s with ⟨i, hi, e⟩ | e | e <;> rw [e] at h
    · exact .inr ⟨rfl, send_mem_instrActions hi h⟩
    · simp at h
    · simp [addressed] at h

/-- The invariants do not look at the outputs, the queue, the schedule or the count of draws. -/
theorem Inv.congr_env {s t : State} (h : Inv s)
    (e : t = { s with
      tx := t.tx, jumpApp := t.jumpApp, sysResetReq := t.sysResetReq, sched := t.sched, rxQueue := t.rxQueue
      draws := t.draws }) : Inv t := by
  rw [e]
  exact ⟨h.1, h.2, h.3, h.4, h.5, h.6, h.7, h.8, h.9, h.10, h.11, h.12, h.13⟩

/-- A reset establishes the invariants, from any state whose flash is in order (R33, R34). -/
theorem Inv.of_resetSession {s : State} (ha : s.cfg.admissible = true) (hm : MemOk s) : Inv (resetSession s) := by
  have ht := (Config.Admissible.of ha).timeoutPos
  constructor <;> first | exact ha | exact hm.1 | exact hm.2 | (intro _ _; exact ht) | simp [resetSession]

theorem Inv.of_applyReset {s : State} (ha : s.cfg.admissible = true) (hm : MemOk s) (k : ResetKind) :
    Inv (applyReset k s) := by
  cases k
  · have h : (powerOnMagic s).mem = s.mem ∧ (powerOnMagic s).cfg = s.cfg := by
      rcases powerOnMagic_cases s with ⟨_, h⟩ | ⟨_, h⟩ <;> simp [h]
    exact Inv.of_resetSession (by rw [h.2]; exact ha) (hm.congr h.1 h.2)
  · exact Inv.of_resetSession ha hm

/-- Outside FAULT a step reads the schedule. -/
theorem step_eq_scheduledStep {s : State} (ha : s.cfg.admissible = true) (hp : s.phase ≠ .fault) :
    step s = scheduledStep s.clearOutputs := by
  simp [step, ha, hp]

/-- An `Rx` at the head of the schedule, with a frame pending (R7, R91). -/
theorem step_rx {s : State} {f : Frame} {q : List Frame} {rest : List Event} (ha : s.cfg.admissible = true)
    (hp : s.phase = .run) (hs : s.sched = .block .rx :: rest) (hq : s.rxQueue = f :: q) (hf : f.wellFormed = true) :
    step s = rxStep f { s.clearOutputs with sched := rest, rxQueue := q } := by
  rw [step_eq_scheduledStep ha (by simp [hp])]
  simp [scheduledStep, hs, enabled, blockEnabled, hp, hq, takeEvent, eventRefusal, hf, blockStep, takeFrame,
    State.setRxQueue, State.setSched]

/-- A `Tick` at the head of the schedule (R128). -/
theorem step_tick {s : State} {rest : List Event} (ha : s.cfg.admissible = true) (hp : s.phase = .run)
    (hs : s.sched = .block .tick :: rest) : step s = .next (run (tickActions s) (s.clearOutputs.setSched rest)) := by
  rw [step_eq_scheduledStep ha (by simp [hp])]
  simp [scheduledStep, hs, enabled, blockEnabled, hp, takeEvent, eventRefusal, blockStep]
  rfl

/-- A cut step at the head of the schedule (R158). -/
theorem step_cut {s : State} {e : BlockEvent} {n : Nat} {torn : Bool} {k : ResetKind} {rest : List Event}
    (ha : s.cfg.admissible = true) (hp : s.phase ≠ .fault) (hs : s.sched = .cut e n torn k :: rest)
    (he : blockEnabled e s = true) (hr : eventRefusal e (s.clearOutputs.setSched rest) = none) :
    step s = .next (cutStep e n torn k (s.clearOutputs.setSched rest)) := by
  rw [step_eq_scheduledStep ha hp]
  have : enabled (.cut e n torn k) s.clearOutputs = true := he
  simp only [scheduledStep, State.clearOutputs_sched, hs, this, takeEvent, hr, if_true]

/-- The actions of the `Rx` step of a frame that decodes to an instruction. -/
theorem eventActions_rx {s : State} {i : Instr} (h : HeadFrame s i) :
    eventActions .rx s = instrActions i (takeFrame s) ∧ blockEnabled .rx s = decide (s.phase = .run) ∧
      eventRefusal .rx s = none := by
  obtain ⟨f, q, ws, hq, hf, hr, hd⟩ := h
  refine ⟨?_, by simp [blockEnabled, hq], by simp [eventRefusal, hq, hf]⟩
  have h1 : receive (takeFrame s).cfg f = some ws := hr
  have h2 : decodeCommand (takeFrame s).cfg ws = .ok i := hd
  simp only [eventActions, hq, rxActions, h1, h2]

end Sys2Proof.Machine
end

