-- ==== Sys2Proof/Tests/Slice0.lean ====
section
/-! SUPPORT. The model's own tests. Expected results come from spec/95_test_vectors.md, named at each test, or from the rule
named; the witnesses show that the hypotheses of each statement can be met together. -/

namespace Sys2Proof.Tests

open Sys2Proof Sys2Proof.Machine

set_option maxRecDepth 4000

/-! ### Well-formedness: an ill-formed term for each check -/

def frame (bytes : List Byte) : Frame := { id := .std 0x123, rtr := false, data := bytes }

theorem test_wf_frame_of_eight_bytes : (frame (List.replicate 8 0)).wellFormed = true := by decide
theorem test_ill_frame_of_nine_bytes : (frame (List.replicate 9 0)).wellFormed = false := by decide
theorem test_wf_command_of_two_args : (Instr.pageData 1 [2, 3]).wellFormed = true := by decide
theorem test_ill_reset : (Instr.reset 1 [2, 3, 4]).wellFormed = false := by decide
theorem test_ill_read_page : (Instr.readPage 1 [2, 3, 4]).wellFormed = false := by decide
theorem test_ill_write_page : (Instr.writePage 1 [2, 3, 4]).wellFormed = false := by decide
theorem test_ill_page_data : (Instr.pageData 1 [2, 3, 4]).wellFormed = false := by decide

/-- R13 and R65, clause by clause, on TINY with one parameter changed. -/
theorem test_inadmissible_geometry :
    { Config.tiny with pageWords := 3 }.admissible = false ∧
    { Config.tiny with pageWords := 0 }.admissible = false ∧
    { Config.tiny with pageWords := 32770, flashBase := 0 }.admissible = false ∧
    { Config.tiny with pagesPerSector := 1 }.admissible = false ∧
    { Config.tiny with pagesPerSector := 65536, availablePages := 0 }.admissible = false ∧
    { Config.tiny with availablePages := 5 }.admissible = false ∧
    { Config.tiny with availablePages := 0 }.admissible = false ∧
    { Config.tiny with availablePages := 65536 }.admissible = false ∧
    { Config.tiny with flashBase := 0x08020008 }.admissible = false ∧
    { Config.tiny with flashBase := 0xFFFFFFF0 }.admissible = false ∧
    { Config.tiny with firstSectorId := 65535 }.admissible = false := by decide

theorem test_inadmissible_values :
    { Config.tiny with opPageData := 0x8000 }.admissible = false ∧
    { Config.tiny with stInvalidValue := 2 }.admissible = false ∧
    { Config.tiny with nodeId := 0x0100 }.admissible = false ∧
    { Config.tiny with magicClear := 0xB00710AD }.admissible = false ∧
    { Config.tiny with timeoutTicks := 0 }.admissible = false ∧
    { Config.tiny with timeoutTicks := 65536 }.admissible = false := by decide

/-- The device-to-host opcodes are a name space of their own and need not differ from the commands' (R62); a node id above
0xFF is admissible with a TX_ID that is not the REF layout (R65). -/
theorem test_admissible_variants :
    { Config.tiny with opAck := 0x8000 }.admissible = true ∧
    { Config.tiny with nodeId := 0x0100, txId := .given 0x301 }.admissible = true ∧
    { Config.tiny with timeoutTicks := 65535 }.admissible = true := by decide

theorem test_ill_event : (Event.arrive (frame (List.replicate 9 0))).wellFormed = false := by decide

/-! ### Decoding: words written out from 30_encoding.md R60, R61 and R11 -/

theorem test_decode_reset : decodeBytes Config.ref [0x00, 0x80, 0x01, 0x00] = .ok (.reset 0x0001 []) := by decide
theorem test_decode_read_page :
    decodeBytes Config.ref [0x01, 0x80, 0x01, 0x00, 0x03, 0x00] = .ok (.readPage 0x0001 [0x0003]) := by decide
theorem test_decode_write_page :
    decodeBytes Config.ref [0x02, 0x80, 0x01, 0x00, 0x70, 0x00] = .ok (.writePage 0x0001 [0x0070]) := by decide
theorem test_decode_page_data :
    decodeBytes Config.ref [0x03, 0x80, 0x01, 0x00, 0x34, 0x12, 0x78, 0x56]
      = .ok (.pageData 0x0001 [0x1234, 0x5678]) := by decide
theorem test_decode_push_description :
    decodeBytes Config.ref [0x04, 0x80, 0x08, 0x00, 0x00, 0x00, 0x04, 0x00]
      = .ok (.pushDescription 0x0008 0x0000 0x0004) := by decide
theorem test_decode_push_page_data :
    decodeBytes Config.ref [0x05, 0x80, 0xEF, 0xBE, 0xFF, 0x00] = .ok (.pushPageData 0xBEEF 0x00FF) := by decide
theorem test_decode_push_ack :
    decodeBytes Config.ref [0x06, 0x80, 0x04, 0x00] = .ok (.pushAck .invalidValue) := by decide

/-- The rows of the opcode table, their 16 bits written out. -/
theorem test_table_words :
    decodeTableWord 16 0b1000000000000000 = some (.reset 0 []) ∧
    decodeTableWord 16 0b1000000000000001 = some (.readPage 0 [0]) ∧
    decodeTableWord 16 0b1000000000000010 = some (.writePage 0 [0]) ∧
    decodeTableWord 16 0b1000000000000011 = some (.pageData 0 [0, 0]) ∧
    decodeTableWord 16 0b1000000000000100 = some (.pushDescription 0 0 0) ∧
    decodeTableWord 16 0b1000000000000101 = some (.pushPageData 0 0) ∧
    decodeTableWord 16 0b1000000000000110 = some (.pushAck .ok) := by decide

theorem test_table_operands :
    decodeTableWord 64 0xABCD123400018003 = some (.pageData 0x0001 [0x1234, 0xABCD]) ∧
    decodeTableWord 48 0x000200018001 = some (.readPage 0x0001 [0x0002]) := by decide

/-- V-FR2, V-FR3, V-FR4, V-FR6, V-DA3, and an ACK whose status is none of the five: rejected by name. -/
theorem test_rejects :
    decodeBytes Config.ref [0x02, 0x80, 0x01] = .error .oddLength ∧
    decodeBytes Config.ref [] = .error .noNodeId ∧
    decodeBytes Config.ref [0x01, 0x00] = .error .noNodeId ∧
    decodeBytes Config.ref [0x07, 0x80, 0x01, 0x00] = .error .unrecognised ∧
    decodeCommand Config.ref [0x8006, 0x0001, 0x0000] = .error .unrecognised ∧
    decodeCommand Config.ref [0x8000, 0x0001, 0, 0, 0] = .error .tooLong ∧
    decodePush Config.ref [0x8000, 0x0001] = .error .notAPush ∧
    decodeBytes Config.ref [0x06, 0x80, 0x05, 0x00] = .error .unknownStatus := by decide

/-- V-FR7: the identifier 0x301 of R65 and the packing of R58. -/
theorem test_frame_of_ack :
    frameOf Config.ref [0x8006, 0x0004] = { id := .std 0x301, rtr := false, data := [0x06, 0x80, 0x04, 0x00] } := by
  decide

/-! ### States for the step tests (95_test_vectors.md, section 0) -/

/-- FLASH0: the halfword at page `p`, word `w` is `0xA000 + 0x100*p + w`. -/
def flash0 : Memory :=
  Memory.write [] 0x08020000 (packWords ((List.range 16).map fun i => u16 (0xA000 + 0x100 * (i / 4) + i % 4)))

/-- FLASH0 with sector 6 erased. -/
def flashErased6 : Memory := flash0.write 0x08020010 (List.replicate 16 0xFF)

/-- S0 (TINY) with FLASH0. -/
def s0 : State :=
  { State.reset with
    cfg := Config.tiny, phase := .run, buf := (List.range 4).map Config.freeWord, draws := 4, mem := flash0 }

/-- `pm = 1, cp = 2, cur = 0`, sector 6 erased. -/
def open2 : State :=
  { s0 with
    programmingMode := true, currentPage := 2, flashUnlocked := true, timeoutEnabled := false, mem := flashErased6 }

/-- `open2` after one pair of words: `cur = 2`, `buf[0..1] = 1, 2`. -/
def half2 : State := { open2 with cursor := 2, buf := [1, 2, Config.freeWord 2, Config.freeWord 3] }

/-- V-PD8's start: `pm = 1, cp = 1, cur = 2`, page 1 not erased. -/
def halfDirty : State := { half2 with currentPage := 1, mem := flash0 }

/-- S0 with an `Rx` of one frame next. -/
def rxOf (bytes : List Byte) (s : State) : State := { s with rxQueue := [frame bytes], sched := [.block .rx] }

def after (o : Host.Outcome State Fault Refusal) (p : State → Bool) : Bool :=
  match o with
  | .next t => p t
  | .fault _ => false
  | .refused _ => false

/-- The payloads of the frames the latest step offered. -/
def offered (s : State) : List (List Byte) := s.tx.map (fun p => p.1.data)

/-- The state tuple `⟨phase, pm, cp, cur, ten, tmr, unl, magic⟩`. -/
def tuple (s : State) (phase : Phase) (pm : Bool) (cp cur : Word) (ten : Bool) (tmr : Nat) (unl : Bool)
    (magic : Magic) : Bool :=
  decide (s.phase = phase ∧ s.programmingMode = pm ∧ s.currentPage = cp ∧ s.cursor = cur ∧ s.timeoutEnabled = ten ∧
    s.timer = tmr ∧ s.flashUnlocked = unl ∧ s.magic = magic)

def page (s : State) (p : Nat) : List Word := (List.range s.cfg.pageWords).map (readWord s p)

/-! ### The instructions -/

/-- V-RS1. -/
theorem test_reset :
    after (exec (.reset 1 []) s0) (fun t =>
      tuple t .resetPending false 0 0 false 0 false 0xB00710AD ∧ t.sysResetReq ∧
        offered t = [[0x06, 0x80, 0x00, 0x00]]) = true := by decide
/-- V-DA4: node 0 is no broadcast id. -/
theorem test_reset_other_node :
    after (exec (.reset 0 []) s0) (fun t => tuple t .run false 0 0 true 0 false 0 ∧ offered t = []) = true := by decide

/-- V-RP1. -/
theorem test_read_page :
    after (exec (.readPage 1 [0]) s0) (fun t =>
      tuple t .run false 0 0 false 0 false 0 ∧
        offered t = [[0x05, 0x80, 0x00, 0xA0, 0x01, 0xA0], [0x05, 0x80, 0x02, 0xA0, 0x03, 0xA0]]) = true := by decide
/-- V-RP4. -/
theorem test_read_page_out_of_region :
    after (exec (.readPage 1 [4]) s0) (fun t =>
      t.phase = .fault ∧ t.fault = some (.outOfRegionRead 4) ∧ offered t = []) = true := by decide

/-- V-WP1. -/
theorem test_write_page :
    after (exec (.writePage 1 [0]) s0) (fun t =>
      tuple t .run true 0 0 false 0 true 0 ∧ offered t = [[0x06, 0x80, 0x00, 0x00]] ∧
        page t 1 = [0xFFFF, 0xFFFF, 0xFFFF, 0xFFFF] ∧ page t 2 = [0xA200, 0xA201, 0xA202, 0xA203]) = true := by decide
/-- V-WP8: a rejection keeps the programming mode. -/
theorem test_write_page_out_of_range :
    after (exec (.writePage 1 [9]) halfDirty) (fun t =>
      tuple t .run true 1 2 false 0 true 0 ∧ offered t = [[0x06, 0x80, 0x04, 0x00]]) = true := by decide

/-- V-PD3. -/
theorem test_page_data :
    after (exec (.pageData 1 [1, 2]) open2) (fun t =>
      tuple t .run true 2 2 false 0 true 0 ∧ t.buf.take 2 = [1, 2] ∧ t.mem = flashErased6 ∧
        offered t = [[0x06, 0x80, 0x00, 0x00]]) = true := by decide
/-- V-PD4. -/
theorem test_page_data_commit :
    after (exec (.pageData 1 [3, 4]) half2) (fun t =>
      tuple t .run false 2 0 false 0 false 0 ∧ page t 2 = [1, 2, 3, 4] ∧
        page t 3 = [0xFFFF, 0xFFFF, 0xFFFF, 0xFFFF] ∧ offered t = [[0x06, 0x80, 0x00, 0x00]]) = true := by decide

/-- V-SV1's frame. -/
theorem test_push_description :
    after (exec (.pushDescription 8 0 4) s0) (fun t =>
      tuple t .run false 0 0 true 0 false 0 ∧
        offered t = [[0x04, 0x80, 0x08, 0x00, 0x00, 0x00, 0x04, 0x00]]) = true := by decide
/-- V-FR8. -/
theorem test_push_page_data :
    after (exec (.pushPageData 0xBEEF 0x00FF) s0) (fun t =>
      tuple t .run false 0 0 true 0 false 0 ∧ offered t = [[0x05, 0x80, 0xEF, 0xBE, 0xFF, 0x00]]) = true := by decide
/-- V-FR7. -/
theorem test_push_ack :
    after (exec (.pushAck .invalidValue) s0) (fun t =>
      tuple t .run false 0 0 true 0 false 0 ∧ offered t = [[0x06, 0x80, 0x04, 0x00]]) = true := by decide
/-- R70, I1: PROGRAM_FAILED is never sent. -/
theorem test_push_ack_reserved : exec (.pushAck .programFailed) s0 = .refused .reservedStatus := rfl

/-! ### Steps -/

/-- X9: the size check comes before the state check. -/
theorem test_step_page_data_size :
    after (step (rxOf [0x03, 0x80, 0x01, 0x00, 0x34, 0x12] s0)) (fun t =>
      tuple t .run false 0 0 false 0 false 0 ∧ offered t = [[0x06, 0x80, 0x01, 0x00]] ∧ t.rxQueue = []) = true := by
  decide
/-- V-PD1. -/
theorem test_step_page_data_idle :
    after (step (rxOf [0x03, 0x80, 0x01, 0x00, 0x01, 0x00, 0x02, 0x00] s0)) (fun t =>
      tuple t .run false 0 0 false 0 false 0 ∧ offered t = [[0x06, 0x80, 0x03, 0x00]]) = true := by decide
/-- V-FR2: an odd payload is dropped at the framer. -/
theorem test_step_odd_frame :
    after (step (rxOf [0x02, 0x80, 0x01] s0)) (fun t =>
      tuple t .run false 0 0 true 0 false 0 ∧ offered t = []) = true := by decide
/-- V-FR6: an extended frame is taken under REF; the opcode 0x8007 only disarms the timeout. -/
theorem test_step_extended_frame :
    after (step { s0 with
        rxQueue := [{ id := .ext 0x1234567, rtr := false, data := [0x07, 0x80, 0x01, 0x00] }], sched := [.block .rx] })
      (fun t => tuple t .run false 0 0 false 0 false 0 ∧ offered t = []) = true := by decide
/-- V-BL3: all 32 bits of the latch are compared. -/
theorem test_step_boot_compare :
    after (step { s0 with phase := .boot, magic := 0xB00710AC }) (fun t =>
      t.phase = .init ∧ t.magic = 0xB00710AC ∧ t.jumpApp = false) = true := by decide
/-- V-BL2. -/
theorem test_step_boot_sentinel :
    after (step { s0 with phase := .boot, magic := 0xB00710AD }) (fun t =>
      t.phase = .app ∧ t.magic = 0 ∧ t.jumpApp = true) = true := by decide
/-- V-SV1. -/
theorem test_step_init :
    after (step { s0 with phase := .init, timer := 2 }) (fun t =>
      tuple t .run false 0 0 true 0 false 0 ∧
        offered t = [[0x04, 0x80, 0x08, 0x00, 0x00, 0x00, 0x04, 0x00]]) = true := by decide
/-- V-SV4. -/
theorem test_step_tick_expires :
    after (step { s0 with timer := 2, sched := [.block .tick] }) (fun t =>
      tuple t .resetPending false 0 0 true 3 false 0xB00710AD ∧ t.sysResetReq ∧ offered t = []) = true := by
  decide
/-- V-SV5. -/
theorem test_step_tick_disarmed :
    after (step { s0 with timeoutEnabled := false, sched := [.block .tick] }) (fun t =>
      tuple t .run false 0 0 false 0 false 0) = true := by decide
/-- V-BL5. -/
theorem test_step_sysreset :
    after (step { s0 with phase := .resetPending, magic := 0xB00710AD, timer := 3, sched := [.reset .sysReset] }) (fun t =>
      tuple t .boot false 0 0 true 0 false 0xB00710AD) = true := by decide
/-- V-BL6. -/
theorem test_step_poweron :
    after (step { s0 with phase := .resetPending, magic := 0xB00710AD, timer := 3, sched := [.reset .powerOn] }) (fun t =>
      tuple t .boot false 0 0 true 0 false 0) = true := by decide
/-- V-BL9: no event of the block is enabled in APP. -/
theorem test_step_app_inert :
    after (step { rxOf [0x02, 0x80, 0x01, 0x00, 0x00, 0x00] s0 with phase := .app }) (fun t =>
      t.phase = .app ∧ t.mem = flash0 ∧ t.timeoutEnabled = true ∧ offered t = []) = true := by decide
/-- P5, step 3: FAULT is absorbing. -/
theorem test_step_fault :
    (match step { s0 with phase := .fault, fault := some (.outOfRegionRead 7), sched := [.reset .sysReset] } with
      | .fault r => decide (r = .absorbed (some (.outOfRegionRead 7)))
      | .next _ => false
      | .refused _ => false) = true := by decide
/-- V-RI5: only the first push of a READ_PAGE cut after it went out. -/
theorem test_step_cut_read :
    after (step { rxOf [0x01, 0x80, 0x01, 0x00, 0x00, 0x00] s0 with sched := [.cut .rx 3 false .sysReset] }) (fun t =>
      t.phase = .boot ∧ offered t = [[0x05, 0x80, 0x00, 0xA0, 0x01, 0xA0]] ∧ t.mem = flash0) = true := by decide
/-- V-RI1: the words before the cut, and the erased halfword after it. -/
theorem test_step_cut_commit :
    after (step { rxOf [0x03, 0x80, 0x01, 0x00, 0x03, 0x00, 0x04, 0x00] half2 with
        sched := [.cut .rx 7 true .sysReset] })
      (fun t => t.phase = .boot ∧ offered t = [] ∧ t.programmingMode = false ∧
        readWord t 2 0 = 1 ∧ readWord t 2 1 = 2 ∧ readWord t 2 3 = 0xFFFF) = true := by decide
/-- A RESET placed by `withFetchWord` is the first instruction after reset (log 17). -/
theorem test_fetch_reset :
    after (step (State.reset.withFetchWord 16 0x8000)) (fun t => t.phase = .resetPending ∧ t.magic = 0xB00710AD) = true := by
  decide
/-- The push rows of the table: the next step sends the placed push (log 17). -/
theorem test_fetch_pushes :
    after (step (State.reset.withFetchWord 16 0x8004)) (fun t =>
      t.phase = .run ∧ offered t = [[0x04, 0x80, 0x00, 0x00, 0x00, 0x00, 0x70, 0x00]]) = true ∧
    after (step (State.reset.withFetchWord 48 0x00FFBEEF8005)) (fun t =>
      offered t = [[0x05, 0x80, 0xEF, 0xBE, 0xFF, 0x00]]) = true := by decide
/-- The acknowledgements: each status but PROGRAM_FAILED (log 17). -/
theorem test_fetch_acks :
    ([0, 1, 3, 4].all fun st =>
      after (step (s0.withFetchWord 32 (0x8006 + 65536 * st))) (fun t =>
        offered t = [[0x06, 0x80, BitVec.ofNat 8 st, 0x00]])) = true ∧
    after (step (s0.withFetchWord 32 0x00028006)) (fun t => offered t = []) = true := by decide
/-- R9: what a committing PAGE_DATA shows, its changed bytes and no change of the latch. -/
theorem test_step_output :
    after (exec (.pageData 1 [3, 0xFFFF]) half2) (fun t =>
      (stepOutput half2 t).frames.length = 1 ∧ (stepOutput half2 t).magic = none ∧
        (stepOutput half2 t).flash = [(0x08020010, 1), (0x08020011, 0), (0x08020012, 2), (0x08020013, 0),
          (0x08020014, 3), (0x08020015, 0)]) = true := by decide
/-- V-MP1 to V-MP8. -/
theorem test_mapper :
    pageAddress Config.tiny 1 3 = 0x0802000E ∧ pageAddress Config.tiny 3 1 = 0x0802001A ∧
    pageAddress Config.ref 111 4095 = 0x080FFFFE ∧ pageAddress Config.ref 16 0 = 0x08040000 ∧
    (List.range 4).map (pageSector Config.tiny) = [some 5, none, some 6, none] ∧
    pageSector Config.ref 16 = some 6 ∧ pageSector Config.ref 17 = none ∧ pageSector Config.ref 96 = some 11 := by decide
/-- V-FL4, V-FL7 and V-FL8. -/
theorem test_flash_primitives :
    readWord (memWrite 0x08020010 0 open2) 2 0 = 0 ∧
    (memWrite 0x08020000 1 s0).fault = some (.programWhileLocked 0x08020000) ∧
    (eraseSector 6 s0).fault = some (.programWhileLocked 0x08020010) := by decide

/-! ### Witnesses: the hypotheses of each statement, met together, clause by clause at the ends of the ranges -/

theorem next_of_after {o : Host.Outcome State Fault Refusal} {p : State → Bool} (h : after o p = true) :
    ∃ t, o = .next t ∧ p t = true := by
  cases o with
  | next t => exact ⟨t, rfl, h⟩
  | fault r => simp [after] at h
  | refused r => simp [after] at h

theorem inv_s0 : Machine.Inv s0 := by constructor <;> decide
theorem inv_open2 : Machine.Inv open2 := by constructor <;> decide
theorem inv_half2 : Machine.Inv half2 := by constructor <;> decide
theorem inv_halfDirty : Machine.Inv halfDirty := by constructor <;> decide

theorem headFrame_rxOf {bytes : List Byte} {s : State} {i : Instr} {ws : List Word}
    (h1 : (frame bytes).wellFormed = true) (h2 : receive s.cfg (frame bytes) = some ws)
    (h3 : decodeCommand s.cfg ws = .ok i) (sched : List Event) : HeadFrame { rxOf bytes s with sched := sched } i :=
  ⟨frame bytes, [], ws, rfl, h1, h2, h3⟩

/-- RESET for this node pending. -/
def rxReset (s : State) : State := rxOf [0x00, 0x80, 0x01, 0x00] s

theorem headFrame_reset (sched : List Event) : HeadFrame { rxReset s0 with sched := sched } (.reset 1 []) :=
  headFrame_rxOf (ws := [0x8000, 1]) (by decide) (by decide) (by decide) sched

theorem witness_DecodeOfEncodedInstruction :
    Config.tiny.admissible = true ∧ (Instr.pageData 1 [2, 3]).wellFormed = true ∧
    (Instr.pageData 1 [2, 3]).isCommand = true ∧ (Instr.pushAck .ok).wellFormed = true ∧
    (Instr.pushAck .ok).isCommand = false := by decide

theorem witness_EncodeOfDecodedWords :
    decodeCommand Config.tiny [0x8003, 1, 2, 3] = .ok (.pageData 1 [2, 3]) ∧
    decodePush Config.tiny [0x8006, 4] = .ok (.pushAck .invalidValue) := by decide

theorem witness_FramesPackWordsLowByteFirst :
    (frame [3, 0x80, 1, 0, 2, 0, 3, 0]).wellFormed = true ∧
    receive Config.tiny (frame [3, 0x80, 1, 0, 2, 0, 3, 0]) = some [0x8003, 1, 2, 3] ∧
    0 < [0x8003, 1, 2, (3 : Word)].length ∧ 3 < [0x8003, 1, 2, (3 : Word)].length := by decide

/-- The empty frame, and a frame of eight bytes. -/
theorem witness_ReceiveTakesEveryEvenDataFrame :
    (frame []).rtr = false ∧ rxAccept Config.tiny (frame []) = true ∧ (frame []).len % 2 = 0 ∧
    (frame [3, 0x80, 1, 0, 2, 0, 3, 0]).len % 2 = 0 ∧ (frame [3, 0x80, 1, 0, 2, 0, 3, 0]).wellFormed = true ∧
    receive Config.tiny (frame []) = some [] ∧ Config.tiny.rxAccept = .allData := by decide

theorem witness_DroppedFramesChangeNothing :
    s0.cfg.admissible = true ∧ s0.phase = .run ∧ (rxOf [1, 2, 3] s0).sched = [.block .rx] ∧
    (rxOf [1, 2, 3] s0).rxQueue = [frame [1, 2, 3]] ∧ (frame [1, 2, 3]).wellFormed = true ∧
    { frame [] with rtr := true }.rtr = true ∧ rxAccept s0.cfg { frame [] with rtr := true } = false ∧
    (frame [1, 2, 3]).len % 2 = 1 ∧
    unpackBytes (frame []).data = .ok [] ∧ unpackBytes (frame [1, 0]).data = .ok [1] ∧
    unpackBytes (frame [0, 0x80, 2, 0]).data = .ok [0x8000, 2] ∧ [0x8000, (2 : Word)][1]? = some 2 ∧
    2 ≠ s0.cfg.nodeId := by decide

theorem witness_UnrecognisedFramesOnlyDisarm :
    s0.cfg.admissible = true ∧ s0.phase = .run ∧
    (rxOf [7, 0x80, 1, 0] s0).sched = [.block .rx] ∧ (rxOf [7, 0x80, 1, 0] s0).rxQueue = [frame [7, 0x80, 1, 0]] ∧
    (frame [7, 0x80, 1, 0]).wellFormed = true ∧
    receive s0.cfg (frame [7, 0x80, 1, 0]) = some (0x8007 :: s0.cfg.nodeId :: []) ∧
    0x8007 ∉ [s0.cfg.opReset, s0.cfg.opReadPage, s0.cfg.opWritePage, s0.cfg.opPageData] := by decide

theorem witness_StepRunsTheReceivedCommand :
    s0.cfg.admissible = true ∧ s0.phase = .run ∧
    (rxOf [3, 0x80, 1, 0, 2, 0, 3, 0] s0).sched = [.block .rx] ∧
    (rxOf [3, 0x80, 1, 0, 2, 0, 3, 0] s0).rxQueue = [frame [3, 0x80, 1, 0, 2, 0, 3, 0]] ∧
    (frame [3, 0x80, 1, 0, 2, 0, 3, 0]).wellFormed = true ∧
    receive s0.cfg (frame [3, 0x80, 1, 0, 2, 0, 3, 0]) = some [0x8003, 1, 2, 3] ∧
    decodeCommand s0.cfg [0x8003, 1, 2, 3] = .ok (.pageData 1 [2, 3]) := by decide

theorem witness_PushesRunInsideTheirSteps :
    s0.cfg.admissible = true ∧ { s0 with phase := .init }.phase = .init ∧
    { s0 with sched := [.block .init] }.sched = [.block .init] ∧ s0.phase ≠ .fault ∧
    (0 : Word).toNat < s0.cfg.availablePages ∧ (3 : Word).toNat < s0.cfg.availablePages ∧
    ([] : List Word).length ≠ 1 ∧ s0.cfg.availablePages ≤ (4 : Word).toNat ∧ [(0 : Word)].length ≠ 2 ∧
    [0, (0 : Word)].length = 2 ∧ s0.programmingMode = false := by decide

theorem witness_CommandsForOtherNodesAreIgnored : (0 : Word) ≠ s0.cfg.nodeId ∧ (0x0101 : Word) ≠ s0.cfg.nodeId := by
  decide

theorem witness_AddressedFramesDisarmTheTimeout :
    s0.cfg.admissible = true ∧ s0.phase = .run ∧ (rxReset s0).sched = [.block .rx] ∧
    (rxReset s0).rxQueue = [frame [0, 0x80, 1, 0]] ∧ (frame [0, 0x80, 1, 0]).wellFormed = true ∧
    receive s0.cfg (frame [0, 0x80, 1, 0]) = some [0x8000, 1] ∧ [0x8000, (1 : Word)][1]? = some s0.cfg.nodeId := by decide

/-- A disarmed tick, and an addressed frame that disarms again. -/
theorem witness_DisarmLastsForTheSession :
    open2.phase ≠ .init ∧ open2.timeoutEnabled = false ∧
    (∃ t, step { open2 with sched := [.block .tick] } = .next t ∧ t.phase ≠ .boot) ∧
    ∃ t, step (rxOf [7, 0x80, 1, 0] open2) = .next t ∧ t.phase ≠ .boot :=
  ⟨by decide, by decide,
    (next_of_after (p := fun t => decide (t.phase ≠ .boot)) (by decide)).imp fun _ h => ⟨h.1, of_decide_eq_true h.2⟩,
    (next_of_after (p := fun t => decide (t.phase ≠ .boot)) (by decide)).imp fun _ h => ⟨h.1, of_decide_eq_true h.2⟩⟩

/-- An `Init` step offers a frame of eight bytes; a `Boot` step enters INIT. -/
theorem witness_DescriptionIsSentOncePerSession :
    (∃ t, step { s0 with phase := .init } = .next t ∧ t.phase = .run ∧ ∃ x ∈ t.tx, x.1.len = 8) ∧
    ∃ t, step { s0 with phase := .boot } = .next t ∧ t.phase = .init :=
  ⟨(next_of_after (p := fun t => decide (t.phase = .run ∧ ∃ x ∈ t.tx, x.1.len = 8)) (by decide)).imp fun _ h =>
      ⟨h.1, of_decide_eq_true h.2⟩,
    (next_of_after (p := fun t => decide (t.phase = .init)) (by decide)).imp fun _ h => ⟨h.1, of_decide_eq_true h.2⟩⟩

/-- With the sentinel and without. -/
theorem witness_BootStepConsumesTheSentinel :
    s0.cfg.admissible = true ∧ { s0 with phase := .boot }.phase = .boot ∧
    { s0 with sched := [.block .boot] }.sched = .block .boot :: [] ∧
    { s0 with magic := 0xB00710AD }.magic = s0.cfg.sentinel ∧ s0.magic ≠ s0.cfg.sentinel := by decide

theorem witness_InitStepSendsTheDescription :
    s0.cfg.admissible = true ∧ { s0 with phase := .init }.phase = .init ∧
    { s0 with sched := [.block .init] }.sched = .block .init :: [] := by decide

/-- An empty schedule, and a tick offered too early. -/
theorem witness_InternalStepsWaitForNoEvent :
    s0.cfg.admissible = true ∧ s0.sched = [] ∧ { s0 with phase := .boot }.phase = .boot ∧
    { s0 with phase := .init }.phase = .init ∧ { s0 with sched := [.block .tick] }.sched = .block .tick :: [] ∧
    enabled (.block .tick) { s0 with phase := .boot, sched := [.block .tick] } = false ∧
    enabled (.block .tick) { s0 with phase := .init, sched := [.block .tick] } = false := by decide

theorem witness_TickStepCountsAndReboots :
    s0.cfg.admissible = true ∧ s0.phase = .run ∧ { s0 with sched := [.block .tick] }.sched = [.block .tick] ∧
    open2.timeoutEnabled = false ∧ s0.timeoutEnabled = true ∧ s0.timer + 1 ≠ s0.cfg.timeoutTicks ∧
    { s0 with timer := 2 }.timer + 1 = s0.cfg.timeoutTicks ∧ { s0 with timer := 2 }.timer < s0.cfg.timeoutTicks := by
  decide

theorem witness_ResetEventsSetTheState :
    s0.cfg.admissible = true ∧ s0.phase ≠ .fault ∧
    { s0 with sched := [.reset .powerOn] }.sched = [.reset .powerOn] ∧ s0.cfg.magicPor = .cleared ∧
    { Config.tiny with magicPor := .arbitrary }.admissible = true := by decide

theorem witness_FaultIsAbsorbing : s0.cfg.admissible = true ∧ { s0 with phase := .fault }.phase = .fault := by decide

theorem witness_InadmissibleConfigurationIsRefused :
    { s0 with cfg := { Config.tiny with timeoutTicks := 0 } }.cfg.admissible = false := by decide

/-- Both sides are met, and both fail somewhere; the identifier clause has its premise. -/
theorem witness_AdmissibleConfigurationsMeetTheClauses :
    Config.tiny.admissible = true ∧ { Config.tiny with timeoutTicks := 65536 }.admissible = false ∧
    Config.tiny.txId = .typeAndNode 0b011 := by decide

theorem witness_InertPhasesTakeNoBlockStep :
    s0.cfg.admissible = true ∧ { s0 with phase := .app }.phase = .app ∧
    { s0 with phase := .resetPending }.phase = .resetPending ∧
    { s0 with sched := [.block .tick] }.sched = [.block .tick] ∧ (Event.block .tick).blockPart = some .tick ∧
    (Event.cut .rx 3 true .powerOn).blockPart = some .rx := by decide

theorem witness_ResetCommandReboots : s0.phase ≠ .fault := by decide

theorem witness_ReadPageStreamsThePage :
    s0.phase ≠ .fault ∧ (0 : Word).toNat < s0.cfg.availablePages ∧ (3 : Word).toNat < s0.cfg.availablePages := by decide

theorem witness_ReadPageOutOfRangeFollowsPolicy :
    s0.phase ≠ .fault ∧ s0.cfg.availablePages ≤ (4 : Word).toNat ∧ s0.cfg.availablePages ≤ (0xFFFF : Word).toNat ∧
    s0.cfg.oorRead = .fault ∧ { Config.tiny with oorRead := .anyValue }.oorRead = .anyValue := by decide

/-- A head on a reliable and on an unreliable flash, and the last page, no head. -/
theorem witness_WritePageOpensAndErases :
    s0.cfg.admissible = true ∧ s0.phase ≠ .fault ∧ (0 : Word).toNat < s0.cfg.availablePages ∧
    s0.cfg.flashReliable = true ∧ (0 : Word).toNat % s0.cfg.pagesPerSector = 0 ∧
    { Config.tiny with flashReliable := false }.admissible = true ∧ 0 < s0.cfg.sectorBytes / 2 ∧
    (3 : Word).toNat < s0.cfg.availablePages ∧ (3 : Word).toNat % s0.cfg.pagesPerSector ≠ 0 := by decide

theorem witness_RejectedCommandsOnlyAnswer :
    s0.phase ≠ .fault ∧ ([] : List Word).length ≠ 1 ∧ [0, (0 : Word)].length ≠ 1 ∧
    s0.cfg.availablePages ≤ (4 : Word).toNat ∧ [(0 : Word)].length ≠ 2 ∧ [0, (0 : Word)].length = 2 ∧
    s0.programmingMode = false := by decide

theorem witness_PageDataFillsTheBuffer :
    Machine.Inv open2 ∧ open2.phase ≠ .fault ∧ open2.programmingMode = true ∧
    open2.cursor.toNat + 2 < open2.cfg.pageWords := ⟨inv_open2, by decide, by decide, by decide⟩

/-- Erased halfwords in `half2`, written ones in `halfDirty`. -/
theorem witness_PageDataCommitsTheFullPage :
    (Machine.Inv half2 ∧ half2.phase ≠ .fault ∧ half2.programmingMode = true ∧
      half2.cursor.toNat + 2 = half2.cfg.pageWords ∧ readWord half2 half2.currentPage.toNat 3 = 0xFFFF) ∧
    (Machine.Inv halfDirty ∧ halfDirty.phase ≠ .fault ∧ halfDirty.programmingMode = true ∧
      halfDirty.cursor.toNat + 2 = halfDirty.cfg.pageWords ∧
      readWord halfDirty halfDirty.currentPage.toNat 0 ≠ 0xFFFF) :=
  ⟨⟨inv_half2, by decide, by decide, by decide, by decide⟩, inv_halfDirty, by decide, by decide, by decide, by decide⟩

theorem witness_PushesOfferTheirFrame : s0.phase ≠ .fault ∧ Status.ok ≠ .programFailed := by decide

theorem witness_NonStoringInstructionsFrame :
    (∃ t, exec (.reset 1 []) s0 = .next t) ∧ (∃ t, exec (.readPage 1 [3]) s0 = .next t) ∧
    (∃ t, exec (.pushDescription 8 0 4) s0 = .next t) ∧ (∃ t, exec (.pushPageData 1 2) s0 = .next t) ∧
    (∃ t, exec (.pushAck .ok) s0 = .next t) :=
  ⟨⟨_, rfl⟩, ⟨_, rfl⟩, ⟨_, rfl⟩, ⟨_, rfl⟩, ⟨_, rfl⟩⟩

theorem witness_WritePageFrame :
    s0.cfg.admissible = true ∧ (∃ t, exec (.writePage 1 [0]) s0 = .next t) ∧
    pageSector s0.cfg (0 : Word).toNat = some 5 ∧
    0x0801FFFF < sectorAddress s0.cfg 5 ∧ sectorAddress s0.cfg 5 + s0.cfg.sectorBytes ≤ 0x08020010 ∧
    (2 : Word) ≠ s0.cfg.nodeId ∧ s0.cfg.availablePages ≤ (4 : Word).toNat ∧
    pageSector s0.cfg (3 : Word).toNat = none :=
  ⟨by decide, ⟨_, rfl⟩, by decide, by decide, by decide, by decide, by decide, by decide⟩

theorem witness_PageDataFrame :
    Machine.Inv half2 ∧ (∃ t, exec (.pageData 1 [3, 4]) half2 = .next t) ∧
    0x0802000F < pageAddress half2.cfg half2.currentPage.toNat 0 ∧
    pageAddress half2.cfg half2.currentPage.toNat 0 + half2.cfg.pageBytes ≤ 0x08020018 ∧
    open2.cursor.toNat + 2 ≠ open2.cfg.pageWords ∧ 1 ≠ half2.cursor.toNat ∧ 1 ≠ half2.cursor.toNat + 1 :=
  ⟨inv_half2, ⟨_, rfl⟩, by decide, by decide, by decide, by decide, by decide⟩

theorem witness_EraseSectorRule :
    s0.cfg.admissible = true ∧ sectorInRegion s0.cfg 5 = true ∧ sectorInRegion s0.cfg 6 = true ∧
    open2.flashUnlocked = true ∧ s0.flashUnlocked = false ∧ s0.cfg.flashReliable = true ∧
    { Config.tiny with flashReliable := false }.flashReliable = false ∧ 0 < s0.cfg.sectorBytes / 2 ∧
    7 < s0.cfg.sectorBytes / 2 := by decide

theorem witness_MemWriteRule :
    halfInRegion open2.cfg 0x08020000 = true ∧ halfInRegion open2.cfg 0x0802001E = true ∧
    open2.flashUnlocked = true ∧ s0.flashUnlocked = false ∧ open2.cfg.flashReliable = true ∧
    memRead open2 0x0802001E = 0xFFFF ∧ memRead open2 0x08020000 ≠ 0xFFFF := by decide

theorem witness_MapperPlacesPagesAndSectors :
    Config.tiny.admissible = true ∧ 0 < Config.tiny.availablePages ∧ 3 < Config.tiny.availablePages ∧
    0 < Config.tiny.pageWords ∧ 3 < Config.tiny.pageWords ∧ 2 % Config.tiny.pagesPerSector = 0 ∧
    3 % Config.tiny.pagesPerSector ≠ 0 ∧ ((0, 3) : Nat × Nat) ≠ (1, 0) := by decide

theorem witness_StepKeepsInvariants :
    Machine.Inv (rxReset s0) ∧ ∃ t, step (rxReset s0) = .next t :=
  ⟨inv_s0.congr_env rfl, (next_of_after (p := fun _ => true) (by decide)).imp fun _ h => h.1⟩

theorem witness_StepAnswersANextState : Machine.Inv (rxReset s0) ∧ EnvOk (rxReset s0) ∧ (rxReset s0).phase ≠ .fault :=
  ⟨inv_s0.congr_env rfl, ⟨by decide, by decide⟩, by decide⟩

theorem witness_OnlyOutOfRegionReadsFault :
    Machine.Inv (rxOf [1, 0x80, 1, 0, 4, 0] s0) ∧ ∃ t, step (rxOf [1, 0x80, 1, 0, 4, 0] s0) = .next t ∧
      t.fault = some (.outOfRegionRead 4) :=
  ⟨inv_s0.congr_env rfl,
    (next_of_after (p := fun t => decide (t.fault = some (.outOfRegionRead 4))) (by decide)).imp fun _ h =>
      ⟨h.1, of_decide_eq_true h.2⟩⟩

theorem witness_FlashOutsideTheRegionNeverChanges :
    (∃ t, step (rxOf [2, 0x80, 1, 0, 0, 0] s0) = .next t) ∧ 0x0801FFFF < s0.cfg.flashBase ∧
    s0.cfg.flashEnd ≤ 0x08020020 :=
  ⟨(next_of_after (p := fun _ => true) (by decide)).imp fun _ h => h.1, by decide, by decide⟩

theorem witness_ConfigurationIsFixed : ∃ t, step s0 = .next t :=
  (next_of_after (p := fun _ => true) (by decide)).imp fun _ h => h.1

/-- A step that transmits one frame. -/
theorem witness_TransmittedFramesCarryTheNodeIdentifier :
    (∃ t, step (rxReset s0) = .next t ∧ t.tx.length = 1) ∧ Config.tiny.txId = .typeAndNode 0b011 ∧
    Config.tiny.admissible = true :=
  ⟨(next_of_after (p := fun t => decide (t.tx.length = 1)) (by decide)).imp fun _ h => ⟨h.1, of_decide_eq_true h.2⟩,
    by decide, by decide⟩

/-- Steps that offer an acknowledgement, and two page-data pushes. -/
theorem witness_TransmittedFramesArePushes :
    (∃ t, step (rxReset s0) = .next t ∧ t.tx.length = 1) ∧
    ∃ t, step (rxOf [1, 0x80, 1, 0, 0, 0] s0) = .next t ∧ t.tx.length = 2 :=
  ⟨(next_of_after (p := fun t => decide (t.tx.length = 1)) (by decide)).imp fun _ h => ⟨h.1, of_decide_eq_true h.2⟩,
    (next_of_after (p := fun t => decide (t.tx.length = 2)) (by decide)).imp fun _ h => ⟨h.1, of_decide_eq_true h.2⟩⟩

/-- An empty schedule, and an arrival. -/
theorem witness_RunStepsAreOfferedByTheEnvironment :
    s0.phase = .run ∧ s0.sched = [] ∧ (∃ t, step s0 = .next t) ∧ (Event.arrive (frame [])).blockPart = none ∧
    ∃ t, step { s0 with sched := [.arrive (frame [])] } = .next t :=
  ⟨by decide, by decide, (next_of_after (p := fun _ => true) (by decide)).imp fun _ h => h.1, by decide,
    (next_of_after (p := fun _ => true) (by decide)).imp fun _ h => h.1⟩

/-- A step that commits a page. -/
theorem witness_StepOutputsAccountForTheChanges :
    Machine.Inv (rxOf [3, 0x80, 1, 0, 3, 0, 4, 0] half2) ∧
    ∃ t, step (rxOf [3, 0x80, 1, 0, 3, 0, 4, 0] half2) = .next t ∧ t.mem ≠ half2.mem :=
  ⟨inv_half2.congr_env rfl,
    (next_of_after (p := fun t => decide (t.mem ≠ half2.mem)) (by decide)).imp fun _ h => ⟨h.1, of_decide_eq_true h.2⟩⟩

/-- A frame arrives, and a frame is consumed. -/
theorem witness_ReceiveQueueChangesAsOffered :
    (∃ t, step { s0 with sched := [.arrive (frame [])] } = .next t ∧ t.rxQueue = [frame []]) ∧
    ∃ t, step (rxReset s0) = .next t ∧ t.rxQueue = [] :=
  ⟨(next_of_after (p := fun t => decide (t.rxQueue = [frame []])) (by decide)).imp fun _ h =>
      ⟨h.1, of_decide_eq_true h.2⟩,
    (next_of_after (p := fun t => decide (t.rxQueue = [])) (by decide)).imp fun _ h => ⟨h.1, of_decide_eq_true h.2⟩⟩

/-- RESET received, and a tick that expires. -/
theorem witness_SentinelOnlyFromResetOrTimeout :
    s0.cfg.magicPor = .cleared ∧ s0.magic ≠ s0.cfg.sentinel ∧
    (∃ t, step (rxReset s0) = .next t ∧ t.magic = s0.cfg.sentinel) ∧
    ∃ t, step { s0 with timer := 2, sched := [.block .tick] } = .next t ∧ t.magic = s0.cfg.sentinel :=
  ⟨by decide, by decide,
    (next_of_after (p := fun t => decide (t.magic = s0.cfg.sentinel)) (by decide)).imp fun _ h =>
      ⟨h.1, of_decide_eq_true h.2⟩,
    (next_of_after (p := fun t => decide (t.magic = s0.cfg.sentinel)) (by decide)).imp fun _ h =>
      ⟨h.1, of_decide_eq_true h.2⟩⟩

/-- RUN left by RESET, by a fault, and by a reset. -/
theorem witness_RunIsLeftOnlyByRebootFaultOrReset :
    s0.phase = .run ∧ (∃ t, step (rxReset s0) = .next t ∧ t.phase = .resetPending) ∧
    (∃ t, step (rxOf [1, 0x80, 1, 0, 4, 0] s0) = .next t ∧ t.phase = .fault) ∧
    ∃ t, step { s0 with sched := [.reset .sysReset] } = .next t ∧ t.phase = .boot :=
  ⟨by decide,
    (next_of_after (p := fun t => decide (t.phase = .resetPending)) (by decide)).imp fun _ h =>
      ⟨h.1, of_decide_eq_true h.2⟩,
    (next_of_after (p := fun t => decide (t.phase = .fault)) (by decide)).imp fun _ h =>
      ⟨h.1, of_decide_eq_true h.2⟩,
    (next_of_after (p := fun t => decide (t.phase = .boot)) (by decide)).imp fun _ h =>
      ⟨h.1, of_decide_eq_true h.2⟩⟩

/-- Three ticks from S0, with an `Rx` after them. -/
theorem witness_UndisturbedTimeoutRebootsOnce :
    Machine.Inv { s0 with sched := List.replicate 3 (.block .tick) ++ [.block .rx] } ∧ s0.phase = .run ∧
    s0.timeoutEnabled = true ∧ s0.timer + 3 = s0.cfg.timeoutTicks :=
  ⟨inv_s0.congr_env rfl, by decide, by decide, by decide⟩

theorem witness_ResetCycleStartsTheApplication :
    s0.cfg.admissible = true ∧ s0.phase = .run ∧
    HeadFrame { rxReset s0 with sched := [.block .rx, .reset .sysReset, .block .boot] } (.reset s0.cfg.nodeId []) :=
  ⟨by decide, by decide, headFrame_reset _⟩

theorem witness_CutsAtTheEndsOfAStep :
    s0.cfg.admissible = true ∧ s0.phase ≠ .fault ∧
    { rxReset s0 with sched := [.cut .rx 6 true .sysReset] }.sched = [.cut .rx 6 true .sysReset] ∧
    blockEnabled .rx (rxReset s0) = true ∧ eventRefusal .rx (rxReset s0) = none ∧
    (eventActions .rx (rxReset s0)).length ≤ 6 := by decide

/-- An erased page and a written one, cut at the first and at the last word. -/
theorem witness_TornCommitLeavesAPrefix :
    (Machine.Inv { rxOf [3, 0x80, 1, 0, 3, 0, 4, 0] half2 with sched := [.cut .rx (5 + 3) true .sysReset] } ∧
      half2.phase = .run ∧ half2.programmingMode = true ∧ half2.cursor.toNat + 2 = half2.cfg.pageWords ∧
      half2.cfg.flashReliable = true ∧ readWord half2 half2.currentPage.toNat 0 = 0xFFFF ∧
      HeadFrame { rxOf [3, 0x80, 1, 0, 3, 0, 4, 0] half2 with sched := [.cut .rx (5 + 3) true .sysReset] }
        (.pageData half2.cfg.nodeId [3, 4]) ∧ 0 < half2.cfg.pageWords ∧ 3 < half2.cfg.pageWords) ∧
    (Machine.Inv { rxOf [3, 0x80, 1, 0, 3, 0, 4, 0] halfDirty with sched := [.cut .rx (5 + 0) false .powerOn] } ∧
      halfDirty.phase = .run ∧ halfDirty.programmingMode = true ∧
      halfDirty.cursor.toNat + 2 = halfDirty.cfg.pageWords ∧
      readWord halfDirty halfDirty.currentPage.toNat 0 ≠ 0xFFFF ∧
      HeadFrame { rxOf [3, 0x80, 1, 0, 3, 0, 4, 0] halfDirty with sched := [.cut .rx (5 + 0) false .powerOn] }
        (.pageData halfDirty.cfg.nodeId [3, 4])) :=
  ⟨⟨inv_half2.congr_env rfl, by decide, by decide, by decide, by decide, by decide,
      headFrame_rxOf (ws := [0x8003, 1, 3, 4]) (by decide) (by decide) (by decide) _, by decide, by decide⟩,
    inv_halfDirty.congr_env rfl, by decide, by decide, by decide, by decide,
    headFrame_rxOf (ws := [0x8003, 1, 3, 4]) (by decide) (by decide) (by decide) _⟩

theorem witness_TornEraseLeavesDraws :
    s0.cfg.admissible = true ∧ s0.phase = .run ∧ (2 : Word).toNat < s0.cfg.availablePages ∧
    (2 : Word).toNat % s0.cfg.pagesPerSector = 0 ∧
    HeadFrame { rxOf [2, 0x80, 1, 0, 2, 0] s0 with sched := [.cut .rx 6 true .sysReset] }
      (.writePage s0.cfg.nodeId [2]) :=
  ⟨by decide, by decide, by decide, by decide,
    headFrame_rxOf (ws := [0x8002, 1, 2]) (by decide) (by decide) (by decide) _⟩

theorem witness_InterruptedRebootLatch :
    s0.cfg.admissible = true ∧ s0.phase = .run ∧ s0.cfg.magicPor = .cleared ∧
    HeadFrame { rxReset s0 with sched := [.cut .rx 3 true .sysReset] } (.reset s0.cfg.nodeId []) ∧
    HeadFrame { rxReset s0 with sched := [.cut .rx 4 false .powerOn] } (.reset s0.cfg.nodeId []) ∧
    s0.timeoutEnabled = true ∧ { s0 with timer := 2 }.timer + 1 = s0.cfg.timeoutTicks ∧
    { s0 with sched := [.cut .tick 1 true .sysReset] }.sched = [.cut .tick 1 true .sysReset] :=
  ⟨by decide, by decide, by decide, headFrame_reset _, headFrame_reset _, by decide, by decide, by decide⟩

/-- A sector head, and page 3 of a sector erased before. -/
theorem witness_CompletePageIsProgrammedInOrder :
    Machine.Inv s0 ∧ s0.phase = .run ∧ s0.cfg.flashReliable = true ∧ (2 : Word).toNat < s0.cfg.availablePages ∧
    (2 : Word).toNat % s0.cfg.pagesPerSector = 0 ∧ [1, 2, 3, (4 : Word)].length = s0.cfg.pageWords ∧
    Machine.Inv open2 ∧ open2.phase = .run ∧ (3 : Word).toNat < open2.cfg.availablePages ∧
    (3 : Word).toNat % open2.cfg.pagesPerSector ≠ 0 ∧
    ∀ i, i < open2.cfg.pageWords → readWord open2 (3 : Word).toNat i = 0xFFFF :=
  ⟨inv_s0, by decide, by decide, by decide, by decide, by decide, inv_open2, by decide, by decide, by decide, by decide⟩

end Sys2Proof.Tests
end

section
/-! Proofs of the family 00_scope.md: the admissible configurations (R10, R11, R13, R65) and the outputs of a step (R9). -/

namespace Sys2Proof.Config

/-- The geometry of R10 and R13: the region is not empty, so its last sector's id bounds the first's, and its end the base. -/
theorem geometryOk_iff (c : Config) : c.geometryOk = true ↔
    (c.pageWords % 2 = 0 ∧ 2 ≤ c.pageWords ∧ c.pageWords ≤ 32768) ∧
    (2 ≤ c.pagesPerSector ∧ c.pagesPerSector ≤ 65535) ∧
    (c.availablePages % c.pagesPerSector = 0 ∧ 1 ≤ c.availablePages ∧ c.availablePages ≤ 65535) ∧
    (c.flashBase % (2 * c.pageWords * c.pagesPerSector) = 0 ∧ c.flashBase < 2 ^ 32 ∧
      c.flashBase + c.availablePages * (2 * c.pageWords) ≤ 2 ^ 32) ∧
    (c.firstSectorId ≤ 65535 ∧ c.firstSectorId + c.availablePages / c.pagesPerSector - 1 ≤ 65535) := by
  simp only [geometryOk, Bool.and_eq_true, decide_eq_true_eq]
  simp only [flashEnd, sectorBytes, sectors, pageBytes]
  constructor
  · rintro ⟨⟨⟨⟨⟨hwords, hper⟩, havail⟩, hbase⟩, hend⟩, hid⟩
    have hsectors : 0 < c.availablePages / c.pagesPerSector :=
      Nat.div_pos (Nat.le_of_dvd havail.2.1 (Nat.dvd_of_mod_eq_zero havail.1)) (by omega)
    have hbytes : 0 < c.availablePages * (2 * c.pageWords) := Nat.mul_pos havail.2.1 (by omega)
    exact ⟨hwords, hper, havail, ⟨hbase, by omega, hend⟩, by omega, by omega⟩
  · rintro ⟨hwords, hper, havail, ⟨hbase, _, hend⟩, _, hid⟩
    exact ⟨⟨⟨⟨⟨hwords, hper⟩, havail⟩, hbase⟩, hend⟩, by omega⟩

/-- R65's bound on the node id concerns the REF layout only. -/
theorem txIdOk_iff (c : Config) : c.txIdOk = true ↔ ∀ type, c.txId = .typeAndNode type → c.nodeId.toNat ≤ 0x00FF := by
  unfold txIdOk
  cases c.txId <;> simp

end Sys2Proof.Config

namespace Sys2Proof.Machine.Memory

/-- Each address is listed once in canonical form, so a filter keeps or drops the one byte listed there. -/
theorem get?_filter_of_wf {m : Memory} (hm : wf m) (p : Host.Cell → Bool) (x : Nat) :
    get? (m.filter p) x = (get? m x).filter fun v => p (x, v) := by
  induction m with
  | nil => rfl
  | cons c m ih =>
    obtain ⟨b, v⟩ := c
    obtain ⟨hlt, hwf⟩ := List.pairwise_cons.1 hm
    by_cases hb : b = x
    · subst hb
      have hrest : get? (m.filter p) b = none :=
        get?_eq_none_of_lt fun d hd => hlt d (List.mem_of_mem_filter hd)
      by_cases hp : p (b, v) = true <;> simp [get?, hp, hrest, Option.filter_some]
    · by_cases hp : p (b, v) = true <;> simp [get?, hp, hb, ih hwf]

/-- Every address listed in the first memory is listed in the second. -/
def Covers (m n : Memory) : Prop := ∀ x, get? n x = none → get? m x = none

/-- A write unlists no address. -/
theorem Covers.write {m n : Memory} (h : Covers m n) (a : Nat) (bs : List Byte) : Covers m (Memory.write n a bs) := by
  intro x hx
  rw [get?_write] at hx
  split at hx
  · rw [List.getElem?_eq_none_iff] at hx
    omega
  · exact h x hx

end Sys2Proof.Machine.Memory

namespace Sys2Proof.Machine

/-- A new flash that lists at least what the old one did: where the changes list no byte, the old byte stands. -/
theorem readByte_eq_flashChanges {s t : State} (hwf : Memory.wf t.mem) (hcov : Memory.Covers s.mem t.mem) (x : Nat) :
    t.mem.readByte x = ((flashChanges s t).get? x).getD (s.mem.readByte x) := by
  rw [flashChanges, Memory.get?_filter_of_wf hwf]
  cases hx : t.mem.get? x with
  | none => simp [Memory.readByte, hx, hcov x hx]
  | some v =>
    have ht : t.mem.readByte x = v := by simp [Memory.readByte, hx]
    by_cases hv : s.mem.readByte x = v <;> simp [ht, hv, Option.filter_some]

/-- An action leaves flash alone or writes one run of bytes (R40). -/
theorem perform_mem_cases (a : Action) (s : State) :
    (perform a s).mem = s.mem ∨ ∃ x bs, (perform a s).mem = s.mem.write x bs := by
  cases a with
  | eraseSector sid =>
    rcases eraseSector_cases sid s with ⟨_, e⟩ | ⟨_, _, _, e⟩ | ⟨_, _, _, e⟩ <;> rw [perform, e]
    · exact .inl rfl
    all_goals exact .inr ⟨_, _, rfl⟩
  | memWrite addr v =>
    rcases memWrite_cases addr v s with ⟨_, e⟩ | ⟨_, _, _, _, e⟩ | ⟨_, _, _, e⟩ <;> rw [perform, e]
    · exact .inl rfl
    all_goals exact .inr ⟨_, _, rfl⟩
  | _ => exact .inl (perform_mem rfl s)

/-- So does an action in progress at a cut (R158.3). -/
theorem tear_mem_cases (a : Action) (s : State) :
    (tear a s).mem = s.mem ∨ ∃ x bs, (tear a s).mem = s.mem.write x bs := by
  cases a with
  | eraseSector sid =>
    rw [tear]
    split
    · exact .inr ⟨_, _, rfl⟩
    · exact .inl rfl
  | memWrite addr v =>
    rw [tear]
    split
    · exact .inr ⟨_, _, rfl⟩
    · exact .inl rfl
  | _ => exact .inl rfl

/-- Flash left alone, or written, covers what it covered. -/
theorem covers_of_mem_cases {m n n' : Memory} (h : Memory.Covers m n) (hn : n' = n ∨ ∃ x bs, n' = Memory.write n x bs) :
    Memory.Covers m n' := by
  obtain rfl | ⟨x, bs, rfl⟩ := hn
  · exact h
  · exact h.write x bs

/-- What a step that starts from `s` keeps of flash up to the state `u`: its form, its region, and every listed address. -/
structure FlashKept (s u : State) : Prop where
  memOk : MemOk u
  cfg : u.cfg = s.cfg
  covers : Memory.Covers s.mem u.mem

theorem FlashKept.perform {s u : State} (h : FlashKept s u) (hc : s.cfg.Admissible) (a : Action) :
    FlashKept s (perform a u) where
  memOk := h.memOk.perform (h.cfg ▸ hc) a
  cfg := (perform_cfg a u).trans h.cfg
  covers := covers_of_mem_cases h.covers (perform_mem_cases a u)

theorem FlashKept.tear {s u : State} (h : FlashKept s u) (hc : s.cfg.Admissible) (a : Action) :
    FlashKept s (tear a u) where
  memOk := h.memOk.tear (h.cfg ▸ hc) a
  cfg := by
    obtain ⟨_, _, e⟩ := tear_eq a u
    rw [e]
    exact h.cfg
  covers := covers_of_mem_cases h.covers (tear_mem_cases a u)

theorem FlashKept.applyReset {s u : State} (h : FlashKept s u) (k : ResetKind) : FlashKept s (applyReset k u) where
  memOk := h.memOk.congr (applyReset_mem k u) (applyReset_cfg k u)
  cfg := (applyReset_cfg k u).trans h.cfg
  covers := by
    rw [applyReset_mem]
    exact h.covers

/-- A step keeps flash in order and unlists no byte, whole or cut. -/
theorem step_flashKept {s t : State} (hi : Inv s) (h : step s = .next t) : FlashKept s t := by
  have hc := Config.Admissible.of hi.admissible
  have hstep := step_invariant h (P := FlashKept s)
    (start := fun _ _ => ⟨⟨hi.memWf, hi.memInRegion⟩, rfl, fun _ hx => hx⟩)
    (act := fun _ _ a _ _ _ hu => hu.perform hc a) (torn := fun a _ _ hu => hu.tear hc a)
  rcases hstep with ht | ⟨k, u, hu, _, rfl, _⟩
  · exact ht
  · exact hu.applyReset k

/-- Settles O47: a step only ever writes runs of bytes in the region, so no listed byte becomes unlisted, and the canonical
form lists each address once. -/
theorem stepOutputsAccountForTheChanges : Obligations.StepOutputsAccountForTheChanges := by
  intro s t hi h
  obtain ⟨⟨hwf, hregion⟩, hcfg, hcov⟩ := step_flashKept hi h
  refine ⟨readByte_eq_flashChanges hwf hcov, fun c hc => ?_, ?_⟩
  · obtain ⟨hmem, hne⟩ := List.mem_filter.1 hc
    exact ⟨of_decide_eq_true hne, hcfg ▸ hregion c hmem⟩
  · simp only [stepOutput, magicChange]
    split
    next heq => exact heq
    next => rfl

/-- Settles O21: the clauses of `admissible` are the spec's, once the geometry and the identifier layout are spelled out. -/
theorem admissibleConfigurationsMeetTheClauses : Obligations.AdmissibleConfigurationsMeetTheClauses := by
  intro c
  simp only [Config.admissible, Bool.and_eq_true, c.geometryOk_iff, c.txIdOk_iff, Config.opcodesOk, Config.statusesOk,
    decide_eq_true_eq]
  constructor
  · rintro ⟨⟨⟨⟨⟨⟨hwords, hper, havail, hregion, hids⟩, hops⟩, hsts⟩, htx⟩, hmagic⟩, hticks⟩
    exact ⟨hwords, hper, havail, hregion, hids, hops, hsts, hmagic, hticks, htx⟩
  · rintro ⟨hwords, hper, havail, hregion, hids, hops, hsts, hmagic, hticks, htx⟩
    exact ⟨⟨⟨⟨⟨⟨hwords, hper, havail, hregion, hids⟩, hops⟩, hsts⟩, htx⟩, hmagic⟩, hticks⟩

/-- Settles O22: the check of the configuration comes first in a step. -/
theorem inadmissibleConfigurationIsRefused : Obligations.InadmissibleConfigurationIsRefused :=
  fun _ h => if_pos h

end Sys2Proof.Machine

end

section
/-! Proofs of the family 10_state.md: the invariants (R33 to R38), what survives a reset, who writes the latch, the timeout and
the receive queue, and a page programmed in order (R39). -/

namespace Sys2Proof.Machine

/-! ### The invariants under the pieces of the commands -/

@[simp] theorem disarmed_cfg (s : State) : (disarmed s).cfg = s.cfg := rfl
@[simp] theorem disarmed_phase (s : State) : (disarmed s).phase = s.phase := rfl

theorem Inv.memOk {s : State} (hi : Inv s) : MemOk s := ⟨hi.memWf, hi.memInRegion⟩

/-- The disarm (R127) keeps the invariants in RUN. -/
theorem Inv.disarmed {s : State} (hi : Inv s) (hp : s.phase = .run) : Inv (disarmed s) :=
  { hi with
    armedTimer := fun h => absurd h (by simp [Machine.disarmed])
    timerBound := Nat.zero_le _
    freshSession := fun h => by simp [Machine.disarmed, hp] at h }

/-- Sends keep the invariants (R95). -/
theorem Inv.sent {s : State} (hi : Inv s) (wss : List (List Word)) : Inv (sent wss s) := hi.congr_env rfl

/-- An acknowledgement keeps the invariants (R102). -/
theorem Inv.ack {s : State} (hi : Inv s) (hp : s.phase = .run) (st : Status) : Inv (run [ack s.cfg st] s) := by
  rw [run_ack (by simp [hp]) rfl]
  exact hi.sent _

/-- The reboot keeps the invariants, also from the count TIMEOUT_TICKS, which only RESET_PENDING allows (R128, log 20). -/
theorem Inv.rebootToApplication {s : State} (hi : Inv s) (hp : s.phase = .run) {v : Nat} (hv : v ≤ s.cfg.timeoutTicks) :
    Inv (run (rebootToApplication s.cfg) (s.setTimer v)) := by
  have e : run (Machine.rebootToApplication s.cfg) (s.setTimer v) =
      { s with timer := v, magic := s.cfg.sentinel, sysResetReq := true, phase := .resetPending } := by
    simp [Machine.rebootToApplication, run, perform, hp, State.setMagic, State.pulseSysResetReq, State.setPhase,
      State.setTimer]
  rw [e]
  exact
    { hi with
      armedTimer := fun _ h => absurd rfl h
      timerBound := hv
      faultRecord := by simpa [hp] using hi.faultRecord
      freshSession := by simp
      latchConsumed := by simp
      latchArmed := fun _ => rfl }

/-- A raised fault keeps the invariants in RUN (R26). -/
theorem Inv.raiseFault {s : State} (hi : Inv s) (hp : s.phase = .run) (r : FaultReason) : Inv (s.raiseFault r) :=
  { hi with
    armedTimer := fun h _ => hi.armedTimer h (by simp [hp])
    faultRecord := by simp
    freshSession := by simp
    latchConsumed := by simp
    latchArmed := by simp }

/-- A command keeps the invariants if its body does on the disarmed state: for another node nothing runs (R106, R107). -/
theorem Inv.run_ifAddressed {s : State} (hi : Inv s) (hp : s.phase = .run) {body : List Action}
    (h : Inv (run body (Machine.disarmed s))) (node : Word) : Inv (run (ifAddressed s.cfg node body) s) := by
  by_cases hn : node = s.cfg.nodeId
  · rw [hn, ifAddressed_self, run_addressed (by simp [hp])]
    exact h
  · rw [ifAddressed_of_ne hn]
    exact hi

theorem Inv.run_resetActions {s : State} (hi : Inv s) (hp : s.phase = .run) (node : Word) (args : List Word) :
    Inv (run (resetActions node args s) s) := by
  refine hi.run_ifAddressed hp ?_ node
  have hd : (Machine.disarmed s).phase ≠ .fault := by simp [hp]
  rw [← List.singleton_append, run_append, run_ack (c := s.cfg) hd rfl]
  exact ((hi.disarmed hp).sent _).rebootToApplication hp (Nat.zero_le _)

theorem Inv.run_readPageActions {s : State} (hi : Inv s) (hp : s.phase = .run) (node : Word) (args : List Word) :
    Inv (run (readPageActions node args s) s) := by
  refine hi.run_ifAddressed hp ?_ node
  have hi := hi.disarmed hp
  have hd : (Machine.disarmed s).phase ≠ .fault := by simp [hp]
  split
  · exact hi.ack hp .invalidSize
  · split
    · rw [pageStream_eq, run_sends _ (by simp [encode]) _ hd]
      exact hi.sent _
    · unfold outOfRangeRead
      split
      · rw [run_cons hd, run_nil, perform]
        exact hi.raiseFault hp _
      · obtain ⟨frames, d, e, _⟩ := run_drawn (s.cfg.pageWords / 2) _ hd
        rw [e]
        exact hi.congr_env rfl

/-- An accepted WRITE_PAGE opens the page: INV1 to INV3 hold of the registers it sets (R116). -/
theorem Inv.openPage_erasePage {s : State} (hi : Inv s) (hp : s.phase = .run) {p : Word}
    (h : p.toNat < s.cfg.availablePages) :
    Inv (run (Machine.openPage p ++ erasePage s.cfg p.toNat) s) ∧
      (run (Machine.openPage p ++ erasePage s.cfg p.toNat) s).phase = .run := by
  have hc := Config.Admissible.of hi.admissible
  have hm := hi.memOk.run hc (Machine.openPage p ++ erasePage s.cfg p.toNat)
  obtain ⟨m, d, e⟩ := run_openPage hc (by simp [hp]) h
  rw [e] at hm ⊢
  exact ⟨{ hi with
    memWf := hm.1
    memInRegion := hm.2
    idleCursor := fun _ => rfl
    openPage := fun _ => ⟨rfl, by simpa using hc.pageWordsPos, h⟩
    openUnlocked := fun _ => rfl
    freshSession := fun h => by simp [hp] at h }, hp⟩

theorem Inv.run_writePageActions {s : State} (hi : Inv s) (hp : s.phase = .run) (node : Word) (args : List Word) :
    Inv (run (writePageActions node args s) s) := by
  refine hi.run_ifAddressed hp ?_ node
  have hi := hi.disarmed hp
  split
  · exact hi.ack hp .invalidSize
  next p _ =>
    split
    next hr =>
      obtain ⟨ho, hop⟩ := hi.openPage_erasePage hp (p := p) (by simpa [pageInRange] using hr)
      rw [run_append]
      simpa using ho.ack hop .ok
    next => exact hi.ack hp .invalidValue

/-- The state after the two buffer entries and the cursor of an accepted PAGE_DATA (R118). -/
def filled (d0 d1 : Word) (s : State) : State :=
  { disarmed s with buf := filledBuf d0 d1 s, cursor := s.cursor + 2 }

/-- The state after a commit (R119), but for the flash it programmed and the draws it took. -/
def committed (d0 d1 : Word) (m : Memory) (d : Nat) (s : State) : State :=
  { filled d0 d1 s with programmingMode := false, cursor := 0, flashUnlocked := false, mem := m, draws := d }

/-- The body of an accepted PAGE_DATA fills the buffer, then commits if the page is full, then acknowledges (R117). -/
theorem run_pageDataBody {s : State} (hi : Inv s) (hp : s.phase = .run) (hm : s.programmingMode = true) (d0 d1 : Word) :
    run ([.setBuf s.cursor.toNat d0, .setBuf (s.cursor.toNat + 1) d1, .setCursor (nextCursor s)] ++
        commitActions d0 d1 s ++ [ack s.cfg .ok]) (disarmed s) =
      run [ack s.cfg .ok] (run (commitActions d0 d1 s) (filled d0 d1 s)) := by
  rw [run_append, run_append, run_fill hi (by simp [hp]) hm]
  rfl

/-- Under the invariants a commit does not fault, and each halfword of the page that it finds erased on reliable flash takes
its word of the filled buffer (R84, R119). -/
theorem run_commitActions {s : State} (hi : Inv s) (hp : s.phase = .run) (hm : s.programmingMode = true) (d0 d1 : Word)
    (hcm : commits s = true) :
    ∃ m d, run (commitActions d0 d1 s) (filled d0 d1 s) = committed d0 d1 m d s ∧
      ∀ i (h : i < (filledBuf d0 d1 s).length), s.cfg.flashReliable = true → readWord s s.currentPage.toNat i = 0xFFFF →
        m.readHalf (pageAddress s.cfg s.currentPage.toNat i) = (filledBuf d0 d1 s)[i] := by
  have hp' : s.phase ≠ .fault := by simp [hp]
  obtain ⟨_, _, hpage⟩ := hi.openPage hm
  have hu : (filled d0 d1 s).flashUnlocked = true := hi.openUnlocked hm
  obtain ⟨m, d, e, _, hw⟩ := run_writes (s := filled d0 d1 s) (Config.Admissible.of hi.admissible) hp' hu hpage
    (filledBuf d0 d1 s) (by rw [length_filledBuf]; exact hi.bufLength.le)
  refine ⟨m, d, ?_, fun i h hf he => (hw i h).1 ⟨hf, he⟩⟩
  simp only [commitActions, hcm, if_true, writePage, List.append_assoc]
  rw [run_append]
  refine (congrArg (run ([.setFlashUnlocked false] ++ closePage)) e).trans ?_
  simp [closePage, run, perform, committed, filled, disarmed, hp, State.setFlashUnlocked, State.setProgrammingMode,
    State.setCursor]

/-- An accepted PAGE_DATA keeps INV1 to INV3: the cursor stays even and below the page, or the page is closed (R118, R119). -/
theorem Inv.run_commitActions {s : State} (hi : Inv s) (hp : s.phase = .run) (hm : s.programmingMode = true)
    (d0 d1 : Word) :
    Inv (run (commitActions d0 d1 s) (filled d0 d1 s)) ∧ (run (commitActions d0 d1 s) (filled d0 d1 s)).phase = .run := by
  have hc := Config.Admissible.of hi.admissible
  have hd := hi.disarmed hp
  have hlen : (filledBuf d0 d1 s).length = s.cfg.pageWords := (length_filledBuf d0 d1 s).trans hi.bufLength
  by_cases hcm : commits s = true
  · have hmem := MemOk.run (s := filled d0 d1 s) hi.memOk hc (commitActions d0 d1 s)
    obtain ⟨m, d, e, _⟩ := Machine.run_commitActions hi hp hm d0 d1 hcm
    rw [e] at hmem ⊢
    exact ⟨{ hd with
      memWf := hmem.1
      memInRegion := hmem.2
      bufLength := hlen
      idleCursor := fun _ => rfl
      openPage := by simp [committed]
      openUnlocked := by simp [committed]
      freshSession := by simp [committed, filled, hp] }, hp⟩
  · have hnext := nextCursor_toNat hi hm
    obtain ⟨heven, hle, hpage⟩ := hi.openPage hm
    have hne : s.cursor.toNat + 2 ≠ s.cfg.pageWords := by simpa [commits, hnext] using hcm
    have hwords := hc.pageWordsEven
    rw [commitActions, if_neg hcm, run_nil]
    exact ⟨{ hd with
      bufLength := hlen
      idleCursor := fun h => absurd (hm.symm.trans h) (by decide)
      openPage := fun _ => by
        show (nextCursor s).toNat % 2 = 0 ∧ (nextCursor s).toNat + 2 ≤ s.cfg.pageWords ∧ _
        exact ⟨by omega, by omega, hpage⟩
      freshSession := by simp [filled, hp] }, hp⟩

theorem Inv.run_pageDataActions {s : State} (hi : Inv s) (hp : s.phase = .run) (node : Word) (args : List Word) :
    Inv (run (pageDataActions node args s) s) := by
  refine hi.run_ifAddressed hp ?_ node
  have hd := hi.disarmed hp
  split
  next => exact hd.ack hp .invalidSize
  next d0 d1 _ =>
    split
    next hm =>
      obtain ⟨hc, hcp⟩ := hi.run_commitActions hp hm d0 d1
      rw [run_pageDataBody hi hp hm]
      simpa [filled] using hc.ack hcp .ok
    next => exact hd.ack hp .notProgramming

/-- Every command keeps the invariants. -/
theorem Inv.run_instrActions {s : State} (hi : Inv s) (hp : s.phase = .run) {i : Instr} (hc : i.isCommand = true) :
    Inv (run (instrActions i s) s) := by
  cases i with
  | reset node args => exact hi.run_resetActions hp node args
  | readPage node args => exact hi.run_readPageActions hp node args
  | writePage node args => exact hi.run_writePageActions hp node args
  | pageData node args => exact hi.run_pageDataActions hp node args
  | pushDescription | pushPageData | pushAck => exact absurd hc (by simp [Instr.isCommand])

/-! ### The invariants under the steps of the block -/

/-- `Boot` consumes the sentinel or leaves a latch without it (R73). -/
theorem Inv.run_bootActions {s : State} (hi : Inv s) (hp : s.phase = .boot) : Inv (run (bootActions s) s) := by
  have hc := Config.Admissible.of hi.admissible
  unfold bootActions
  split
  next =>
    have e : run [.setMagic s.cfg.magicClear, .pulseJumpApp, .setPhase .app] s =
        { s with magic := s.cfg.magicClear, jumpApp := true, phase := .app } := by
      simp [run, perform, hp, State.setMagic, State.pulseJumpApp, State.setPhase]
    rw [e]
    exact { hi with
      armedTimer := fun h _ => hi.armedTimer h (by simp [hp])
      faultRecord := by simpa [hp] using hi.faultRecord
      freshSession := by simp
      latchConsumed := fun _ => Ne.symm hc.sentinelNe
      latchArmed := by simp }
  next hm =>
    rw [run_cons (by simp [hp]), run_nil, perform]
    exact { hi with
      armedTimer := fun h _ => hi.armedTimer h (by simp [hp])
      faultRecord := by simpa [hp] using hi.faultRecord
      freshSession := fun _ => hi.freshSession (.inl hp)
      latchConsumed := fun _ => hm
      latchArmed := by simp [State.setPhase] }

/-- `Init` sends the description and arms the timeout at 0 (R124, R125). -/
theorem run_initActions {s : State} (hp : s.phase ≠ .fault) :
    ∃ wss, run (initActions s) s = { sent wss s with timeoutEnabled := true, timer := 0, phase := .run } := by
  refine ⟨[encode s.cfg (.pushDescription s.cfg.descPageSize s.cfg.firstPageIndex (u16 s.cfg.availablePages))], ?_⟩
  rw [initActions, ← List.singleton_append, run_append, push, run_send (by simp [encode]) hp]
  simp [run, perform, sent, hp, State.setTimeoutEnabled, State.setTimer, State.setPhase]

theorem Inv.run_initActions {s : State} (hi : Inv s) (hp : s.phase = .init) : Inv (run (initActions s) s) := by
  have hpos := (Config.Admissible.of hi.admissible).timeoutPos
  obtain ⟨wss, e⟩ := Machine.run_initActions (s := s) (by simp [hp])
  rw [e]
  exact { hi.sent wss with
    armedTimer := fun _ _ => hpos
    timerBound := Nat.zero_le _
    faultRecord := by simpa [Machine.sent, hp] using hi.faultRecord
    freshSession := by simp
    latchConsumed := fun _ => hi.latchConsumed (.inl hp)
    latchArmed := by simp }

/-- `Tick` counts below TIMEOUT_TICKS, or reboots at it (R128). -/
theorem Inv.run_tickActions {s : State} (hi : Inv s) (hp : s.phase = .run) : Inv (run (tickActions s) s) := by
  unfold tickActions
  split
  next hen =>
    have hlt := hi.armedTimer hen (by simp [hp])
    rw [run_cons (by simp [hp]), perform]
    split
    next => exact hi.rebootToApplication hp hlt
    next hne =>
      rw [run_nil]
      exact { hi with
        armedTimer := fun _ _ => by show s.timer + 1 < s.cfg.timeoutTicks; omega
        timerBound := hlt
        freshSession := by simp [hp] }
  next => exact hi

theorem phase_of_blockEnabled_rx {s : State} (he : blockEnabled .rx s = true) : s.phase = .run := by
  simp only [blockEnabled, Bool.and_eq_true, decide_eq_true_eq] at he
  exact he.1

/-- A whole step of the block keeps the invariants. -/
theorem Inv.run_eventActions {s : State} {e : BlockEvent} (hi : Inv s) (he : blockEnabled e s = true) :
    Inv (run (eventActions e s) (stepStart e s)) := by
  cases e with
  | boot => exact hi.run_bootActions (of_decide_eq_true he)
  | init => exact hi.run_initActions (of_decide_eq_true he)
  | tick => exact hi.run_tickActions (of_decide_eq_true he)
  | rx =>
    have hq : Inv (takeFrame s) := hi.congr_env rfl
    have hp := phase_of_blockEnabled_rx he
    rcases eventActions_rx_cases s with ⟨i, hc, e⟩ | e | e <;> rw [e]
    · exact hq.run_instrActions hp hc
    · exact hq
    · rw [← List.append_nil addressed, run_addressed (by simp [hp])]
      exact hq.disarmed hp

/-! ### Cut steps -/

/-- A fault ends the run, so first actions that fault are the whole run (R16). -/
theorem run_take_of_fault {as : List Action} {n : Nat} {s : State} (h : (run (as.take n) s).phase = .fault) :
    run (as.take n) s = run as s := by
  conv_rhs => rw [← List.take_append_drop n as, run_append, run_of_fault h]

/-- A cut step is the whole step where it faults before the cut, and otherwise a reset of what the first `n` actions left, but
for flash and the count of draws, which the action in progress may have changed (R158). -/
theorem cutStep_cases (e : BlockEvent) (n : Nat) (torn : Bool) (k : ResetKind) (s : State) :
    cutStep e n torn k s = run (eventActions e s) (stepStart e s) ∨
    ∃ m d, cutStep e n torn k s =
      applyReset k { run ((eventActions e s).take n) (stepStart e s) with mem := m, draws := d } := by
  obtain ⟨m, d, e1⟩ := prefixState_eq e n torn s
  by_cases hf : (run ((eventActions e s).take n) (stepStart e s)).phase = .fault
  · left
    have hleft : prefixState e n torn s = run ((eventActions e s).take n) (stepStart e s) := by
      unfold prefixState
      split <;> simp [hf]
    rw [cutStep, hleft, if_pos hf, run_take_of_fault hf]
  · right
    refine ⟨m, d, ?_⟩
    rw [cutStep, e1]
    exact if_neg hf

/-- Settles O39: the whole steps keep the invariants action by action, a cut step is a whole step that faulted or ends in a
reset, and a reset establishes them on any flash in order. -/
theorem stepKeepsInvariants : Obligations.StepKeepsInvariants := by
  intro s t hi h
  have hflash := step_flashKept hi h
  have hstart : ∀ q rest, Inv ((s.clearOutputs.setSched rest).setRxQueue q) := fun _ _ => hi.congr_env rfl
  have hreset : ∀ k u, t = applyReset k u → Inv t := by
    rintro k u rfl
    obtain ⟨hm, hc, _⟩ := hflash
    rw [applyReset_cfg] at hc
    exact Inv.of_applyReset (hc ▸ hi.admissible) (hm.congr (applyReset_mem k u).symm (applyReset_cfg k u).symm) k
  obtain ⟨_, _, hcase⟩ := step_next h
  cases hcase with
  | idle hu =>
    rcases hu with rfl | ⟨_, rest, _, rfl⟩
    · exact hstart s.rxQueue s.sched
    · exact hstart s.rxQueue rest
  | reset => exact hreset _ _ rfl
  | internal he =>
    have hi' : Inv s.clearOutputs := hstart s.rxQueue s.sched
    rcases he with ⟨rfl, hp⟩ | ⟨rfl, hp⟩
    · exact hi'.run_bootActions hp
    · exact hi'.run_initActions hp
  | @block e rest _ he _ => exact (hstart s.rxQueue rest).run_eventActions he
  | @cut e n torn k rest _ he _ =>
    rcases cutStep_cases e n torn k (s.clearOutputs.setSched rest) with hcut | ⟨m, d, hcut⟩
    · rw [hcut]
      exact (hstart s.rxQueue rest).run_eventActions he
    · exact hreset _ _ hcut
  | arrive => exact hstart _ _
  | lose => exact hstart _ _

/-! ### Who writes the latch and the timeout -/

/-- An action that writes none of the latch, `timer` and `timeout_enabled`. -/
def Action.keepsLatchAndTimeout : Action → Bool
  | .setTimer _ => false
  | .setTimeoutEnabled _ => false
  | .setMagic _ => false
  | _ => true

theorem perform_keepsLatchAndTimeout {a : Action} (h : a.keepsLatchAndTimeout = true) (s : State) :
    (perform a s).magic = s.magic ∧ (perform a s).timer = s.timer ∧ (perform a s).timeoutEnabled = s.timeoutEnabled := by
  cases a with
  | setTimer | setTimeoutEnabled | setMagic => simp [Action.keepsLatchAndTimeout] at h
  | setBuf i v => rcases writeBuf_cases i v s with ⟨_, e⟩ | ⟨_, e⟩ <;> simp [perform, e]
  | eraseSector sid =>
    rcases eraseSector_cases sid s with ⟨_, e⟩ | ⟨_, _, _, e⟩ | ⟨_, _, _, e⟩ <;> simp [perform, e, scramble]
  | memWrite x v =>
    rcases memWrite_cases x v s with ⟨_, e⟩ | ⟨_, _, _, _, e⟩ | ⟨_, _, _, e⟩ <;> simp [perform, e, scramble]
  | send ws => rcases send_cases ws s with e | e <;> simp [perform, e]
  | sendDrawn => simp [perform]
  | _ => exact ⟨rfl, rfl, rfl⟩

theorem mem_ifAddressed {c : Config} {node : Word} {body : List Action} {a : Action} (h : a ∈ ifAddressed c node body) :
    node = c.nodeId ∧ (a ∈ addressed ∨ a ∈ body) := by
  unfold ifAddressed at h
  split at h
  next hn => exact ⟨of_decide_eq_true hn, List.mem_append.1 h⟩
  next => simp at h

theorem commitActions_keepsLatchAndTimeout (d0 d1 : Word) (s : State) :
    ∀ a ∈ commitActions d0 d1 s, a.keepsLatchAndTimeout = true := by
  unfold commitActions
  split
  · simp only [writePage, closePage, List.forall_mem_append, List.mem_mapIdx]
    refine ⟨⟨?_, by simp [Action.keepsLatchAndTimeout]⟩, by simp [Action.keepsLatchAndTimeout]⟩
    rintro _ ⟨i, _, rfl⟩
    rfl
  · simp

/-- A command writes the timeout by the disarm alone (R127), and the latch only as a RESET of this node (R109). -/
theorem mem_instrActions_cases {i : Instr} (hi : i.isCommand = true) {s : State} {a : Action} (h : a ∈ instrActions i s) :
    a.keepsLatchAndTimeout = true ∨ a ∈ addressed ∨
      a = .setMagic s.cfg.sentinel ∧ ∃ args, i = .reset s.cfg.nodeId args := by
  have hbody : ∀ {node body}, a ∈ ifAddressed s.cfg node body → (∀ b ∈ body, b.keepsLatchAndTimeout = true) →
      a.keepsLatchAndTimeout = true ∨ a ∈ addressed ∨
        a = .setMagic s.cfg.sentinel ∧ ∃ args, i = .reset s.cfg.nodeId args := fun ha hb =>
    (mem_ifAddressed ha).2.elim (.inr ∘ .inl) fun ha => .inl (hb a ha)
  cases i with
  | reset node args =>
    obtain ⟨rfl, ha | ha⟩ := mem_ifAddressed h
    · exact .inr (.inl ha)
    · simp only [ack, push, rebootToApplication, List.mem_cons, List.not_mem_nil, or_false] at ha
      rcases ha with rfl | rfl | rfl | rfl
      · exact .inl rfl
      · exact .inr (.inr ⟨rfl, args, rfl⟩)
      · exact .inl rfl
      · exact .inl rfl
  | readPage node args =>
    refine hbody h ?_
    split
    · simp [ack, push, Action.keepsLatchAndTimeout]
    · split
      · simp [pageStream, push, Action.keepsLatchAndTimeout]
      · unfold outOfRangeRead
        split <;> simp [Action.keepsLatchAndTimeout]
  | writePage node args =>
    refine hbody h ?_
    split
    · simp [ack, push, Action.keepsLatchAndTimeout]
    · split
      · unfold openPage erasePage
        split <;> simp [ack, push, Action.keepsLatchAndTimeout]
      · simp [ack, push, Action.keepsLatchAndTimeout]
  | pageData node args =>
    refine hbody h ?_
    split
    · simp [ack, push, Action.keepsLatchAndTimeout]
    · split
      · simp only [List.forall_mem_append]
        exact ⟨⟨by simp [Action.keepsLatchAndTimeout], commitActions_keepsLatchAndTimeout _ _ _⟩,
          by simp [ack, push, Action.keepsLatchAndTimeout]⟩
      · simp [ack, push, Action.keepsLatchAndTimeout]
  | pushDescription | pushPageData | pushAck => exact absurd hi (by simp [Instr.isCommand])

theorem strayActions_cases (c : Config) (ws : List Word) : strayActions c ws = [] ∨ strayActions c ws = addressed := by
  unfold strayActions
  split
  · unfold ifAddressed
    split <;> simp
  · exact .inl rfl

/-- The actions of an `Rx` step: those of the command that the frame at the head of the queue decodes to, or at most the
disarm (R91, R106, R121). -/
theorem eventActions_rx_headFrame {s : State} (hr : eventRefusal .rx s = none) :
    (∃ i, HeadFrame s i ∧ i.isCommand = true ∧ eventActions .rx s = instrActions i (takeFrame s)) ∨
    eventActions .rx s = [] ∨ eventActions .rx s = addressed := by
  simp only [eventActions]
  split
  next => exact .inr (.inl rfl)
  next f q hq =>
    have hf : f.wellFormed = true := by simpa [eventRefusal, hq] using hr
    unfold rxActions
    split
    next => exact .inr (.inl rfl)
    next ws hws =>
      split
      next i hd => exact .inl ⟨i, ⟨f, q, ws, hq, hf, hws, hd⟩, isCommand_of_decodeCommand hd, rfl⟩
      next => exact .inr (strayActions_cases _ ws)

/-- The steps of the block that put the sentinel in the latch: a RESET of this node, and the tick that expires the timeout
(R75, R109, R128). -/
def Reboots (e : BlockEvent) (s : State) : Prop :=
  s.phase = .run ∧
    ((e = .rx ∧ ∃ args, HeadFrame s (.reset s.cfg.nodeId args)) ∨
     (e = .tick ∧ s.timeoutEnabled = true ∧ s.timer + 1 = s.cfg.timeoutTicks))

theorem mem_addressed {a : Action} (h : a ∈ addressed) : a = .setTimer 0 ∨ a = .setTimeoutEnabled false := by
  simpa [addressed] using h

/-- Without the sentinel in the latch, every other step leaves the latch alone. -/
theorem perform_magic_of_not_reboots {e : BlockEvent} {s : State} (he : blockEnabled e s = true)
    (hr : eventRefusal e s = none) (hm : s.magic ≠ s.cfg.sentinel) (hn : ¬ Reboots e s) :
    ∀ a ∈ eventActions e s, ∀ u, (perform a u).magic = u.magic := by
  intro a ha u
  cases e with
  | boot =>
    obtain rfl : a = .setPhase .init := by simpa [eventActions, bootActions, hm] using ha
    rfl
  | init =>
    simp only [eventActions, initActions, push, List.mem_cons, List.not_mem_nil, or_false] at ha
    rcases ha with rfl | rfl | rfl | rfl
    · exact (perform_keepsLatchAndTimeout rfl u).1
    all_goals rfl
  | tick =>
    by_cases ht : s.timeoutEnabled = true
    · have hne : s.timer + 1 ≠ s.cfg.timeoutTicks := fun h => hn ⟨of_decide_eq_true he, .inr ⟨rfl, ht, h⟩⟩
      obtain rfl : a = .setTimer (s.timer + 1) := by simpa [eventActions, tickActions, ht, hne] using ha
      rfl
    · simp [eventActions, tickActions, ht] at ha
  | rx =>
    rcases eventActions_rx_headFrame hr with ⟨i, hf, hi, e⟩ | e | e <;> rw [e] at ha
    · rcases mem_instrActions_cases hi ha with hk | ha | ⟨_, args, rfl⟩
      · exact (perform_keepsLatchAndTimeout hk u).1
      · rcases mem_addressed ha with rfl | rfl <;> rfl
      · exact absurd ⟨phase_of_blockEnabled_rx he, .inl ⟨rfl, args, hf⟩⟩ hn
    · simp at ha
    · rcases mem_addressed ha with rfl | rfl <;> rfl

/-- Under MAGIC_POR = cleared no reset puts the sentinel in the latch (R33, R34). -/
theorem applyReset_magic_ne_sentinel {s : State} (hc : s.cfg.Admissible) (hpor : s.cfg.magicPor = .cleared)
    (hm : s.magic ≠ s.cfg.sentinel) (k : ResetKind) : (applyReset k s).magic ≠ s.cfg.sentinel := by
  cases k
  · rw [applyReset, powerOnMagic, hpor]
    exact Ne.symm hc.sentinelNe
  · exact hm

/-- A scheduled step that reboots, whole or cut, is one of the two causes. -/
theorem Reboots.scheduled {b : BlockEvent} {s : State} (h : Reboots b s) {ev : Event} {rest : List Event}
    (hs : s.sched = ev :: rest) (hb : ev.blockPart = some b) :
    s.phase = .run ∧ ∃ e rest, s.sched = e :: rest ∧
      ((e.blockPart = some .rx ∧ ∃ args, HeadFrame s (.reset s.cfg.nodeId args)) ∨
       (e.blockPart = some .tick ∧ s.timeoutEnabled = true ∧ s.timer + 1 = s.cfg.timeoutTicks)) := by
  obtain ⟨hp, ⟨rfl, hf⟩ | ⟨rfl, ht⟩⟩ := h
  · exact ⟨hp, ev, rest, hs, .inl ⟨hb, hf⟩⟩
  · exact ⟨hp, ev, rest, hs, .inr ⟨hb, ht⟩⟩

/-- Settles O49: a step that is no reboot runs no action that writes the latch, and no reset writes the sentinel. -/
theorem sentinelOnlyFromResetOrTimeout : Obligations.SentinelOnlyFromResetOrTimeout := by
  intro s t h hpor hm ht
  obtain ⟨ha, _, hcase⟩ := step_next h
  have hreset : ∀ k u, u.cfg = s.cfg → u.magic = s.magic → (applyReset k u).magic ≠ s.cfg.sentinel := fun k u hu hum =>
    hu ▸ applyReset_magic_ne_sentinel (hu ▸ Config.Admissible.of ha) (hu ▸ hpor) (by rwa [hu, hum]) k
  have hkept : ∀ e, blockEnabled e s = true → eventRefusal e s = none → ¬ Reboots e s →
      ∀ as, (∀ a ∈ as, a ∈ eventActions e s) → ∀ u, (run as u).magic = u.magic := fun e he hr hn _ has =>
    run_frame State.magic fun a ha => perform_magic_of_not_reboots he hr hm hn a (has a ha)
  cases hcase with
  | idle hu => rcases hu with rfl | ⟨_, _, _, rfl⟩ <;> exact absurd ht hm
  | reset => exact absurd ht (hreset _ _ rfl rfl)
  | @internal e he =>
    refine absurd ((hkept e ?_ ?_ ?_ _ (by simp) _).symm.trans ht) hm
    all_goals rcases he with ⟨rfl, hp⟩ | ⟨rfl, hp⟩ <;> simp [blockEnabled, eventRefusal, Reboots, hp]
  | @block e rest hs he hr =>
    by_cases hn : Reboots e s
    · exact hn.scheduled hs rfl
    · exact absurd ((hkept e he hr hn _ (by simp) _).symm.trans ht) (by simpa using hm)
  | @cut e n torn k rest hs he hr =>
    by_cases hn : Reboots e s
    · exact hn.scheduled hs rfl
    · refine absurd ht ?_
      rcases cutStep_cases e n torn k (s.clearOutputs.setSched rest) with hcut | ⟨m, d, hcut⟩ <;> rw [hcut]
      · rw [hkept e he hr hn _ (by simp)]
        simpa using hm
      · refine hreset k _ (by simp) ?_
        refine (hkept e he hr hn _ (fun a ha => ?_) _).trans (by simp)
        simpa using List.mem_of_mem_take ha
  | arrive => exact absurd ht hm
  | lose => exact absurd ht hm

/-! ### The timeout -/

/-- The timeout is disarmed, and the timer stands where it was or at 0. -/
def DisarmedFrom (n : Nat) (s : State) : Prop := s.timeoutEnabled = false ∧ (s.timer = n ∨ s.timer = 0)

theorem DisarmedFrom.tear {n : Nat} {s : State} (h : DisarmedFrom n s) (a : Action) : DisarmedFrom n (tear a s) := by
  obtain ⟨_, _, e⟩ := tear_eq a s
  rw [e]
  exact h

theorem DisarmedFrom.perform {n : Nat} {s : State} (h : DisarmedFrom n s) {a : Action}
    (ha : a.keepsLatchAndTimeout = true ∨ a ∈ addressed ∨ ∃ v, a = .setMagic v) : DisarmedFrom n (perform a s) := by
  rcases ha with hk | ha | ⟨v, rfl⟩
  · obtain ⟨_, htimer, hen⟩ := perform_keepsLatchAndTimeout hk s
    exact ⟨hen.trans h.1, htimer.symm ▸ h.2⟩
  · rcases mem_addressed ha with rfl | rfl
    · exact ⟨h.1, .inr rfl⟩
    · exact ⟨rfl, h.2⟩
  · exact h

/-- Outside INIT no step of the block arms a disarmed timeout: a tick does nothing, and a frame can only disarm it. -/
theorem mem_eventActions_of_disarmed {e : BlockEvent} {s : State} (he : blockEnabled e s = true) (hp : s.phase ≠ .init)
    (ht : s.timeoutEnabled = false) {a : Action} (ha : a ∈ eventActions e s) :
    a.keepsLatchAndTimeout = true ∨ a ∈ addressed ∨ ∃ v, a = .setMagic v := by
  cases e with
  | boot =>
    simp only [eventActions, bootActions] at ha
    split at ha
    next =>
      simp only [List.mem_cons, List.not_mem_nil, or_false] at ha
      rcases ha with rfl | rfl | rfl
      · exact .inr (.inr ⟨_, rfl⟩)
      · exact .inl rfl
      · exact .inl rfl
    next =>
      obtain rfl := List.mem_singleton.1 ha
      exact .inl rfl
  | init => exact absurd (of_decide_eq_true he) hp
  | tick => simp [eventActions, tickActions, ht] at ha
  | rx =>
    rcases eventActions_rx_cases s with ⟨i, hi, e⟩ | e | e <;> rw [e] at ha
    · exact (mem_instrActions_cases hi ha).imp_right (Or.imp_right fun h => ⟨_, h.1⟩)
    · simp at ha
    · exact .inr (.inl ha)

/-- Settles O12: no action of a step outside INIT arms the timeout, and a reset leads to BOOT. -/
theorem disarmLastsForTheSession : Obligations.DisarmLastsForTheSession := by
  intro s t hp ht h hboot
  have hstep := step_invariant h (P := DisarmedFrom s.timer)
    (start := fun _ _ => ⟨ht, .inl rfl⟩)
    (act := fun e he a ha u _ hu => hu.perform (mem_eventActions_of_disarmed he hp ht ha))
    (torn := fun a _ _ hu => hu.tear a)
  rcases hstep with hd | ⟨k, u, _, _, rfl, _⟩
  · exact hd
  · exact absurd (applyReset_phase k u) hboot

/-! ### The configuration and the receive queue -/

@[simp] theorem tear_cfg (a : Action) (s : State) : (tear a s).cfg = s.cfg := by
  obtain ⟨_, _, e⟩ := tear_eq a s
  rw [e]

/-- Settles O43: no action, no torn action and no reset writes the configuration. -/
theorem configurationIsFixed : Obligations.ConfigurationIsFixed := by
  intro s t h
  have hstep := step_invariant h (P := fun u => u.cfg = s.cfg)
    (start := fun _ _ => rfl)
    (act := fun _ _ a _ u _ hu => (perform_cfg a u).trans hu)
    (torn := fun a u _ hu => (tear_cfg a u).trans hu)
  rcases hstep with hd | ⟨k, u, hu, _, rfl, _⟩
  · exact hd
  · exact (applyReset_cfg k u).trans hu

/-- No reset touches the receive queue (log 9). -/
@[simp] theorem applyReset_rxQueue (k : ResetKind) (s : State) : (applyReset k s).rxQueue = s.rxQueue := by
  cases k
  · rcases powerOnMagic_cases s with ⟨_, h⟩ | ⟨_, h⟩ <;> simp [applyReset, h]
  · rfl

/-- A cut step takes the frame that the whole step takes (R51). -/
theorem cutStep_rxQueue (e : BlockEvent) (n : Nat) (torn : Bool) (k : ResetKind) (s : State) :
    (cutStep e n torn k s).rxQueue = (stepStart e s).rxQueue := by
  rcases cutStep_cases e n torn k s with h | ⟨m, d, h⟩ <;> simp [h]

/-- Settles O48: only the start of an `Rx` and the two events of the CAN controller write the queue. -/
theorem receiveQueueChangesAsOffered : Obligations.ReceiveQueueChangesAsOffered := by
  intro s t h
  obtain ⟨_, _, hcase⟩ := step_next h
  have hblock : ∀ {b ev rest}, s.sched = ev :: rest → ev.blockPart = some b → blockEnabled b s = true →
      t.rxQueue = (stepStart b (s.clearOutputs.setSched rest)).rxQueue →
      t.rxQueue = s.rxQueue ∨ ∃ e rest, s.sched = e :: rest ∧
        ((∃ f, e = .arrive f ∧ t.rxQueue = s.rxQueue ++ [f]) ∨
         (∃ i, e = .lose i ∧ t.rxQueue = s.rxQueue.eraseIdx i) ∨
         (e.blockPart = some .rx ∧ s.phase = .run ∧ t.rxQueue = s.rxQueue.tail)) := by
    intro b ev rest hs hb he hq
    cases b with
    | rx => exact .inr ⟨ev, rest, hs, .inr (.inr ⟨hb, phase_of_blockEnabled_rx he, hq⟩)⟩
    | boot | init | tick => exact .inl hq
  cases hcase with
  | idle hu => rcases hu with rfl | ⟨_, _, _, rfl⟩ <;> exact .inl rfl
  | reset => exact .inl (by simp)
  | internal => exact .inl (by simp)
  | block hs he _ => exact hblock hs rfl he (run_rxQueue _ _)
  | cut hs he _ => exact hblock hs rfl he (cutStep_rxQueue _ _ _ _ _)
  | @arrive f rest hs => exact .inr ⟨_, rest, hs, .inl ⟨f, rfl, rfl⟩⟩
  | @lose i rest hs => exact .inr ⟨_, rest, hs, .inr (.inl ⟨i, rfl, rfl⟩)⟩

/-! ### The resets, FAULT and the reset state -/

/-- A reset starts the session anew on a latch of its kind's choice: kept by `SysReset`, set by `PowerOn` (R33, R34). -/
theorem applyReset_eq (k : ResetKind) (s : State) :
    ∃ m d, applyReset k s = resetSession { s with magic := m, draws := d } ∧
      (k = .sysReset → m = s.magic) ∧
      (k = .powerOn → s.cfg.magicPor = .cleared → m = s.cfg.magicClear) ∧
      (k = .powerOn → s.cfg.magicPor = .arbitrary → ∃ n, m = Config.freeMagic n) := by
  cases k with
  | sysReset => exact ⟨s.magic, s.draws, rfl, by simp⟩
  | powerOn =>
    rcases powerOnMagic_cases s with ⟨hp, e⟩ | ⟨hp, e⟩
    · exact ⟨s.cfg.magicClear, s.draws, congrArg resetSession e, by simp [hp]⟩
    · exact ⟨Config.freeMagic s.draws, s.draws + 1, congrArg resetSession e, by simp [hp]⟩

/-- Every entry of the buffer after a reset is a draw (R32, R33). -/
theorem mem_resetSession_buf {s : State} {v : Word} (h : v ∈ (resetSession s).buf) : ∃ n, v = Config.freeWord n := by
  obtain ⟨i, _, rfl⟩ := List.mem_map.1 h
  exact ⟨_, rfl⟩

/-- Settles O18: the two resets differ in the latch alone. -/
theorem resetEventsSetTheState : Obligations.ResetEventsSetTheState := by
  intro s k rest ha hp hs
  have hstep : step s = .next (applyReset k (s.clearOutputs.setSched rest)) := by
    rw [step_eq_scheduledStep ha hp]
    simp [scheduledStep, hs, enabled, hp, takeEvent]
  obtain ⟨m, d, e, hmagic⟩ := applyReset_eq k (s.clearOutputs.setSched rest)
  rw [e] at hstep
  exact ⟨_, hstep, rfl, rfl, rfl, rfl, rfl, rfl, rfl, rfl, rfl, by simp [resetSession], fun _ => mem_resetSession_buf, hmagic⟩

/-- Settles O19: by the definition of the reset state. -/
theorem resetStateHoldsPowerOnValues : Obligations.ResetStateHoldsPowerOnValues :=
  ⟨rfl, rfl, rfl, rfl, rfl, rfl, rfl, rfl, rfl, rfl⟩

/-- Settles O20: FAULT is checked before the schedule is read. -/
theorem faultIsAbsorbing : Obligations.FaultIsAbsorbing := by
  intro s ha hp
  simp [step, ha, hp]

/-- Settles O38: nothing is written, the buffer holds one draw per entry of REF's page, and the latch is not examined yet. -/
theorem resetStateMeetsInvariants : Obligations.ResetStateMeetsInvariants where
  admissible := Config.ref_admissible
  memWf := Memory.wf_nil
  memInRegion := by simp [State.reset]
  bufLength := by simp [State.reset]
  idleCursor := fun _ => rfl
  openPage := by simp [State.reset]
  openUnlocked := by simp [State.reset]
  armedTimer := fun _ _ => by decide
  timerBound := Nat.zero_le _
  faultRecord := by simp [State.reset]
  freshSession := fun _ => ⟨rfl, rfl, rfl, rfl, rfl, rfl⟩
  latchConsumed := by simp [State.reset]
  latchArmed := by simp [State.reset]

/-! ### A page programmed in order -/

/-- A page is open, the words in `done` fill the buffer up to the cursor, and every halfword of the page reads erased. -/
structure Filling (p : Word) (done : List Word) (s : State) : Prop where
  inv : Inv s
  phase : s.phase = .run
  reliable : s.cfg.flashReliable = true
  mode : s.programmingMode = true
  page : s.currentPage = p
  cursor : s.cursor.toNat = done.length
  buf : s.buf.take done.length = done
  erased : ∀ i, i < s.cfg.pageWords → readWord s p.toNat i = 0xFFFF

/-- Erasing a page that is a sector head, or that was erased before, leaves it erased on reliable flash (R83, R85). -/
theorem readWord_openPage_erasePage {s : State} (hc : s.cfg.Admissible) (hp : s.phase ≠ .fault)
    (hf : s.cfg.flashReliable = true) {p : Word} (h : p.toNat < s.cfg.availablePages)
    (he : p.toNat % s.cfg.pagesPerSector = 0 ∨ ∀ i, i < s.cfg.pageWords → readWord s p.toNat i = 0xFFFF) {i : Nat}
    (hi : i < s.cfg.pageWords) :
    readWord (run (openPage p ++ erasePage s.cfg p.toNat) s) p.toNat i = 0xFFFF := by
  cases e : pageSector s.cfg p.toNat with
  | none =>
    have hne : p.toNat % s.cfg.pagesPerSector ≠ 0 := fun h => by simp [pageSector, h] at e
    have hsame : readWord (run (openPage p ++ erasePage s.cfg p.toNat) s) p.toNat i = readWord s p.toNat i := by
      have hm := run_mem (as := openPage p ++ erasePage s.cfg p.toNat) (by simp [openPage, erasePage, e, Action.stores]) s
      simp only [readWord, memRead, hm, run_cfg]
    rw [hsame]
    exact he.resolve_left hne i hi
  | some sid =>
    have hin := sectorInRegion_of_head hc h e
    have hm : (run (openPage p ++ erasePage s.cfg p.toNat) s).mem =
        s.mem.write (sectorAddress s.cfg sid) (List.replicate s.cfg.sectorBytes 0xFF) := by
      simp [openPage, erasePage, e, run, perform, hp, eraseSector, hin, hf]
    have hb := pageAddress_bounds s.cfg p.toNat i hi
    have hsector : s.cfg.pageBytes ≤ s.cfg.sectorBytes :=
      Nat.le_mul_of_pos_right _ (by have := hc.pagesPerSectorMin; omega)
    have hnext : pageAddress s.cfg (p.toNat + 1) 0 = pageAddress s.cfg p.toNat 0 + s.cfg.pageBytes := by
      simp only [pageAddress, Nat.add_mul]; omega
    simp only [readWord, memRead, hm, run_cfg, sectorAddress_of_head e]
    exact Memory.readHalf_write_erased _ _ _ _ (by omega) (by omega)

/-- An accepted WRITE_PAGE starts the filling, with one acknowledgement (R116). -/
theorem Filling.of_writePage {s : State} (hi : Inv s) (hp : s.phase = .run) (hf : s.cfg.flashReliable = true) {p : Word}
    (h : p.toNat < s.cfg.availablePages)
    (he : p.toNat % s.cfg.pagesPerSector = 0 ∨ ∀ i, i < s.cfg.pageWords → readWord s p.toNat i = 0xFFFF) :
    ∃ t, exec (.writePage s.cfg.nodeId [p]) s = .next t ∧ Filling p [] t ∧ t.cfg = s.cfg ∧
      t.tx.length = s.tx.length + 1 := by
  have hc := Config.Admissible.of hi.admissible
  have hp' : s.phase ≠ .fault := by simp [hp]
  obtain ⟨hinv, hphase⟩ := (hi.disarmed hp).openPage_erasePage hp h
  have herased := fun i => readWord_openPage_erasePage (s := disarmed s) hc hp' hf h he (i := i)
  obtain ⟨m, d, e⟩ := run_openPage (s := disarmed s) hc hp' h
  have hrun : run (writePageActions s.cfg.nodeId [p] s) s =
      sent [[s.cfg.opAck, statusWord s.cfg .ok]] (run (openPage p ++ erasePage s.cfg p.toNat) (disarmed s)) := by
    simp only [writePageActions, ifAddressed_self, onePage, pageInRange, h, decide_true, if_true]
    rw [run_addressed hp', run_append]
    exact run_ack (fun hf => Phase.noConfusion (hphase.symm.trans hf)) (by simp)
  simp only [disarmed_cfg] at hinv e herased
  rw [e] at hinv herased hrun
  exact ⟨_, congrArg Host.Outcome.next hrun, ⟨hinv.sent _, hp, hf, rfl, rfl, rfl, rfl, herased⟩, rfl,
    by simp [sent, disarmed]⟩

/-- The two entries of an accepted PAGE_DATA extend the words that fill the buffer (R118). -/
theorem Filling.take_filledBuf {p : Word} {done : List Word} {s : State} (hs : Filling p done s) (d0 d1 : Word) :
    (filledBuf d0 d1 s).take (done.length + 2) = done ++ [d0, d1] := by
  have hlen := hs.inv.bufLength
  obtain ⟨_, hle, _⟩ := hs.inv.openPage hs.mode
  rw [hs.cursor] at hle
  unfold filledBuf
  rw [hs.cursor, List.take_add_one, List.take_add_one]
  simp [List.take_set, List.set_eq_of_length_le, hs.buf, show done.length < s.buf.length by omega,
    show done.length + 1 < s.buf.length by omega]

/-- Whether a pair fills the page (R118). -/
theorem Filling.commits_iff {p : Word} {done : List Word} {s : State} (hs : Filling p done s) :
    commits s = true ↔ done.length + 2 = s.cfg.pageWords := by
  rw [commits, nextCursor_toNat hs.inv hs.mode, hs.cursor, decide_eq_true_eq]

/-- An accepted PAGE_DATA is its filling and its commit, and one acknowledgement (R117). -/
theorem Filling.exec_pageData {p : Word} {done : List Word} {s : State} (hs : Filling p done s) (d0 d1 : Word) :
    exec (.pageData s.cfg.nodeId [d0, d1]) s =
      .next (sent [[s.cfg.opAck, statusWord s.cfg .ok]] (run (commitActions d0 d1 s) (filled d0 d1 s))) := by
  obtain ⟨_, hphase⟩ := hs.inv.run_commitActions hs.phase hs.mode d0 d1
  have hrun : run (pageDataActions s.cfg.nodeId [d0, d1] s) s =
      run [ack s.cfg .ok] (run (commitActions d0 d1 s) (filled d0 d1 s)) := by
    simp only [pageDataActions, ifAddressed_self, twoWords, hs.mode, if_true]
    rw [run_addressed (by simp [hs.phase]), run_pageDataBody hs.inv hs.phase hs.mode]
  rw [run_ack (fun hf => Phase.noConfusion (hphase.symm.trans hf)) (by simp [filled])] at hrun
  exact congrArg Host.Outcome.next hrun

/-- A PAGE_DATA below the last pair of the page extends the filling, with one acknowledgement (R118). -/
theorem Filling.pageData {p : Word} {done : List Word} {s : State} (hs : Filling p done s) (d0 d1 : Word)
    (hlen : done.length + 2 ≠ s.cfg.pageWords) :
    ∃ t, exec (.pageData s.cfg.nodeId [d0, d1]) s = .next t ∧ Filling p (done ++ [d0, d1]) t ∧ t.cfg = s.cfg ∧
      t.tx.length = s.tx.length + 1 := by
  have hexec := hs.exec_pageData d0 d1
  obtain ⟨hinv, _⟩ := hs.inv.run_commitActions hs.phase hs.mode d0 d1
  rw [commitActions, if_neg (mt hs.commits_iff.1 hlen), run_nil] at hexec hinv
  refine ⟨_, hexec, ⟨hinv.sent _, hs.phase, hs.reliable, hs.mode, hs.page, ?_, ?_, hs.erased⟩, rfl,
    by simp [sent, filled, disarmed]⟩
  · rw [List.length_append, ← hs.cursor]
    exact nextCursor_toNat hs.inv hs.mode
  · rw [List.length_append]
    exact hs.take_filledBuf d0 d1

/-- The PAGE_DATA of the last pair programs the words in order, locks flash and closes the page (R119). -/
theorem Filling.pageData_last {p : Word} {done : List Word} {s : State} (hs : Filling p done s) (d0 d1 : Word)
    (hlen : done.length + 2 = s.cfg.pageWords) :
    ∃ t, exec (.pageData s.cfg.nodeId [d0, d1]) s = .next t ∧
      (∀ i (h : i < (done ++ [d0, d1]).length), readWord t p.toNat i = (done ++ [d0, d1])[i]) ∧
      t.programmingMode = false ∧ t.cursor = 0 ∧ t.flashUnlocked = false ∧ t.tx.length = s.tx.length + 1 := by
  have hexec := hs.exec_pageData d0 d1
  have hbuf : filledBuf d0 d1 s = done ++ [d0, d1] := by
    rw [← hs.take_filledBuf d0 d1, List.take_of_length_le]
    rw [length_filledBuf, hs.inv.bufLength, hlen]
  obtain ⟨m, d, e, hwords⟩ := run_commitActions hs.inv hs.phase hs.mode d0 d1 (hs.commits_iff.2 hlen)
  rw [e] at hexec
  simp only [hs.page, hbuf] at hwords
  refine ⟨_, hexec, fun i h => hwords i h hs.reliable (hs.erased i ?_), rfl, rfl, rfl,
    by simp [sent, committed, filled, disarmed]⟩
  rw [← hlen]
  simpa using h

/-- The PAGE_DATA commands of the rest of the page program all of it (R39). -/
theorem Filling.execAll {p : Word} {done rest : List Word} {s : State} (hs : Filling p done s) (hne : rest ≠ [])
    (hlen : done.length + rest.length = s.cfg.pageWords) :
    ∃ t, execAll (pageDataOf s.cfg.nodeId rest) s = .next t ∧
      (∀ i (h : i < (done ++ rest).length), readWord t p.toNat i = (done ++ rest)[i]) ∧
      t.programmingMode = false ∧ t.cursor = 0 ∧ t.flashUnlocked = false ∧
      t.tx.length = s.tx.length + rest.length / 2 := by
  induction rest using pageDataOf.induct generalizing done s with
  | case1 d0 d1 rest ih =>
    simp only [List.length_cons] at hlen
    by_cases hrest : rest = []
    · subst hrest
      obtain ⟨t, hexec, ht⟩ := hs.pageData_last d0 d1 hlen
      exact ⟨t, by simp [pageDataOf, Machine.execAll, hexec], by simpa using ht⟩
    · have hpos := List.length_pos_iff.2 hrest
      obtain ⟨u, hexec, hu, hcfg, htx⟩ := hs.pageData d0 d1 (by omega)
      obtain ⟨t, hall, hwords, hmode, hcursor, hlock, htx'⟩ :=
        ih hu hrest (by rw [hcfg, List.length_append, List.length_cons, List.length_singleton]; omega)
      rw [hcfg] at hall
      refine ⟨t, by simp [pageDataOf, Machine.execAll, hexec, hall], ?_, hmode, hcursor, hlock, ?_⟩
      · simpa using hwords
      · simp only [List.length_cons]
        omega
  | case2 rest hshort =>
    have hc := (Config.Admissible.of hs.inv.admissible).pageWordsEven
    obtain ⟨heven, _, _⟩ := hs.inv.openPage hs.mode
    rw [hs.cursor] at heven
    match rest with
    | [] => exact absurd rfl hne
    | [_] => simp only [List.length_singleton] at hlen; omega
    | d0 :: d1 :: ds => exact absurd rfl (hshort d0 d1 ds)

/-- Settles O57: WRITE_PAGE opens an erased page, the pairs fill the buffer in order, and the last one programs it. -/
theorem completePageIsProgrammedInOrder : Obligations.CompletePageIsProgrammedInOrder := by
  intro s p data hi hp hf hpage he hlen
  have hwords := (Config.Admissible.of hi.admissible).pageWordsPos
  obtain ⟨u, hexec, hu, hcfg, htx⟩ := Filling.of_writePage hi hp hf hpage he
  obtain ⟨t, hall, hread, hmode, hcursor, hlock, htx'⟩ :=
    hu.execAll (rest := data) (by rintro rfl; simp at hlen; omega) (by rw [hcfg]; simpa using hlen)
  rw [hcfg] at hall
  exact ⟨t, by simp [execAll, hexec, hall], hread, hmode, hcursor, hlock, by omega⟩

end Sys2Proof.Machine
end

section
/-! Proofs of the family 20_memory.md: flash outside the region (R41, R44). -/

namespace Sys2Proof.Machine

/-- Draws left in a run of halfwords change no byte outside it. -/
theorem scramble_outside (a n : Nat) (s : State) (x : Nat) (h : x < a ∨ a + 2 * n ≤ x) :
    (scramble a n s).mem.get? x = s.mem.get? x :=
  Memory.get?_write_outside _ _ _ _ (by rwa [length_drawnBytes])

/-- No action in progress at a cut changes a byte outside the region (R44, R158.3). -/
theorem tear_outside_region (a : Action) (s : State) (hc : s.cfg.Admissible) (x : Nat)
    (hx : x < s.cfg.flashBase ∨ s.cfg.flashEnd ≤ x) : (tear a s).mem.get? x = s.mem.get? x := by
  cases a with
  | eraseSector sid =>
    rw [tear]
    split
    next hr =>
      obtain ⟨hlo, hhi⟩ := sector_bounds hc hr.2
      exact scramble_outside _ _ s x (by omega)
    next => rfl
  | memWrite addr v =>
    rw [tear]
    split
    next hr =>
      obtain ⟨_, hlo, hhi⟩ := of_decide_eq_true hr.2
      exact scramble_outside _ _ s x (by omega)
    next => rfl
  | _ => rfl

/-- Settles O42: neither an action nor one torn by a cut reaches a byte outside the region, and flash survives a reset. -/
theorem flashOutsideTheRegionNeverChanges : Obligations.FlashOutsideTheRegionNeverChanges := by
  intro s t x h hx
  have hc := Config.Admissible.of (step_next h).1
  have hstep := step_invariant h (P := fun u => u.mem.get? x = s.mem.get? x)
    (start := fun _ _ => rfl)
    (act := fun _ _ a _ u hcfg hu => (perform_outside_region a u (hcfg ▸ hc) x (hcfg ▸ hx)).trans hu)
    (torn := fun a u hcfg hu => (tear_outside_region a u (hcfg ▸ hc) x (hcfg ▸ hx)).trans hu)
  rcases hstep with ht | ⟨k, u, hu, _, rfl, _⟩
  · exact ht
  · rwa [applyReset_mem]

end Sys2Proof.Machine
end

section
/-! Proofs of the family 30_encoding.md: the codec both ways (R58 to R63), the frames a step offers (R61, R65, R70), the frames it
drops (R69), and the steps that run the pushes (R95, R100, R112, R124). -/

namespace Sys2Proof

/-! ### The codec -/

/-- The four command opcodes are told apart (R13), so the words of a command decode to it (R60, R63). -/
theorem decodeCommand_encode {c : Config} (hc : c.Admissible) {i : Instr} (hi : i.isCommand = true)
    (hw : i.wellFormed = true) : decodeCommand c (encode c i) = .ok i := by
  have h := hc.opcodesNodup
  simp only [List.nodup_cons, List.mem_cons, List.not_mem_nil, not_or, or_false] at h
  obtain ⟨⟨h1, h2, h3⟩, ⟨h4, h5⟩, h6, _⟩ := h
  have hlen : ∀ args : List Word, decide (args.length ≤ 2) = true → ¬ args.length > 2 := fun _ h =>
    Nat.not_lt.2 (of_decide_eq_true h)
  cases i with
  | reset node args =>
    simp [encode, decodeCommand, hlen args hw]
  | readPage node args =>
    simp [encode, decodeCommand, hlen args hw, Ne.symm h1]
  | writePage node args =>
    simp [encode, decodeCommand, hlen args hw, Ne.symm h2, Ne.symm h4]
  | pageData node args =>
    simp [encode, decodeCommand, hlen args hw, Ne.symm h3, Ne.symm h5, Ne.symm h6]
  | pushDescription | pushPageData | pushAck => exact absurd hi (by simp [Instr.isCommand])

/-- The number of its words tells a push from the other two, so they decode to it (R61). -/
theorem decodePush_encode {c : Config} (hc : c.Admissible) {i : Instr} (hi : i.isCommand = false) :
    decodePush c (encode c i) = .ok i := by
  cases i with
  | reset | readPage | writePage | pageData => exact absurd hi (by simp [Instr.isCommand])
  | pushDescription size first count => simp [encode, decodePush]
  | pushPageData d0 d1 => simp [encode, decodePush]
  | pushAck st => simp [encode, decodePush, statusOf_statusWord hc]

/-- Settles O2: bytes and words by the packing, commands by their opcodes, pushes by their lengths and the status codes. -/
theorem decodeOfEncodedInstruction : Obligations.DecodeOfEncodedInstruction := by
  intro c i ha hw
  have hc := Config.Admissible.of ha
  exact ⟨unpackBytes_packWords _, fun hi => decodeCommand_encode hc hi hw, decodePush_encode hc⟩

/-- Settles O3: each decoder answers one of its own instructions, with the words it read. -/
theorem encodeOfDecodedWords : Obligations.EncodeOfDecodedWords := by
  intro c ws i
  constructor
  · intro h
    obtain ⟨node, args, hlen, ⟨rfl, rfl⟩ | ⟨rfl, rfl⟩ | ⟨rfl, rfl⟩ | ⟨rfl, rfl⟩⟩ := decodeCommand_ok h
    all_goals exact ⟨rfl, decide_eq_true hlen, rfl⟩
  · intro h
    rcases decodePush_ok h with ⟨a, b, d, rfl, rfl⟩ | ⟨a, b, rfl, rfl⟩ | ⟨w, st, rfl, rfl, hst⟩
    · exact ⟨rfl, rfl, rfl⟩
    · exact ⟨rfl, rfl, rfl⟩
    · exact ⟨rfl, rfl, by rw [encode, statusWord_of_statusOf hst]⟩

/-- Settles O1: the decoder reads each of the images. -/
theorem specExampleFramesDecode : Obligations.SpecExampleFramesDecode := by
  refine ⟨?_, ?_, ?_, ?_, ?_, ?_, ?_, ?_⟩ <;> decide

/-- Packing loses no word (R58). -/
theorem packWords_injective : Function.Injective packWords := fun vs ws h => by
  simpa using congrArg unpackBytes h

/-- The two bytes of word `i` of a payload, the low one first (R58). -/
theorem getElem?_packWords (ws : List Word) (i : Nat) (h : i < ws.length) :
    (packWords ws)[2 * i]? = some (loByte ws[i]) ∧ (packWords ws)[2 * i + 1]? = some (hiByte ws[i]) := by
  have hlen := length_packWords ws
  constructor
  · rw [List.getElem?_eq_getElem (by omega), getElem_packWords_even ws i h]
  · rw [List.getElem?_eq_getElem (by omega), getElem_packWords_odd ws i h]

/-- A received frame that the framer takes holds the packing of its words (R58). -/
theorem Machine.data_of_receive {c : Config} {f : Frame} {ws : List Word} (h : receive c f = some ws) :
    f.data = packWords ws := by
  obtain ⟨_, _, hws⟩ := receive_some h
  exact (packWords_of_unpackBytes hws).symm

/-- Settles O4: both directions are the one packing. -/
theorem framesPackWordsLowByteFirst : Obligations.FramesPackWordsLowByteFirst := by
  refine ⟨fun c ws => ⟨length_packWords ws, getElem?_packWords ws⟩, fun c f ws h => ?_, fun f c ws hf h => ?_⟩
  · have hdata := Machine.data_of_receive h
    refine ⟨by rw [Frame.len, hdata, length_packWords], fun i hi => ?_⟩
    obtain ⟨hlo, hhi⟩ := getElem?_packWords ws i hi
    exact ⟨loByte ws[i], hiByte ws[i], hdata ▸ hlo, hdata ▸ hhi, (joinWord_lo_hi ws[i]).symm⟩
  · have hlen : f.data.length ≤ 8 := of_decide_eq_true hf
    rw [Machine.data_of_receive h, length_packWords] at hlen
    omega

end Sys2Proof

namespace Sys2Proof.Config

/-- An admissible configuration meets R65's condition on the node id. -/
theorem txIdOk_of_admissible {c : Config} (h : c.admissible = true) : c.txIdOk = true := by
  simp only [admissible, Bool.and_eq_true] at h
  obtain ⟨⟨⟨_, htx⟩, _⟩, _⟩ := h
  exact htx

end Sys2Proof.Config

namespace Sys2Proof.Machine

/-! ### The frames a step offers -/

/-- The pushes that a rule of the block sends: the description with the configuration's words, page data, and every
acknowledgement but the reserved one (R61, R70). -/
def Sendable (c : Config) (i : Instr) : Prop :=
  i = .pushDescription c.descPageSize c.firstPageIndex (u16 c.availablePages) ∨
  (∃ d0 d1, i = .pushPageData d0 d1) ∨ ∃ st, st ≠ .programFailed ∧ i = .pushAck st

/-- Every frame on the transmit list is a sendable push. -/
def OffersPushes (c : Config) (s : State) : Prop :=
  ∀ x ∈ s.tx, ∃ i, Sendable c i ∧ x.1 = frameOf c (encode c i)

/-- A sendable push is one of the three pushes, at most four words (R61). -/
theorem Sendable.length_encode {c : Config} {i : Instr} (h : Sendable c i) : (encode c i).length ≤ 4 := by
  rcases h with rfl | ⟨d0, d1, rfl⟩ | ⟨st, _, rfl⟩ <;> simp [encode]

/-- A step of the block sends sendable pushes only. -/
theorem sendable_of_send_mem {e : BlockEvent} {s : State} {ws : List Word} (h : .send ws ∈ eventActions e s) :
    ∃ i, Sendable s.cfg i ∧ ws = encode s.cfg i := by
  rcases send_mem_eventActions h with ⟨_, hws⟩ | ⟨_, ⟨d0, d1, hws⟩ | ⟨st, hst, hws⟩⟩
  · exact ⟨_, .inl rfl, hws⟩
  · exact ⟨_, .inr (.inl ⟨d0, d1, rfl⟩), hws⟩
  · exact ⟨_, .inr (.inr ⟨st, hst, rfl⟩), hws⟩

/-- An action that offers no frame. -/
def Action.silent : Action → Bool
  | .send _ => false
  | .sendDrawn => false
  | _ => true

/-- Only the two sends write the transmit list (R95). -/
theorem perform_tx_of_silent {a : Action} (h : a.silent = true) (s : State) : (perform a s).tx = s.tx := by
  cases a with
  | send | sendDrawn => simp [Action.silent] at h
  | setBuf i v => rcases writeBuf_cases i v s with ⟨_, e⟩ | ⟨_, e⟩ <;> simp [perform, e]
  | eraseSector sid =>
    rcases eraseSector_cases sid s with ⟨_, e⟩ | ⟨_, _, _, e⟩ | ⟨_, _, _, e⟩ <;> simp [perform, e, scramble]
  | memWrite x v =>
    rcases memWrite_cases x v s with ⟨_, e⟩ | ⟨_, _, _, _, e⟩ | ⟨_, _, _, e⟩ <;> simp [perform, e, scramble]
  | _ => rfl

/-- One more sendable push on the transmit list. -/
theorem OffersPushes.append {c : Config} {s t : State} (h : OffersPushes c s) {i : Instr} (hi : Sendable c i)
    {o : TxOutcome} (ht : t.tx = s.tx ++ [(frameOf c (encode c i), o)]) : OffersPushes c t := by
  intro x hx
  rw [ht, List.mem_append, List.mem_singleton] at hx
  rcases hx with hx | rfl
  · exact h x hx
  · exact ⟨i, hi, rfl⟩

/-- An action that sends nothing but a sendable push keeps the transmit list one of sendable pushes. -/
theorem OffersPushes.perform {c : Config} {s : State} (h : OffersPushes c s) (hc : s.cfg = c) {a : Action}
    (ha : ∀ ws, a = .send ws → ∃ i, Sendable c i ∧ ws = encode c i) : OffersPushes c (perform a s) := by
  subst hc
  cases a with
  | send ws =>
    obtain ⟨i, hi, rfl⟩ := ha ws rfl
    exact h.append hi (congrArg State.tx (send_of_le hi.length_encode s))
  | sendDrawn => exact h.append (.inr (.inl ⟨_, _, rfl⟩)) (congrArg State.tx (sendDrawn_eq s))
  | _ =>
    intro x hx
    rw [perform_tx_of_silent rfl] at hx
    exact h x hx

@[simp] theorem tear_tx (a : Action) (s : State) : (tear a s).tx = s.tx := by
  obtain ⟨_, _, e⟩ := tear_eq a s
  rw [e]

/-- A reset sends nothing (R32). -/
@[simp] theorem applyReset_tx (k : ResetKind) (s : State) : (applyReset k s).tx = s.tx := by
  cases k
  · rcases powerOnMagic_cases s with ⟨_, h⟩ | ⟨_, h⟩ <;> simp [applyReset, h]
  · rfl

/-- Every step, whole or cut, offers sendable pushes only. -/
theorem step_offersPushes {s t : State} (h : step s = .next t) : OffersPushes s.cfg t := by
  have hstep := step_invariant h (P := OffersPushes s.cfg)
    (start := fun _ _ => by simp [OffersPushes])
    (act := fun _ _ a ha u hc hu => hu.perform hc fun ws e => sendable_of_send_mem (e ▸ ha))
    (torn := fun a u _ hu => by rwa [OffersPushes, tear_tx])
  rcases hstep with ht | ⟨k, u, hu, _, rfl, _⟩
  · exact ht
  · rwa [OffersPushes, applyReset_tx]

/-- No sendable push has the words of the reserved acknowledgement: the status codes are told apart (R13, R70). -/
theorem Sendable.encode_ne_programFailed {c : Config} (hc : c.Admissible) {i : Instr} (h : Sendable c i) :
    encode c i ≠ [c.opAck, c.stProgramFailed] := by
  rcases h with rfl | ⟨d0, d1, rfl⟩ | ⟨st, hst, rfl⟩
  · simp [encode]
  · simp [encode]
  · intro he
    have hw : statusWord c st = c.stProgramFailed := by simpa [encode] using he
    have hs : statusOf c (statusWord c st) = statusOf c (statusWord c .programFailed) := congrArg (statusOf c) hw
    rw [statusOf_statusWord hc, statusOf_statusWord hc] at hs
    exact hst (Except.ok.inj hs)

/-- Settles O45: each frame of a step is the frame of a sendable push, and packing keeps different words apart. -/
theorem transmittedFramesArePushes : Obligations.TransmittedFramesArePushes := by
  intro s t h x hx
  obtain ⟨ha, _, _⟩ := step_next h
  obtain ⟨i, hi, hframe⟩ := step_offersPushes h x hx
  rw [hframe]
  refine ⟨?_, fun hdata => hi.encode_ne_programFailed (Config.Admissible.of ha) (packWords_injective hdata)⟩
  rcases hi with rfl | ⟨d0, d1, rfl⟩ | ⟨st, hst, rfl⟩
  · exact .inl rfl
  · exact .inr (.inl ⟨d0, d1, rfl⟩)
  · exact .inr (.inr ⟨st, hst, rfl⟩)

/-- The REF layout of an identifier: the type in bits 10..8, the node id's low byte in bits 7..0 (R65). -/
theorem txIdOf_typeAndNode {c : Config} {type : BitVec 3} (h : c.txId = .typeAndNode type) :
    (txIdOf c).extractLsb' 8 3 = type ∧ (txIdOf c).extractLsb' 0 8 = c.nodeId.extractLsb' 0 8 := by
  have hid : txIdOf c = type ++ c.nodeId.extractLsb' 0 8 := by rw [txIdOf, h]
  rw [hid]
  exact ⟨BitVec.extractLsb'_append_eq_left, BitVec.extractLsb'_append_eq_right⟩

/-- Settles O44: a frame's identifier is the framer's, its length that of a push. -/
theorem transmittedFramesCarryTheNodeIdentifier : Obligations.TransmittedFramesCarryTheNodeIdentifier := by
  refine ⟨fun s t h x hx => ?_, fun c type htype => ?_, rfl, by decide⟩
  · obtain ⟨i, hi, hframe⟩ := step_offersPushes h x hx
    have hlen := hi.length_encode
    rw [hframe]
    exact ⟨rfl, rfl, rfl, decide_eq_true (by rw [frameOf, length_packWords]; omega)⟩
  · obtain ⟨hhigh, hlow⟩ := txIdOf_typeAndNode htype
    exact ⟨hhigh, hlow, fun ha => (c.txIdOk_iff.1 (Config.txIdOk_of_admissible ha)) type htype⟩

/-! ### Frames dropped without a reply -/

/-- A step of the block at the head of the schedule is the run of its actions (R8). -/
theorem step_block {s : State} {e : BlockEvent} {rest : List Event} (ha : s.cfg.admissible = true) (hp : s.phase ≠ .fault)
    (hs : s.sched = .block e :: rest) (he : blockEnabled e s = true) (hr : eventRefusal e s = none) :
    step s = .next (run (eventActions e s) (stepStart e (s.clearOutputs.setSched rest))) := by
  have he' : enabled (.block e) s.clearOutputs = true := he
  have hr' : eventRefusal e (s.clearOutputs.setSched rest) = none := by cases e <;> exact hr
  rw [step_eq_scheduledStep ha hp]
  simp only [scheduledStep, State.clearOutputs_sched, hs, he', takeEvent, hr', if_true]
  rw [blockStep_eq_run hr', eventActions_setSched, eventActions_clearOutputs]

/-- A command for another node has no action (R106). -/
theorem instrActions_of_other_node {c : Config} {op node : Word} {args : List Word} {i : Instr} {s : State}
    (hd : decodeCommand c (op :: node :: args) = .ok i) (hn : node ≠ s.cfg.nodeId) : instrActions i s = [] := by
  obtain ⟨node', args', _, ⟨rfl, hws⟩ | ⟨rfl, hws⟩ | ⟨rfl, hws⟩ | ⟨rfl, hws⟩⟩ := decodeCommand_ok hd
  all_goals
    obtain ⟨_, rfl, _⟩ := by simpa using hws
    exact ifAddressed_of_ne hn _

/-- Words without a node id, or with another node's, give an `Rx` step no action (R69, R106). -/
theorem rxActions_of_not_addressed {f : Frame} {s : State} {ws : List Word} (hr : receive s.cfg f = some ws)
    (h : ws.length < 2 ∨ ∃ node, ws[1]? = some node ∧ node ≠ s.cfg.nodeId) : rxActions f s = [] := by
  unfold rxActions
  simp only [hr]
  match ws with
  | [] => rfl
  | [_] => rfl
  | op :: node :: args =>
    have hn : node ≠ s.cfg.nodeId := by simpa using h
    split
    next hd => exact instrActions_of_other_node hd hn
    next => exact ifAddressed_of_ne hn []

/-- What the framer does not take: a remote frame, one that RX_ACCEPT does not take, an odd payload (R91). -/
theorem receive_eq_none {c : Config} {f : Frame} (h : f.rtr = true ∨ rxAccept c f = false ∨ f.len % 2 = 1) :
    receive c f = none := by
  cases hr : receive c f with
  | none => rfl
  | some ws =>
    obtain ⟨hrtr, hacc, _⟩ := receive_some hr
    have hlen : f.len = 2 * ws.length := by rw [Frame.len, data_of_receive hr, length_packWords]
    rcases h with h | h | h
    · simp [hrtr] at h
    · simp [hacc] at h
    · omega

/-- A frame that is no command for this node gives an `Rx` step no action (R69). -/
theorem rxActions_of_dropped {f : Frame} {s : State}
    (h : f.rtr = true ∨ rxAccept s.cfg f = false ∨ f.len % 2 = 1 ∨
      ∃ ws, unpackBytes f.data = .ok ws ∧ (ws.length < 2 ∨ ∃ node, ws[1]? = some node ∧ node ≠ s.cfg.nodeId)) :
    rxActions f s = [] := by
  cases hr : receive s.cfg f with
  | none => simp only [rxActions, hr]
  | some ws =>
    obtain ⟨_, _, hws⟩ := receive_some hr
    have htaken := mt receive_eq_none (hr ▸ Option.some_ne_none ws)
    rcases h with h | h | h | ⟨vs, hvs, h⟩
    · exact absurd (.inl h) htaken
    · exact absurd (.inr (.inl h)) htaken
    · exact absurd (.inr (.inr h)) htaken
    · obtain rfl : ws = vs := Except.ok.inj (hws.symm.trans hvs)
      exact rxActions_of_not_addressed hr h

/-- Settles O6: the framer drops the frame, or the dispatcher has no action for its words. -/
theorem droppedFramesChangeNothing : Obligations.DroppedFramesChangeNothing := by
  intro s f q rest ha hp hs hq hf hdrop
  have hacts : eventActions .rx s = [] := by
    simp only [eventActions, hq]
    exact rxActions_of_dropped hdrop
  rw [step_block ha (by simp [hp]) hs (by simp [blockEnabled, hp, hq]) (by simp [eventRefusal, hq, hf]), hacts, run_nil]
  simp [stepStart, takeFrame, hq, State.setRxQueue, State.setSched]

/-! ### The steps that run the pushes -/

/-- Pushes one after another are the run of their sends, whatever the phase (R95). -/
theorem execAll_pushes {is : List Instr} (h : ∀ i ∈ is, i.isCommand = false ∧ i ≠ .pushAck .programFailed) (s : State) :
    execAll is s = .next (run (is.map (push s.cfg)) s) := by
  induction is generalizing s with
  | nil => rfl
  | cons i is ih =>
    obtain ⟨hi, hne⟩ := h i List.mem_cons_self
    have hacts : instrActions i s = [push s.cfg i] := by
      cases i with
      | reset | readPage | writePage | pageData => exact absurd hi (by simp [Instr.isCommand])
      | pushDescription | pushPageData | pushAck => rfl
    have hrest := ih (fun j hj => h j (List.mem_cons_of_mem _ hj)) (run [push s.cfg i] s)
    rw [run_cfg, ← run_append] at hrest
    simp only [execAll, exec_eq_run hne, hacts]
    exact hrest

/-- A push leaves the phase alone (R95). -/
theorem run_push_phase (c : Config) (i : Instr) (s : State) : (run [push c i] s).phase = s.phase := by
  refine run_frame State.phase (fun a ha t => ?_) s
  obtain rfl := List.mem_singleton.1 ha
  rcases send_cases (encode c i) t with e | e <;> simp [push, perform, e]

/-- A command that only disarms and acknowledges is that PUSH_ACK on the disarmed state (R100, R102). -/
theorem exec_eq_pushAck {i : Instr} {s : State} {st : Status} (hi : i.isCommand = true) (hp : s.phase ≠ .fault)
    (hst : st ≠ .programFailed) (h : instrActions i s = addressed ++ [ack s.cfg st]) :
    exec i s = exec (.pushAck st) (disarmed s) := by
  rw [exec_command_eq_run hi, h, run_addressed hp, exec_eq_run (by simpa using hst)]
  rfl

theorem onePage_eq_none {args : List Word} (h : args.length ≠ 1) : onePage args = none := by
  unfold onePage
  split
  next => exact absurd rfl h
  next => rfl

theorem twoWords_eq_none {args : List Word} (h : args.length ≠ 2) : twoWords args = none := by
  unfold twoWords
  split
  next => exact absurd rfl h
  next => rfl

/-- The arming that follows the description (R125). -/
theorem run_arming {s : State} (hp : s.phase ≠ .fault) :
    run [.setTimeoutEnabled true, .setTimer 0, .setPhase .run] s =
      { s with timeoutEnabled := true, timer := 0, phase := .run } := by
  simp [run, perform, hp, State.setTimeoutEnabled, State.setTimer, State.setPhase]

/-- The reboot into the application (R75, R76). -/
theorem run_rebootToApplication {s : State} (hp : s.phase ≠ .fault) (c : Config) :
    run (rebootToApplication c) s =
      { s with magic := c.sentinel, sysResetReq := true, phase := .resetPending } := by
  simp [rebootToApplication, run, perform, hp, State.setMagic, State.pulseSysResetReq, State.setPhase]

/-- Settles O9: each step's actions are the push's send and then the rest, or the push's send alone. -/
theorem pushesRunInsideTheirSteps : Obligations.PushesRunInsideTheirSteps := by
  refine ⟨fun s rest ha hp hs => ?_, fun s p hp hpage => ?_, fun s args hp =>
    ⟨?_, fun hlen => ⟨?_, ?_⟩, fun p hpage => ?_, fun hlen => ?_, fun hlen hmode => ?_⟩⟩
  · refine ⟨_, exec_eq_run (by simp) _, ?_⟩
    rw [step_block ha (by simp [hp]) hs (by simp [blockEnabled, hp]) rfl, eventActions, initActions,
      ← List.singleton_append, run_append]
    exact congrArg _ (run_arming (by simp [run_push_phase, stepStart, hp]))
  · have hin : pageInRange s.cfg p = true := decide_eq_true hpage
    rw [exec_command_eq_run rfl, execAll_pushes (by simp [Instr.isCommand])]
    simp only [instrActions, readPageActions, ifAddressed_self, onePage, hin, if_true]
    rw [run_addressed hp, pageStream, List.map_map]
    rfl
  · refine ⟨_, exec_eq_run (by simp) _, ?_⟩
    rw [exec_command_eq_run rfl, instrActions, resetActions, ifAddressed_self, run_addressed hp, ← List.singleton_append,
      run_append]
    exact congrArg _ (run_rebootToApplication (by rwa [ack, run_push_phase]) _)
  · exact exec_eq_pushAck rfl hp (by decide) (by simp [instrActions, readPageActions, onePage_eq_none hlen])
  · exact exec_eq_pushAck rfl hp (by decide) (by simp [instrActions, writePageActions, onePage_eq_none hlen])
  · have hout : pageInRange s.cfg p = false := decide_eq_false (Nat.not_lt.2 hpage)
    exact exec_eq_pushAck rfl hp (by decide) (by simp [instrActions, writePageActions, onePage, hout])
  · exact exec_eq_pushAck rfl hp (by decide) (by simp [instrActions, pageDataActions, twoWords_eq_none hlen])
  · obtain ⟨d0, d1, rfl⟩ := List.length_eq_two.1 hlen
    exact exec_eq_pushAck rfl hp (by decide) (by simp [instrActions, pageDataActions, twoWords, hmode])

end Sys2Proof.Machine
end

section
/-! Proofs of the family 40_boot_latch.md: the Boot step (R73), the internal steps that wait for no event (R78, R124) and the
phases in which the block takes no step (R74, R76). -/

namespace Sys2Proof.Machine

/-! ### The Boot step -/

/-- With the sentinel in the latch: it is consumed, then the block jumps (R73). -/
theorem run_bootActions_of_sentinel {s : State} (hp : s.phase ≠ .fault) (hm : s.magic = s.cfg.sentinel) :
    run (bootActions s) s = { s with magic := s.cfg.magicClear, jumpApp := true, phase := .app } := by
  simp [bootActions, hm, run, perform, hp, State.setMagic, State.pulseJumpApp, State.setPhase]

/-- With any other value in the latch: the block stays resident (R73). -/
theorem run_bootActions_of_ne_sentinel {s : State} (hp : s.phase ≠ .fault) (hm : s.magic ≠ s.cfg.sentinel) :
    run (bootActions s) s = { s with phase := .init } := by
  rw [bootActions, if_neg hm, run_cons hp, run_nil, perform, State.setPhase]

/-- Boot leaves BOOT, whatever the latch holds (R73). -/
theorem run_bootActions_phase_ne {s : State} (hp : s.phase = .boot) : (run (bootActions s) s).phase ≠ .boot := by
  have hrun : s.phase ≠ .fault := by simp [hp]
  by_cases hm : s.magic = s.cfg.sentinel
  · simp [run_bootActions_of_sentinel hrun hm]
  · simp [run_bootActions_of_ne_sentinel hrun hm]

/-- Settles O13: the step is the run of Boot's actions, which the latch selects. -/
theorem bootStepConsumesTheSentinel : Obligations.BootStepConsumesTheSentinel := by
  intro s rest ha hp hs
  have hrun : s.phase ≠ .fault := by simp [hp]
  have hstep : step s = .next (run (bootActions (s.clearOutputs.setSched rest)) (s.clearOutputs.setSched rest)) :=
    step_block ha hrun hs (by simp [blockEnabled, hp]) rfl
  refine ⟨fun hm => hstep.trans (congrArg _ ?_), fun hm => hstep.trans (congrArg _ ?_)⟩
  · exact run_bootActions_of_sentinel hrun hm
  · exact run_bootActions_of_ne_sentinel hrun hm

/-! ### The internal steps and the events that are not enabled -/

/-- Init enters RUN (R125). -/
theorem run_initActions_phase {s : State} (hp : s.phase ≠ .fault) : (run (initActions s) s).phase = .run := by
  obtain ⟨wss, e⟩ := run_initActions hp
  rw [e]

/-- Nothing that is enabled depends on the outputs of the step before. -/
@[simp] theorem enabled_clearOutputs (e : Event) (s : State) : enabled e s.clearOutputs = enabled e s := by
  cases e <;> rfl

/-- Boot and Init do not wait for the schedule (R78, R124, log 8). -/
theorem step_eq_internalStep {s : State} (ha : s.cfg.admissible = true) (hp : s.phase = .boot ∨ s.phase = .init)
    (hs : s.sched = [] ∨ ∃ e rest, s.sched = e :: rest ∧ enabled e s = false) : step s = internalStep s.clearOutputs := by
  rw [step_eq_scheduledStep ha (by rcases hp with hp | hp <;> simp [hp])]
  rcases hs with hs | ⟨e, rest, hs, he⟩
  · simp [scheduledStep, hs]
  · simp [scheduledStep, hs, he, hp]

/-- In the other phases an event that is not enabled passes without effect (log 8). -/
theorem step_of_not_enabled {s : State} {e : Event} {rest : List Event} (ha : s.cfg.admissible = true)
    (hp : s.phase ≠ .fault) (hboot : s.phase ≠ .boot) (hinit : s.phase ≠ .init) (hs : s.sched = e :: rest)
    (he : enabled e s = false) : step s = .next (s.clearOutputs.setSched rest) := by
  rw [step_eq_scheduledStep ha hp]
  simp [scheduledStep, hs, he, hboot, hinit]

/-- Settles O16: the schedule is passed over, and neither step changes it. -/
theorem internalStepsWaitForNoEvent : Obligations.InternalStepsWaitForNoEvent := by
  intro s ha hs
  have hboot (hp : s.phase = .boot) : step s = blockStep .boot s.clearOutputs := by
    simp [step_eq_internalStep ha (.inl hp) hs, internalStep, hp]
  have hinit (hp : s.phase = .init) : step s = blockStep .init s.clearOutputs := by
    simp [step_eq_internalStep ha (.inr hp) hs, internalStep, hp]
  refine ⟨hboot, hinit, ?_⟩
  rintro (hp | hp)
  · exact ⟨_, hboot hp, by rw [hp]; exact run_bootActions_phase_ne hp, run_sched _ _⟩
  · have hrun : (run (initActions s.clearOutputs) s.clearOutputs).phase = .run := run_initActions_phase (by simp [hp])
    exact ⟨_, hinit hp, by simp [hp, hrun], run_sched _ _⟩

/-! ### The phases without a step of the block -/

/-- A step of the block, whole or cut, is enabled as the block's event is (R158). -/
theorem enabled_of_blockPart {e : Event} {b : BlockEvent} (h : e.blockPart = some b) (s : State) :
    enabled e s = blockEnabled b s := by
  cases e with
  | block | cut => obtain rfl := Option.some.inj h; rfl
  | reset | arrive | lose => simp [Event.blockPart] at h

/-- Outside BOOT, INIT and RUN the block has no step (R18). -/
theorem blockEnabled_eq_false {s : State} (hboot : s.phase ≠ .boot) (hinit : s.phase ≠ .init) (hrun : s.phase ≠ .run)
    (b : BlockEvent) : blockEnabled b s = false := by
  cases b <;> simp [blockEnabled, hboot, hinit, hrun]

/-- Settles O23: the event is not enabled, and the block has no internal step to do. -/
theorem inertPhasesTakeNoBlockStep : Obligations.InertPhasesTakeNoBlockStep := by
  intro s e b rest ha hp hs hb
  obtain ⟨hfault, hboot, hinit, hrun⟩ : s.phase ≠ .fault ∧ s.phase ≠ .boot ∧ s.phase ≠ .init ∧ s.phase ≠ .run := by
    rcases hp with hp | hp <;> simp [hp]
  exact step_of_not_enabled ha hfault hboot hinit hs
    ((enabled_of_blockPart hb s).trans (blockEnabled_eq_false hboot hinit hrun b))

end Sys2Proof.Machine
end

section
/-! Proofs of the family 41_flash_sequencer.md: the erase of a sector (R83), the program of a halfword (R84) and the places of
pages, words and sectors (R80, R81, R90). -/

namespace Sys2Proof.Machine

/-! ### Erase and program -/

/-- Draws left in a run of halfwords read back as free values. -/
theorem memRead_scramble (a n : Nat) (s : State) {i : Nat} (h : i < n) :
    memRead (scramble a n s) (a + 2 * i) = Config.freeWord (s.draws + i) :=
  readHalf_drawnBytes s.mem a s.draws n i h

/-- An erase of locked flash faults (R83). -/
theorem eraseSector_of_locked {s : State} (hu : s.flashUnlocked = false) (sid : Nat) :
    eraseSector sid s = s.raiseFault (.programWhileLocked (sectorAddress s.cfg sid)) :=
  if_pos hu

/-- An erase of unlocked, reliable flash fills the sector with 0xFF (R83). -/
theorem eraseSector_of_reliable {s : State} {sid : Nat} (hu : s.flashUnlocked = true)
    (hr : sectorInRegion s.cfg sid = true) (hf : s.cfg.flashReliable = true) :
    eraseSector sid s =
      s.setMem (s.mem.write (sectorAddress s.cfg sid) (List.replicate s.cfg.sectorBytes 0xFF)) := by
  rw [eraseSector, if_neg (by simp [hu]), if_neg (by simp [hr]), if_pos hf]

/-- An erase of unlocked, unreliable flash leaves draws in the sector (R83, R89). -/
theorem eraseSector_of_unreliable {s : State} {sid : Nat} (hu : s.flashUnlocked = true)
    (hr : sectorInRegion s.cfg sid = true) (hf : s.cfg.flashReliable = false) :
    eraseSector sid s = scramble (sectorAddress s.cfg sid) (s.cfg.sectorBytes / 2) s := by
  rw [eraseSector, if_neg (by simp [hu]), if_neg (by simp [hr]), if_neg (by simp [hf])]

/-- Settles O35: the erase by its three cases (locked, reliable, unreliable), and its frame. -/
theorem eraseSectorRule : Obligations.EraseSectorRule := by
  intro s sid _ hr
  refine ⟨fun hu => ⟨fun i hi => ⟨fun hf => ?_, fun hf => ?_⟩, fun a ha => ?_⟩, fun hl => eraseSector_of_locked hl sid⟩
  · rw [eraseSector_of_reliable hu hr hf]
    exact Memory.readHalf_write_erased _ _ _ _ (by omega) (by omega)
  · rw [eraseSector_of_unreliable hu hr hf]
    exact ⟨_, memRead_scramble _ _ s hi⟩
  · rw [Memory.readByte, eraseSector_outside s sid a ha, Memory.readByte]

/-- A program of locked flash faults (R84). -/
theorem memWrite_of_locked {s : State} (hu : s.flashUnlocked = false) (a : Nat) (v : Word) :
    memWrite a v s = s.raiseFault (.programWhileLocked a) :=
  if_pos hu

/-- Settles O36: the program by its three cases (locked, erased, not erased or unreliable), and its frame. -/
theorem memWriteRule : Obligations.MemWriteRule := by
  intro s a v hr
  refine ⟨fun hu => ⟨fun hf he => ?_, fun hne => ?_, fun x hx => ?_⟩, fun hl => memWrite_of_locked hl a v⟩
  · rw [memWrite_of_erased hu hr hf he]
    exact Memory.readHalf_writeHalf s.mem a v
  · rw [memWrite_of_not_erased hu hr hne]
    exact ⟨s.draws, by simpa using memRead_scramble a 1 s Nat.one_pos⟩
  · rw [Memory.readByte, memWrite_outside a v s x hx, Memory.readByte]

/-! ### The mapper -/

/-- A page that is no sector head has no sector to erase (R81). -/
theorem pageSector_of_not_head {c : Config} {p : Nat} (h : p % c.pagesPerSector ≠ 0) : pageSector c p = none :=
  if_neg h

/-- Words of different places do not overlap (R42, R80). -/
theorem pageAddress_disjoint_of_ne (c : Config) {p q w v : Nat} (hw : w < c.pageWords) (hv : v < c.pageWords)
    (h : (p, w) ≠ (q, v)) :
    pageAddress c p w + 2 ≤ pageAddress c q v ∨ pageAddress c q v + 2 ≤ pageAddress c p w := by
  by_cases hpq : p = q
  · subst hpq
    have hwv : w ≠ v := fun e => h (by rw [e])
    unfold pageAddress
    omega
  · exact pageAddress_disjoint c hw hv hpq

/-- Settles O37: a head's address is its sector's, which is aligned, and words lie in the region without overlap. -/
theorem mapperPlacesPagesAndSectors : Obligations.MapperPlacesPagesAndSectors := by
  intro c p q w v hadm hp _ hw hv
  have hc := Config.Admissible.of hadm
  obtain ⟨heven, hlo, hhi⟩ := of_decide_eq_true (pageAddress_inRegion hc hp hw)
  have hmax := hc.regionMax
  refine ⟨fun hm => ?_, pageSector_of_not_head, heven, hlo, hhi, by omega, pageAddress_disjoint_of_ne c hw hv⟩
  have hs := pageSector_of_head hm
  have ha := sectorAddress_of_head hs
  exact ⟨ha ▸ sectorAddress_aligned hc _, hs, ha⟩

end Sys2Proof.Machine
end

section
/-! Proofs of the family 42_framer.md: what the framer takes (R91, R92, R94), the command an `Rx` step runs (R91, R106) and the
frame a push offers (R95, R96). -/

namespace Sys2Proof.Machine

/-! ### Frames received -/

/-- A frame the framer takes has two bytes for each of its words (R58, R91). -/
theorem len_of_receive {c : Config} {f : Frame} {ws : List Word} (h : receive c f = some ws) : f.len = 2 * ws.length := by
  rw [Frame.len, data_of_receive h, length_packWords]

/-- A data frame that RX_ACCEPT takes is read as words (R91). -/
theorem receive_of_accepted {c : Config} {f : Frame} (hrtr : f.rtr = false) (hacc : rxAccept c f = true) :
    receive c f = (unpackBytes f.data).toOption := by
  simp [receive, hrtr, hacc]

/-- The framer takes the accepted data frames of even length, the empty one too (R91, R94). -/
theorem exists_receive_iff {c : Config} {f : Frame} :
    (∃ ws, receive c f = some ws) ↔ f.rtr = false ∧ rxAccept c f = true ∧ f.len % 2 = 0 := by
  constructor
  · rintro ⟨ws, h⟩
    obtain ⟨hrtr, hacc, _⟩ := receive_some h
    exact ⟨hrtr, hacc, by rw [len_of_receive h, Nat.mul_mod_right]⟩
  · rintro ⟨hrtr, hacc, heven⟩
    rw [receive_of_accepted hrtr hacc, ← Option.isSome_iff_exists, unpackBytes_isOk]
    exact decide_eq_true heven

/-- Settles O5: the framer takes exactly these frames, and two bytes are one word. -/
theorem receiveTakesEveryEvenDataFrame : Obligations.ReceiveTakesEveryEvenDataFrame := by
  refine ⟨fun c f => ⟨exists_receive_iff, fun hrtr hacc heven => ?_⟩, fun c f hall => by rw [rxAccept, hall], rfl⟩
  obtain ⟨ws, h⟩ := exists_receive_iff.2 ⟨hrtr, hacc, heven⟩
  have hlen := len_of_receive h
  refine ⟨ws, h, by omega, fun hf => ?_⟩
  have hmax : f.len ≤ 8 := of_decide_eq_true hf
  omega

/-- The `Rx` step of a frame that decodes to a command is the meaning of the command (R106). -/
theorem rxStep_of_decoded {s : State} {f : Frame} {ws : List Word} {i : Instr} (hr : receive s.cfg f = some ws)
    (hd : decodeCommand s.cfg ws = .ok i) : rxStep f s = exec i s := by
  simp only [rxStep, hr, hd]

/-- Settles O8: the scheduled `Rx` takes the pending frame, and its step runs the decoded command. -/
theorem stepRunsTheReceivedCommand : Obligations.StepRunsTheReceivedCommand := by
  intro s f q rest ws i ha hp hs hq hf hr hd
  rw [step_rx ha hp hs hq hf]
  exact rxStep_of_decoded hr hd

/-! ### Frames offered -/

/-- A push is one send of its words, at most four of them (R61, R95, R97). -/
theorem instrActions_push {i : Instr} (hi : i.isCommand = false) (s : State) :
    instrActions i s = [.send (encode s.cfg i)] ∧ (encode s.cfg i).length ≤ 4 := by
  cases i with
  | reset | readPage | writePage | pageData => exact absurd hi (by simp [Instr.isCommand])
  | pushDescription | pushPageData | pushAck => exact ⟨rfl, by simp [encode]⟩

/-- A push but the reserved one offers the frame of its words and changes nothing else (R61, R70, R95). -/
theorem exec_push {i : Instr} (hi : i.isCommand = false) (hne : i ≠ .pushAck .programFailed) {s : State}
    (hp : s.phase ≠ .fault) : exec i s = .next (sent [encode s.cfg i] s) := by
  obtain ⟨hacts, hlen⟩ := instrActions_push hi s
  rw [exec_eq_run hne, hacts, run_send hlen hp]

/-- Settles O31: each push offers the frame of its words, and one send appends one frame with its outcome draw. -/
theorem pushesOfferTheirFrame : Obligations.PushesOfferTheirFrame := by
  intro s a b d st hp
  refine ⟨exec_push rfl (by simp) hp, exec_push rfl (by simp) hp, fun hst => exec_push rfl (by simpa using hst) hp, rfl,
    fun ws => ?_⟩
  simp [sent, frameOf]

end Sys2Proof.Machine
end

section
/-! Proofs of the family 43_dispatcher.md: the frames that are no command (R106, R107, R121), the four commands with their
replies (R100, R109 to R120) and what each leaves unchanged. -/

namespace Sys2Proof.Machine

/-! ### Commands that run nothing -/

/-- In FAULT a command runs nothing (R24). -/
theorem exec_of_fault {i : Instr} {s : State} (hi : i.isCommand = true) (hp : s.phase = .fault) : exec i s = .next s := by
  rw [exec_command_eq_run hi, run_of_fault hp]

/-- For another node a command runs nothing: the address filter leaves no action (R106). -/
theorem exec_of_other_node {i : Instr} {node : Word} {body : List Action} {s : State} (hi : i.isCommand = true)
    (hacts : instrActions i s = ifAddressed s.cfg node body) (hn : node ≠ s.cfg.nodeId) : exec i s = .next s := by
  rw [exec_command_eq_run hi, hacts, ifAddressed_of_ne hn, run_nil]

/-- Settles O10: each of the four stands behind the address filter. -/
theorem commandsForOtherNodesAreIgnored : Obligations.CommandsForOtherNodesAreIgnored :=
  fun _ _ _ hn => ⟨exec_of_other_node rfl rfl hn, exec_of_other_node rfl rfl hn, exec_of_other_node rfl rfl hn,
    exec_of_other_node rfl rfl hn⟩

/-- An instruction answers one state only. -/
theorem eq_of_exec {i : Instr} {s t u : State} (ht : exec i s = .next t) (hu : exec i s = .next u) : t = u :=
  Host.Outcome.next.inj (ht.symm.trans hu)

/-- A command that answers did nothing, or was addressed to this node outside FAULT (R24, R106). -/
theorem eq_or_addressed {i : Instr} {node : Word} {body : List Action} {s t : State} (hi : i.isCommand = true)
    (hacts : instrActions i s = ifAddressed s.cfg node body) (h : exec i s = .next t) :
    t = s ∨ s.phase ≠ .fault ∧ node = s.cfg.nodeId := by
  by_cases hp : s.phase = .fault
  · exact .inl (eq_of_exec h (exec_of_fault hi hp))
  · by_cases hn : node = s.cfg.nodeId
    · exact .inr ⟨hp, hn⟩
    · exact .inl (eq_of_exec h (exec_of_other_node hi hacts hn))

/-! ### Addressed frames -/

/-- Words whose opcode is none of the four are no command (R68). -/
theorem decodeCommand_eq_error {c : Config} {op node : Word} {args : List Word}
    (h : op ∉ [c.opReset, c.opReadPage, c.opWritePage, c.opPageData]) :
    ∃ e, decodeCommand c (op :: node :: args) = .error e := by
  cases hd : decodeCommand c (op :: node :: args) with
  | error e => exact ⟨e, rfl⟩
  | ok i =>
    obtain ⟨_, _, _, ⟨_, hws⟩ | ⟨_, hws⟩ | ⟨_, hws⟩ | ⟨_, hws⟩⟩ := decodeCommand_ok hd
    all_goals exact absurd (List.head_eq_of_cons_eq hws) (by rintro rfl; simp at h)

/-- The `Rx` step of an addressed frame that is no command disarms the timeout (R107, R121). -/
theorem rxStep_of_undecoded {s : State} {f : Frame} {op : Word} {args : List Word} {e : Reject} (hp : s.phase ≠ .fault)
    (hr : receive s.cfg f = some (op :: s.cfg.nodeId :: args))
    (hd : decodeCommand s.cfg (op :: s.cfg.nodeId :: args) = .error e) : rxStep f s = .next (disarmed s) := by
  simp only [rxStep, hr, hd, strayActions, ifAddressed_self]
  rw [run_addressed hp, run_nil]

/-- Settles O7: the dispatcher's action for such words is the disarm alone. -/
theorem unrecognisedFramesOnlyDisarm : Obligations.UnrecognisedFramesOnlyDisarm := by
  intro s f q rest op args ha hp hs hq hf hr hop
  obtain ⟨e, hd⟩ := decodeCommand_eq_error hop
  rw [step_rx ha hp hs hq hf]
  exact rxStep_of_undecoded (by simp [hp]) hr hd

/-- A command for this node starts with the disarm (R107). -/
theorem instrActions_of_this_node {s : State} {op : Word} {args : List Word} {i : Instr}
    (hd : decodeCommand s.cfg (op :: s.cfg.nodeId :: args) = .ok i) : ∃ body, instrActions i s = addressed ++ body := by
  obtain ⟨node, args', _, ⟨rfl, hws⟩ | ⟨rfl, hws⟩ | ⟨rfl, hws⟩ | ⟨rfl, hws⟩⟩ := decodeCommand_ok hd
  all_goals
    obtain ⟨_, rfl, _⟩ := by simpa using hws
    exact ⟨_, ifAddressed_self _ _⟩

/-- A command for this node leaves the timeout disarmed, since only the disarm writes it (R107, R127). -/
theorem disarmed_of_run_instrActions {s : State} {op : Word} {args : List Word} {i : Instr} (hp : s.phase ≠ .fault)
    (hd : decodeCommand s.cfg (op :: s.cfg.nodeId :: args) = .ok i) : DisarmedFrom 0 (run (instrActions i s) s) := by
  obtain ⟨body, hbody⟩ := instrActions_of_this_node hd
  rw [hbody, run_addressed hp]
  refine run_invariant (P := DisarmedFrom 0) (fun a ha u hu => hu.perform ?_) ⟨rfl, .inl rfl⟩
  have hmem : a ∈ instrActions i s := hbody ▸ List.mem_append_right _ ha
  exact (mem_instrActions_cases (isCommand_of_decodeCommand hd) hmem).imp_right (Or.imp_right fun h => ⟨_, h.1⟩)

/-- The `Rx` step of an addressed frame leaves the timeout disarmed: the frame is a command whose first actions disarm, or
words that only disarm (R107, R121). -/
theorem rxStep_of_addressed {s : State} {f : Frame} {op : Word} {args : List Word} (hp : s.phase ≠ .fault)
    (hr : receive s.cfg f = some (op :: s.cfg.nodeId :: args)) : ∃ t, rxStep f s = .next t ∧ DisarmedFrom 0 t := by
  cases hd : decodeCommand s.cfg (op :: s.cfg.nodeId :: args) with
  | error e => exact ⟨_, rxStep_of_undecoded hp hr hd, rfl, .inl rfl⟩
  | ok i =>
    refine ⟨_, (rxStep_of_decoded hr hd).trans ?_, disarmed_of_run_instrActions hp hd⟩
    exact exec_command_eq_run (isCommand_of_decodeCommand hd) s

/-- Settles O11: the step is the `Rx` step of the addressed frame. -/
theorem addressedFramesDisarmTheTimeout : Obligations.AddressedFramesDisarmTheTimeout := by
  intro s f q rest ws ha hp hs hq hf hr hnode
  obtain ⟨op, args, rfl⟩ : ∃ op args, ws = op :: s.cfg.nodeId :: args := by
    match ws, hnode with
    | op :: _ :: args, rfl => exact ⟨op, args, rfl⟩
  obtain ⟨t, hrx, hen, htimer⟩ := rxStep_of_addressed
    (s := { s.clearOutputs with sched := rest, rxQueue := q }) (by simp [hp]) hr
  exact ⟨t, (step_rx ha hp hs hq hf).trans hrx, or_self_iff.1 htimer, hen⟩

/-! ### Replies and the reboot -/

/-- An acknowledgement on the disarmed state (R102, R107). -/
theorem exec_pushAck_disarmed {s : State} {st : Status} (hp : s.phase ≠ .fault) (hst : st ≠ .programFailed) :
    exec (.pushAck st) (disarmed s) = .next (sent [[s.cfg.opAck, statusWord s.cfg st]] (disarmed s)) :=
  exec_push rfl (by simpa using hst) hp

/-- Settles O28: each rejection is one PUSH_ACK on the disarmed state. -/
theorem rejectedCommandsOnlyAnswer : Obligations.RejectedCommandsOnlyAnswer := by
  intro s args hp
  obtain ⟨_, _, hreplies⟩ := pushesRunInsideTheirSteps
  obtain ⟨_, hone, hrange, htwo, hidle⟩ := hreplies s args hp
  refine ⟨fun hlen => ⟨(hone hlen).1.trans ?_, (hone hlen).2.trans ?_⟩, fun p hpage => (hrange p hpage).trans ?_,
    fun hlen => (htwo hlen).trans ?_, fun hlen hm => (hidle hlen hm).trans ?_⟩
  all_goals exact exec_pushAck_disarmed hp (by decide)

/-- Settles O24: RESET is PUSH_ACK of OK on the disarmed state, and then the reboot. -/
theorem resetCommandReboots : Obligations.ResetCommandReboots := by
  intro s args hp
  obtain ⟨_, _, hreplies⟩ := pushesRunInsideTheirSteps
  obtain ⟨⟨u, hack, hexec⟩, _⟩ := hreplies s args hp
  obtain rfl := eq_of_exec hack (exec_pushAck_disarmed hp (by decide))
  exact hexec

/-! ### READ_PAGE -/

/-- Pushes one after another are a row of sends (R95). -/
theorem execAll_pushes_eq_sent {is : List Instr} (h : ∀ i ∈ is, i.isCommand = false ∧ i ≠ .pushAck .programFailed)
    {s : State} (hp : s.phase ≠ .fault) : execAll is s = .next (sent (is.map (encode s.cfg)) s) := by
  have hlen : ∀ ws ∈ is.map (encode s.cfg), ws.length ≤ 4 := by
    intro ws hws
    obtain ⟨i, hi, rfl⟩ := List.mem_map.1 hws
    exact (instrActions_push (h i hi).1 s).2
  rw [execAll_pushes h, ← run_sends _ hlen s hp, List.map_map]
  rfl

/-- Settles O25: the pushes of the page are a row of sends. -/
theorem readPageStreamsThePage : Obligations.ReadPageStreamsThePage := by
  intro s p hp hpage
  obtain ⟨_, hstream, _⟩ := pushesRunInsideTheirSteps
  rw [hstream s p hp hpage, execAll_pushes_eq_sent (by simp [Instr.isCommand]) (by exact hp), List.map_map]
  rfl

/-- READ_PAGE of a page outside the region follows the policy on the disarmed state (R110, R111). -/
theorem exec_readPage_of_outOfRange {s : State} {p : Word} (hp : s.phase ≠ .fault) (hpage : s.cfg.availablePages ≤ p.toNat) :
    exec (.readPage s.cfg.nodeId [p]) s = .next (run (outOfRangeRead s.cfg p) (disarmed s)) := by
  have hout : ¬ pageInRange s.cfg p = true := by simpa [pageInRange] using hpage
  rw [exec_command_eq_run rfl, instrActions, readPageActions, ifAddressed_self, run_addressed hp]
  simp only [onePage, if_neg hout]

/-- Settles O26: the policy raises the fault, or sends a row of drawn pushes. -/
theorem readPageOutOfRangeFollowsPolicy : Obligations.ReadPageOutOfRangeFollowsPolicy := by
  intro s p hp hpage
  have hp' : (disarmed s).phase ≠ .fault := hp
  rw [exec_readPage_of_outOfRange hp hpage]
  refine ⟨fun hf => ?_, fun hv => ?_⟩
  · rw [outOfRangeRead, hf, run_cons hp', run_nil]
    rfl
  · obtain ⟨frames, d, hrun, hlen, hframes⟩ := run_drawn (s.cfg.pageWords / 2) (disarmed s) hp'
    rw [outOfRangeRead, hv]
    exact ⟨_, frames, congrArg _ hrun, rfl, hlen, hframes⟩

/-! ### WRITE_PAGE -/

/-- The registers an accepted WRITE_PAGE sets before it erases, with flash unlocked (R85, R116). -/
def opened (p : Word) (s : State) : State :=
  { s with programmingMode := true, currentPage := p, cursor := 0, flashUnlocked := true }

/-- Opening a page that is no head sets the registers alone (R85, R116). -/
theorem run_openPage_of_not_head {s : State} {p : Word} (hp : s.phase ≠ .fault) (h : pageSector s.cfg p.toNat = none) :
    run (openPage p ++ erasePage s.cfg p.toNat) s = opened p s := by
  simp [openPage, erasePage, h, run, perform, hp, opened, State.setProgrammingMode, State.setCurrentPage,
    State.setCursor, State.setFlashUnlocked]

/-- Opening a head sets the registers and erases its sector (R85, R116). -/
theorem run_openPage_of_head {s : State} {p : Word} {sid : Nat} (hp : s.phase ≠ .fault)
    (h : pageSector s.cfg p.toNat = some sid) :
    run (openPage p ++ erasePage s.cfg p.toNat) s = eraseSector sid (opened p s) := by
  simp [openPage, erasePage, h, run, perform, hp, opened, State.setProgrammingMode, State.setCurrentPage,
    State.setCursor, State.setFlashUnlocked]

/-- An accepted WRITE_PAGE acknowledges once it has opened the page on the disarmed state (R116). -/
theorem exec_writePage_of_run {s u : State} {p : Word} (hp : s.phase ≠ .fault) (hpage : p.toNat < s.cfg.availablePages)
    (hrun : run (openPage p ++ erasePage s.cfg p.toNat) (disarmed s) = u) (hu : u.phase ≠ .fault) :
    exec (.writePage s.cfg.nodeId [p]) s = .next (sent [[s.cfg.opAck, s.cfg.stOk]] u) := by
  subst hrun
  have hin : pageInRange s.cfg p = true := decide_eq_true hpage
  rw [exec_command_eq_run rfl, instrActions, writePageActions, ifAddressed_self, run_addressed hp]
  simp only [onePage, hin, if_true]
  rw [run_append]
  exact congrArg _ (run_ack hu (by simp))

/-- Settles O27: by the page (a head or not) and the flash (reliable or not). -/
theorem writePageOpensAndErases : Obligations.WritePageOpensAndErases := by
  intro s p ha hp hpage
  have hc := Config.Admissible.of ha
  by_cases hm : p.toNat % s.cfg.pagesPerSector = 0
  · have hhead := pageSector_of_head hm
    have hin := sectorInRegion_of_head hc hpage hhead
    have haddr := sectorAddress_of_head hhead
    have hopen := run_openPage_of_head (s := disarmed s) hp hhead
    cases hf : s.cfg.flashReliable with
    | true =>
      have herase := eraseSector_of_reliable (s := opened p (disarmed s)) rfl hin hf
      refine ⟨_, _, exec_writePage_of_run hp hpage (hopen.trans herase) hp, (absurd hm ·), fun _ _ => ⟨rfl, ?_⟩,
        fun _ h => Bool.noConfusion h⟩
      exact congrArg (s.mem.write · _) haddr
    | false =>
      have herase := eraseSector_of_unreliable (s := opened p (disarmed s)) rfl hin hf
      have heven := Config.Admissible.sectorBytesEven (c := s.cfg)
      rw [pageAddress, Nat.mul_zero, Nat.add_zero] at haddr
      refine ⟨_, _, exec_writePage_of_run hp hpage (hopen.trans herase) hp, (absurd hm ·), fun _ h => Bool.noConfusion h,
        fun _ _ => ?_⟩
      rw [← haddr]
      refine ⟨fun i hi => ⟨_, readHalf_drawnBytes _ _ _ _ i hi⟩, fun a ha => ?_⟩
      exact Memory.readByte_write_outside s.mem (sectorAddress s.cfg _) (drawnBytes s.draws (s.cfg.sectorBytes / 2)) a
        (by rw [length_drawnBytes]; omega)
  · have hopen := run_openPage_of_not_head (s := disarmed s) hp (pageSector_of_not_head hm)
    exact ⟨_, _, exec_writePage_of_run hp hpage hopen hp, fun _ => ⟨rfl, rfl⟩, (absurd · hm), (absurd · hm)⟩

/-! ### PAGE_DATA -/

/-- An accepted PAGE_DATA fills the buffer, commits if the page is full, and acknowledges (R117 to R119). -/
theorem exec_pageData_of_run {s u : State} (hi : Inv s) (hp : s.phase ≠ .fault) (hm : s.programmingMode = true)
    {d0 d1 : Word} (hrun : run (commitActions d0 d1 s) (filled d0 d1 s) = u) (hu : u.phase ≠ .fault) :
    exec (.pageData s.cfg.nodeId [d0, d1]) s = .next (sent [[s.cfg.opAck, s.cfg.stOk]] u) := by
  subst hrun
  rw [exec_command_eq_run rfl, instrActions, pageDataActions, ifAddressed_self, run_addressed hp]
  simp only [twoWords, hm, if_true]
  rw [run_append, run_append, run_fill hi hp hm]
  exact congrArg _ (run_ack hu (by simp))

/-- A PAGE_DATA commits exactly when its pair fills the page (R118). -/
theorem commits_iff {s : State} (hi : Inv s) (hm : s.programmingMode = true) :
    commits s = true ↔ s.cursor.toNat + 2 = s.cfg.pageWords := by
  rw [commits, nextCursor_toNat hi hm, decide_eq_true_eq]

/-- Settles O29: below a full page the commit has no action. -/
theorem pageDataFillsTheBuffer : Obligations.PageDataFillsTheBuffer := by
  intro s d0 d1 hi hp hm hlt
  have hnone : run (commitActions d0 d1 s) (filled d0 d1 s) = filled d0 d1 s := by
    rw [commitActions, if_neg (mt (commits_iff hi hm).1 (by omega)), run_nil]
  exact exec_pageData_of_run hi hp hm hnone hp

/-- The commit of a full page programs the filled buffer, locks flash and closes the page: each halfword takes its word or a
draw, and no byte outside the page changes (R84, R86, R119). -/
theorem run_commitActions_of_full {s : State} (hi : Inv s) (hp : s.phase ≠ .fault) (hm : s.programmingMode = true)
    (d0 d1 : Word) (hfull : s.cursor.toNat + 2 = s.cfg.pageWords) :
    ∃ m d, run (commitActions d0 d1 s) (filled d0 d1 s) = committed d0 d1 m d s ∧
      (∀ x, (x < pageAddress s.cfg s.currentPage.toNat 0 ∨ pageAddress s.cfg s.currentPage.toNat s.cfg.pageWords ≤ x) →
        m.readByte x = s.mem.readByte x) ∧
      ∀ i (h : i < (filledBuf d0 d1 s).length),
        (s.cfg.flashReliable = true ∧ readWord s s.currentPage.toNat i = 0xFFFF →
          m.readHalf (pageAddress s.cfg s.currentPage.toNat i) = (filledBuf d0 d1 s)[i]) ∧
        (¬ (s.cfg.flashReliable = true ∧ readWord s s.currentPage.toNat i = 0xFFFF) →
          ∃ n, m.readHalf (pageAddress s.cfg s.currentPage.toNat i) = Config.freeWord n) := by
  obtain ⟨_, _, hpage⟩ := hi.openPage hm
  have hlen : (filledBuf d0 d1 s).length = s.cfg.pageWords := (length_filledBuf d0 d1 s).trans hi.bufLength
  obtain ⟨m, d, hwrites, houtside, hwords⟩ := run_writes (s := filled d0 d1 s) (Config.Admissible.of hi.admissible) hp
    (hi.openUnlocked hm) hpage (filledBuf d0 d1 s) hlen.le
  refine ⟨m, d, ?_, hlen ▸ houtside, hwords⟩
  rw [commitActions, if_pos ((commits_iff hi hm).2 hfull), writePage, List.append_assoc, run_append]
  refine (congrArg (run ([.setFlashUnlocked false] ++ closePage)) hwrites).trans ?_
  simp [closePage, run, perform, committed, filled, hp, State.setFlashUnlocked, State.setProgrammingMode,
    State.setCursor]

/-- Settles O30: the commit programs the page, and the acknowledgement follows whatever flash took. -/
theorem pageDataCommitsTheFullPage : Obligations.PageDataCommitsTheFullPage := by
  intro s d0 d1 hi hp hm hfull
  obtain ⟨m, d, hrun, houtside, hwords⟩ := run_commitActions_of_full hi hp hm d0 d1 hfull
  have hlen : (filledBuf d0 d1 s).length = s.cfg.pageWords := (length_filledBuf d0 d1 s).trans hi.bufLength
  refine ⟨m, d, exec_pageData_of_run hi hp hm hrun hp, fun i h => ?_, houtside⟩
  obtain ⟨htaken, hdrawn⟩ := hwords i (hlen ▸ h)
  exact ⟨fun hf he => (htaken ⟨hf, he⟩).symm ▸ (List.getElem?_eq_getElem _).symm, hdrawn⟩

/-! ### Frames -/

/-- What a push can do: nothing in FAULT, and one send elsewhere (R24, R95). -/
theorem exec_push_cases {i : Instr} {s t : State} (hi : i.isCommand = false) (h : exec i s = .next t) :
    t = s ∨ ∃ ws, t = sent [ws] s := by
  have hne : i ≠ .pushAck .programFailed := by rintro rfl; simp [exec, execPushAck] at h
  by_cases hp : s.phase = .fault
  · exact .inl (eq_of_exec h ((exec_eq_run hne s).trans (congrArg _ (run_of_fault hp _))))
  · exact .inr ⟨_, eq_of_exec h (exec_push hi hne hp)⟩

/-- What RESET can do (R106, R109). -/
theorem exec_reset_cases {node : Word} {args : List Word} {s t : State} (h : exec (.reset node args) s = .next t) :
    t = s ∨ t = { sent [[s.cfg.opAck, s.cfg.stOk]] (disarmed s) with
      magic := s.cfg.sentinel, sysResetReq := true, phase := .resetPending } := by
  rcases eq_or_addressed rfl rfl h with ht | ⟨hp, rfl⟩
  · exact .inl ht
  · exact .inr (eq_of_exec h (resetCommandReboots s args hp))

/-- What READ_PAGE can do: nothing, sends on the disarmed state, or the fault of a page outside the region (R110 to R112). -/
theorem exec_readPage_cases {node : Word} {args : List Word} {s t : State} (h : exec (.readPage node args) s = .next t) :
    t = s ∨ (∃ frames d, t = { disarmed s with tx := s.tx ++ frames, draws := d }) ∨
      ∃ r, t = (disarmed s).raiseFault r := by
  rcases eq_or_addressed rfl rfl h with ht | ⟨hp, rfl⟩
  · exact .inl ht
  obtain ⟨hsize, _⟩ := rejectedCommandsOnlyAnswer s args hp
  by_cases hlen : args.length = 1
  · obtain ⟨p, rfl⟩ := List.length_eq_one_iff.1 hlen
    by_cases hpage : p.toNat < s.cfg.availablePages
    · exact .inr (.inl ⟨_, _, eq_of_exec h (readPageStreamsThePage s p hp hpage)⟩)
    · obtain ⟨hfault, hany⟩ := readPageOutOfRangeFollowsPolicy s p hp (Nat.not_lt.1 hpage)
      cases hoor : s.cfg.oorRead with
      | fault => exact .inr (.inr ⟨_, eq_of_exec h (hfault hoor)⟩)
      | anyValue =>
        obtain ⟨u, frames, hexec, hu, _⟩ := hany hoor
        exact .inr (.inl ⟨frames, u.draws, (eq_of_exec h hexec).trans hu⟩)
  · exact .inr (.inl ⟨_, _, eq_of_exec h (hsize hlen).1⟩)

/-- Settles O32: by the instruction, and what it can do. -/
theorem nonStoringInstructionsFrame : Obligations.NonStoringInstructionsFrame := by
  intro i s t hi h
  cases i with
  | writePage | pageData => exact hi.elim
  | reset node args =>
    rcases exec_reset_cases h with rfl | rfl
    all_goals exact ⟨fun _ => rfl, rfl, rfl, rfl, rfl, rfl, rfl, rfl, rfl, rfl, fun hne => absurd rfl (hne node args),
      fun _ => rfl, fun hpush => Bool.noConfusion hpush⟩
  | readPage node args =>
    rcases exec_readPage_cases h with rfl | ⟨frames, d, rfl⟩ | ⟨r, rfl⟩
    all_goals exact ⟨fun _ => rfl, rfl, rfl, rfl, rfl, rfl, rfl, rfl, rfl, rfl, fun _ => ⟨rfl, rfl⟩,
      fun hne => absurd rfl (hne node args), fun hpush => Bool.noConfusion hpush⟩
  | pushDescription | pushPageData | pushAck =>
    rcases exec_push_cases rfl h with rfl | ⟨ws, rfl⟩
    all_goals exact ⟨fun _ => rfl, rfl, rfl, rfl, rfl, rfl, rfl, rfl, rfl, rfl, fun _ => ⟨rfl, rfl⟩, fun _ => rfl,
      fun _ => ⟨rfl, rfl, rfl⟩⟩

/-- A page has no sector to erase exactly when it is no head (R81). -/
theorem pageSector_eq_none_iff {c : Config} {p : Nat} : pageSector c p = none ↔ p % c.pagesPerSector ≠ 0 :=
  ⟨fun h hm => by simp [pageSector_of_head hm] at h, pageSector_of_not_head⟩

/-- What WRITE_PAGE can do: nothing, one reply on the disarmed state, or open a page of the region, with no byte of flash
changed outside its sector, and none where it is no head (R113 to R116, R85). -/
theorem exec_writePage_cases {node : Word} {args : List Word} {s t : State} (ha : s.cfg.admissible = true)
    (h : exec (.writePage node args) s = .next t) :
    t = s ∨ (∃ ws, t = sent [ws] (disarmed s)) ∨
      ∃ p m d, node = s.cfg.nodeId ∧ args = [p] ∧ p.toNat < s.cfg.availablePages ∧
        t = sent [[s.cfg.opAck, s.cfg.stOk]] { opened p (disarmed s) with mem := m, draws := d } ∧
        (pageSector s.cfg p.toNat = none → m = s.mem) ∧
        ∀ sid a, pageSector s.cfg p.toNat = some sid →
          (a < sectorAddress s.cfg sid ∨ sectorAddress s.cfg sid + s.cfg.sectorBytes ≤ a) →
          m.readByte a = s.mem.readByte a := by
  rcases eq_or_addressed rfl rfl h with ht | ⟨hp, rfl⟩
  · exact .inl ht
  obtain ⟨hsize, hrange, _⟩ := rejectedCommandsOnlyAnswer s args hp
  by_cases hlen : args.length = 1
  · obtain ⟨p, rfl⟩ := List.length_eq_one_iff.1 hlen
    by_cases hpage : p.toNat < s.cfg.availablePages
    · obtain ⟨m, d, hexec, hnone, hreliable, hdrawn⟩ := writePageOpensAndErases s p ha hp hpage
      refine .inr (.inr ⟨p, m, d, rfl, rfl, hpage, eq_of_exec h hexec, fun hs => ?_, fun sid a hs hx => ?_⟩)
      · exact (hnone (pageSector_eq_none_iff.1 hs)).1
      · have hm : p.toNat % s.cfg.pagesPerSector = 0 := by
          by_contra hne
          simp [pageSector_of_not_head hne] at hs
        rw [sectorAddress_of_head hs] at hx
        cases hf : s.cfg.flashReliable with
        | true =>
          rw [(hreliable hm hf).2]
          exact Memory.readByte_write_outside _ _ _ a (by rwa [List.length_replicate])
        | false => exact (hdrawn hm hf).2 a hx
    · exact .inr (.inl ⟨_, eq_of_exec h (hrange p (Nat.not_lt.1 hpage))⟩)
  · exact .inr (.inl ⟨_, eq_of_exec h (hsize hlen).2⟩)

/-- Settles O33: where WRITE_PAGE opens a page, only its registers, flash and the count of draws differ. -/
theorem writePageFrame : Obligations.WritePageFrame := by
  intro s t node args ha h
  rcases exec_writePage_cases ha h with rfl | ⟨ws, rfl⟩ | ⟨p, m, d, rfl, rfl, hpage, rfl, hnone, hsome⟩
  · exact ⟨fun _ _ _ _ _ _ => rfl, fun _ _ => rfl, rfl, rfl, rfl, rfl, rfl, rfl, rfl, rfl, rfl⟩
  · exact ⟨fun _ _ _ _ _ _ => rfl, fun _ _ => rfl, rfl, rfl, rfl, rfl, rfl, rfl, rfl, rfl, rfl⟩
  · refine ⟨?_, ?_, rfl, rfl, rfl, rfl, rfl, rfl, rfl, rfl, rfl⟩
    · rintro q sid a ⟨rfl⟩ hs hx
      exact hsome sid a hs hx
    · rintro (hn | hlen | ⟨q, ⟨rfl⟩, hout | hs⟩) a
      · exact absurd rfl hn
      · exact absurd rfl hlen
      · exact absurd hpage (Nat.not_lt.2 hout)
      · exact congrArg (Memory.readByte · a) (hnone hs)

/-- What PAGE_DATA can do under the invariants: nothing, one reply on the disarmed state, fill the buffer below a full page,
or fill it and commit the page, with no byte of flash changed outside it (R117 to R120). -/
theorem exec_pageData_cases {node : Word} {args : List Word} {s t : State} (hi : Inv s)
    (h : exec (.pageData node args) s = .next t) :
    t = s ∨ (∃ ws, t = sent [ws] (disarmed s)) ∨
      ∃ d0 d1, node = s.cfg.nodeId ∧ args = [d0, d1] ∧ s.programmingMode = true ∧
        (t = sent [[s.cfg.opAck, s.cfg.stOk]] (filled d0 d1 s) ∨
          s.cursor.toNat + 2 = s.cfg.pageWords ∧ ∃ m d,
            t = sent [[s.cfg.opAck, s.cfg.stOk]] (committed d0 d1 m d s) ∧
            ∀ a, (a < pageAddress s.cfg s.currentPage.toNat 0 ∨
                pageAddress s.cfg s.currentPage.toNat 0 + s.cfg.pageBytes ≤ a) →
              m.readByte a = s.mem.readByte a) := by
  rcases eq_or_addressed rfl rfl h with ht | ⟨hp, rfl⟩
  · exact .inl ht
  obtain ⟨_, _, hsize, hidle⟩ := rejectedCommandsOnlyAnswer s args hp
  by_cases hlen : args.length = 2
  · cases hm : s.programmingMode with
    | false => exact .inr (.inl ⟨_, eq_of_exec h (hidle hlen hm)⟩)
    | true =>
      obtain ⟨d0, d1, rfl⟩ := List.length_eq_two.1 hlen
      obtain ⟨_, hle, _⟩ := hi.openPage hm
      refine .inr (.inr ⟨d0, d1, rfl, rfl, rfl, ?_⟩)
      rcases hle.lt_or_eq with hlt | hfull
      · exact .inl (eq_of_exec h (pageDataFillsTheBuffer s d0 d1 hi hp hm hlt))
      · obtain ⟨m, d, hexec, _, houtside⟩ := pageDataCommitsTheFullPage s d0 d1 hi hp hm hfull
        exact .inr ⟨hfull, m, d, eq_of_exec h hexec, houtside⟩
  · exact .inr (.inl ⟨_, eq_of_exec h (hsize hlen)⟩)

/-- The two entries of an accepted PAGE_DATA leave the others alone (R118). -/
theorem getElem?_filledBuf_of_ne (d0 d1 : Word) (s : State) {j : Nat} (h0 : j ≠ s.cursor.toNat)
    (h1 : j ≠ s.cursor.toNat + 1) : (filledBuf d0 d1 s)[j]? = s.buf[j]? := by
  rw [filledBuf, List.getElem?_set_ne h1.symm, List.getElem?_set_ne h0.symm]

/-- Settles O34: where PAGE_DATA is accepted, only the buffer, the programming registers, flash and the count of draws
differ. -/
theorem pageDataFrame : Obligations.PageDataFrame := by
  intro s t node args hi h
  rcases exec_pageData_cases hi h with rfl | ⟨ws, rfl⟩ | ⟨d0, d1, rfl, rfl, hm, rfl | ⟨hfull, m, d, rfl, houtside⟩⟩
  · exact ⟨fun _ _ => rfl, fun _ _ => rfl, fun _ _ _ => rfl, rfl, rfl, rfl, rfl, rfl, rfl, rfl, rfl, rfl⟩
  · exact ⟨fun _ _ => rfl, fun _ _ => rfl, fun _ _ _ => rfl, rfl, rfl, rfl, rfl, rfl, rfl, rfl, rfl, rfl⟩
  · exact ⟨fun _ _ => rfl, fun _ _ => rfl, fun _ => getElem?_filledBuf_of_ne d0 d1 s, rfl, rfl, rfl, rfl, rfl, rfl, rfl,
      rfl, rfl⟩
  · refine ⟨houtside, ?_, fun _ => getElem?_filledBuf_of_ne d0 d1 s, rfl, rfl, rfl, rfl, rfl, rfl, rfl, rfl, rfl⟩
    rintro (hn | hlen | hidle | hne)
    · exact absurd rfl hn
    · exact absurd rfl hlen
    · exact absurd hm (by simp [hidle])
    · exact absurd hfull hne

end Sys2Proof.Machine
end

section
/-! Proofs of the family 44_supervisor.md: the ticks and the timeout (R128, R129), the ways out of RUN (R126), the Init step and
its description, sent once per session (R124, R125). -/

namespace Sys2Proof.Machine

/-! ### The Tick step -/

/-- A disarmed tick has no action (R128). -/
theorem run_tickActions_of_disarmed {s : State} (hd : s.timeoutEnabled = false) : run (tickActions s) s = s := by
  rw [tickActions, if_neg (by simp [hd]), run_nil]

/-- An armed tick below the last one counts (R128). -/
theorem run_tickActions_of_below {s : State} (hp : s.phase ≠ .fault) (he : s.timeoutEnabled = true)
    (hne : s.timer + 1 ≠ s.cfg.timeoutTicks) : run (tickActions s) s = { s with timer := s.timer + 1 } := by
  rw [tickActions, if_pos he, if_neg hne, run_cons hp, run_nil, perform, State.setTimer]

/-- The armed tick that counts TIMEOUT_TICKS reboots (R75, R128). -/
theorem run_tickActions_of_last {s : State} (hp : s.phase ≠ .fault) (he : s.timeoutEnabled = true)
    (hlast : s.timer + 1 = s.cfg.timeoutTicks) :
    run (tickActions s) s = { s with
      timer := s.timer + 1, magic := s.cfg.sentinel, sysResetReq := true, phase := .resetPending } := by
  rw [tickActions, if_pos he, if_pos hlast, run_cons hp]
  exact run_rebootToApplication (s := s.setTimer (s.timer + 1)) hp s.cfg

/-- Settles O17: disarmed, below the last tick, at the last tick; no case passes TIMEOUT_TICKS. -/
theorem tickStepCountsAndReboots : Obligations.TickStepCountsAndReboots := by
  intro s rest ha hp hs
  have hf : (s.clearOutputs.setSched rest).phase ≠ .fault := by simp [hp]
  have hdisarmed (hd : s.timeoutEnabled = false) :=
    (step_tick ha hp hs).trans (congrArg _ (run_tickActions_of_disarmed (s := s.clearOutputs.setSched rest) hd))
  have hbelow (he : s.timeoutEnabled = true) (hne : s.timer + 1 ≠ s.cfg.timeoutTicks) :=
    (step_tick ha hp hs).trans (congrArg _ (run_tickActions_of_below hf he hne))
  have hlast (he : s.timeoutEnabled = true) (heq : s.timer + 1 = s.cfg.timeoutTicks) :=
    (step_tick ha hp hs).trans (congrArg _ (run_tickActions_of_last hf he heq))
  refine ⟨hdisarmed, hbelow, hlast, fun hlt => ?_⟩
  cases he : s.timeoutEnabled with
  | false => exact ⟨_, hdisarmed he, hlt.le⟩
  | true =>
    by_cases heq : s.timer + 1 = s.cfg.timeoutTicks
    · exact ⟨_, hlast he heq, hlt⟩
    · exact ⟨_, hbelow he heq, hlt⟩

/-! ### The timeout, undisturbed -/

/-- Steps after a run that answers `u` are steps from `u`. -/
theorem coreRun_add {M : Host.Core} {m k : Nat} {s u : M.State} (h : M.run m s = .next u) :
    M.run (m + k) s = M.run k u := by
  induction m generalizing s with
  | zero =>
    obtain rfl : s = u := Host.Outcome.next.inj h
    rw [Nat.zero_add]
  | succ m ih =>
    rw [Nat.add_right_comm]
    simp only [Host.Core.run] at h ⊢
    cases hv : M.step s with
    | next v => simp only [hv] at h; exact ih h
    | fault | refused => simp only [hv] at h; cases h

/-- A run of one step is the step. -/
theorem coreRun_one {s t : State} (h : step s = .next t) : Host.Core.run Sys2Proof.core 1 s = .next t := by
  have hcore : Sys2Proof.core.step s = .next t := h
  simp only [Host.Core.run, hcore]

/-- `s` is an armed RUN with `n` ticks left to TIMEOUT_TICKS, all of them next in the schedule; the configuration, the latch
and flash are those of `s₀` (R128). -/
structure Counting (s₀ : State) (rest : List Event) (n : Nat) (s : State) : Prop where
  cfg : s.cfg = s₀.cfg
  magic : s.magic = s₀.magic
  mem : s.mem = s₀.mem
  phase : s.phase = .run
  armed : s.timeoutEnabled = true
  count : s.timer + n = s.cfg.timeoutTicks
  sched : s.sched = List.replicate n (.block .tick) ++ rest

/-- A tick before the last one counts and disturbs nothing (R128). -/
theorem Counting.step {s₀ s : State} {rest : List Event} {n : Nat} (h : Counting s₀ rest (n + 2) s)
    (ha : s₀.cfg.admissible = true) : ∃ u, step s = .next u ∧ Counting s₀ rest (n + 1) u := by
  have hcount := h.count
  obtain ⟨_, hbelow, _⟩ := tickStepCountsAndReboots s _ (h.cfg ▸ ha) h.phase h.sched
  refine ⟨_, hbelow h.armed (by omega), { h with count := ?_, sched := rfl }⟩
  show s.timer + 1 + (n + 1) = s.cfg.timeoutTicks
  omega

/-- Fewer ticks than are left count and disturb nothing (R128, R129). -/
theorem Counting.run {s₀ s : State} {rest : List Event} {m k : Nat} (h : Counting s₀ rest (m + (k + 1)) s)
    (ha : s₀.cfg.admissible = true) :
    ∃ u, Host.Core.run Sys2Proof.core m s = .next u ∧ Counting s₀ rest (k + 1) u := by
  induction m generalizing k with
  | zero => exact ⟨s, rfl, by rwa [Nat.zero_add] at h⟩
  | succ m ih =>
    obtain ⟨u, hu, hcu⟩ := ih (k := k + 1) (by rwa [Nat.add_right_comm] at h)
    obtain ⟨v, hv, hcv⟩ := hcu.step ha
    exact ⟨v, (coreRun_add hu).trans (coreRun_one hv), hcv⟩

/-- Settles O51: all ticks but the last only count, the last one reboots, and RESET_PENDING has no step of the block. -/
theorem undisturbedTimeoutRebootsOnce : Obligations.UndisturbedTimeoutRebootsOnce := by
  intro s n rest hi hp hen hn hs
  have ha := hi.admissible
  have hstart : Counting s rest n s := ⟨rfl, rfl, rfl, hp, hen, hn, hs⟩
  have hpos : 0 < n := by
    have := hi.armedTimer hen (by simp [hp])
    omega
  obtain ⟨l, rfl⟩ := Nat.exists_eq_add_one.2 hpos
  obtain ⟨u, hu, hcu⟩ := hstart.run ha
  obtain ⟨_, _, hlast, _⟩ := tickStepCountsAndReboots u rest (hcu.cfg ▸ ha) hcu.phase hcu.sched
  have hrun := (coreRun_add hu).trans (coreRun_one (hlast hcu.armed hcu.count))
  refine ⟨fun m hm => ?_, ⟨_, hrun, rfl, congrArg Config.sentinel hcu.cfg, rfl, rfl, hcu.mem, rfl⟩, ?_⟩
  · obtain ⟨k, hk⟩ := Nat.exists_eq_add_of_lt hm
    obtain ⟨v, hv, hcv⟩ := Counting.run (m := m) (k := k) (hk ▸ hstart) ha
    exact ⟨v, hv, hcv.phase, hcv.magic⟩
  · rintro b more rfl
    exact ⟨_, (coreRun_add hrun).trans (coreRun_one (inertPhasesTakeNoBlockStep _ (.block b) b more
      (hcu.cfg ▸ ha) (.inr rfl) rfl rfl)), rfl, rfl⟩

/-! ### The ways out of RUN -/

/-- Where a step of the block from RUN ends unless a reset cuts it: in RUN, rebooting, or in FAULT with a record (R126). -/
def RunExit (c : Config) (s : State) : Prop :=
  s.phase = .run ∨ (s.phase = .resetPending ∧ s.magic = c.sentinel ∧ s.sysResetReq = true) ∨
    (s.phase = .fault ∧ s.fault.isSome = true)

/-- In RUN, or in FAULT with a record: `RunExit` without the reboot, which takes three actions. -/
def RunOrFault (s : State) : Prop := s.phase = .run ∨ (s.phase = .fault ∧ s.fault.isSome = true)

theorem RunOrFault.exit {s : State} (h : RunOrFault s) (c : Config) : RunExit c s := h.imp_right .inr

/-- An action that assigns `phase` (raising a fault is none). -/
def Action.setsPhase : Action → Bool
  | .setPhase _ => true
  | _ => false

/-- An action that does not assign `phase` leaves RUN by a fault alone. -/
theorem RunOrFault.perform {a : Action} (ha : a.setsPhase = false) {s : State} (h : RunOrFault s) :
    RunOrFault (perform a s) := by
  have hfault : ∀ r, RunOrFault (s.raiseFault r) := fun _ => .inr ⟨rfl, rfl⟩
  cases a with
  | setPhase => simp [Action.setsPhase] at ha
  | raiseFault r => exact hfault r
  | setBuf i v =>
    rcases writeBuf_cases i v s with ⟨_, e⟩ | ⟨_, e⟩ <;> rw [Machine.perform, e]
    · exact h
    · exact hfault _
  | eraseSector sid =>
    rcases eraseSector_cases sid s with ⟨r, e⟩ | ⟨_, _, _, e⟩ | ⟨_, _, _, e⟩ <;> rw [Machine.perform, e]
    · exact hfault r
    · exact h
    · exact h
  | memWrite x v =>
    rcases memWrite_cases x v s with ⟨r, e⟩ | ⟨_, _, _, _, e⟩ | ⟨_, _, _, e⟩ <;> rw [Machine.perform, e]
    · exact hfault r
    · exact h
    · exact h
  | send ws => rcases send_cases ws s with e | e <;> (rw [Machine.perform, e]; exact h)
  | sendDrawn => rw [Machine.perform, sendDrawn_eq]; exact h
  | _ => exact h

/-- Nor does a commit (R119). -/
theorem commitActions_setsPhase (d0 d1 : Word) (s : State) : ∀ a ∈ commitActions d0 d1 s, a.setsPhase = false := by
  unfold commitActions
  split
  next =>
    simp only [writePage, closePage, List.forall_mem_append, List.mem_mapIdx]
    refine ⟨⟨?_, by simp [Action.setsPhase]⟩, by simp [Action.setsPhase]⟩
    rintro _ ⟨i, _, rfl⟩
    rfl
  next => simp

/-- PAGE_DATA does not assign `phase` (R117 to R120). -/
theorem pageDataActions_setsPhase (node : Word) (args : List Word) (s : State) :
    ∀ a ∈ pageDataActions node args s, a.setsPhase = false := by
  intro a ha
  obtain ⟨_, h | h⟩ := mem_ifAddressed ha
  · rcases mem_addressed h with rfl | rfl <;> rfl
  clear ha
  revert a
  split
  next => simp [ack, push, Action.setsPhase]
  next =>
    split
    next =>
      simp only [List.forall_mem_append]
      exact ⟨⟨by simp [Action.setsPhase], commitActions_setsPhase _ _ s⟩, by simp [ack, push, Action.setsPhase]⟩
    next => simp [ack, push, Action.setsPhase]

/-- A command leaves RUN as RESET does, or by a fault (R126). -/
theorem runExit_of_exec {i : Instr} (hi : i.isCommand = true) {s t : State} (ha : s.cfg.admissible = true)
    (hp : s.phase = .run) (h : exec i s = .next t) : RunExit s.cfg t := by
  cases i with
  | reset node args =>
    rcases exec_reset_cases h with rfl | rfl
    · exact .inl hp
    · exact .inr (.inl ⟨rfl, rfl, rfl⟩)
  | readPage node args =>
    rcases exec_readPage_cases h with rfl | ⟨frames, d, rfl⟩ | ⟨r, rfl⟩
    · exact .inl hp
    · exact .inl hp
    · exact .inr (.inr ⟨rfl, rfl⟩)
  | writePage node args =>
    rcases exec_writePage_cases ha h with rfl | ⟨ws, rfl⟩ | ⟨p, m, d, _, _, _, rfl, _⟩ <;> exact .inl hp
  | pageData node args =>
    obtain rfl := eq_of_exec h (exec_command_eq_run hi s)
    have hrun : RunOrFault (run (pageDataActions node args s) s) :=
      run_invariant (fun a ha u hu => RunOrFault.perform (pageDataActions_setsPhase node args s a ha) hu) (.inl hp)
    exact hrun.exit _
  | pushDescription | pushPageData | pushAck => simp [Instr.isCommand] at hi

/-- A whole step of the block in RUN leaves it by a reboot or a fault (R126). -/
theorem runExit_of_run_eventActions {e : BlockEvent} {s : State} (ha : s.cfg.admissible = true) (hp : s.phase = .run)
    (he : e = .rx ∨ e = .tick) : RunExit s.cfg (run (eventActions e s) (stepStart e s)) := by
  have hf : s.phase ≠ .fault := by simp [hp]
  rcases he with rfl | rfl
  · rcases eventActions_rx_cases s with ⟨i, hi, hacts⟩ | hacts | hacts <;> rw [hacts]
    · exact runExit_of_exec hi (s := takeFrame s) ha hp (exec_command_eq_run hi _)
    · exact .inl hp
    · rw [← List.append_nil addressed, run_addressed (by exact hf)]
      exact .inl hp
  · show RunExit s.cfg (run (tickActions s) s)
    by_cases hen : s.timeoutEnabled = true
    · by_cases hlast : s.timer + 1 = s.cfg.timeoutTicks
      · rw [run_tickActions_of_last hf hen hlast]
        exact .inr (.inl ⟨rfl, rfl, rfl⟩)
      · rw [run_tickActions_of_below hf hen hlast]
        exact .inl hp
    · rw [run_tickActions_of_disarmed (by simpa using hen)]
      exact .inl hp

/-- In RUN the block has the steps `Rx` and `Tick` (R18). -/
theorem rx_or_tick_of_blockEnabled {e : BlockEvent} {s : State} (hp : s.phase = .run) (he : blockEnabled e s = true) :
    e = .rx ∨ e = .tick := by
  cases e with
  | boot | init => simp [blockEnabled, hp] at he
  | rx => exact .inl rfl
  | tick => exact .inr rfl

/-- Settles O50: a whole step of the block ends as `RunExit` says, and a cut one so or in BOOT. -/
theorem runIsLeftOnlyByRebootFaultOrReset : Obligations.RunIsLeftOnlyByRebootFaultOrReset := by
  intro s t hp h hne
  obtain ⟨ha, _, hcase⟩ := step_next h
  have hwhole {e : BlockEvent} (he : blockEnabled e s = true) (rest : List Event) :=
    runExit_of_run_eventActions (s := s.clearOutputs.setSched rest) ha hp (rx_or_tick_of_blockEnabled hp he)
  cases hcase with
  | idle hu => rcases hu with rfl | ⟨_, _, _, rfl⟩ <;> exact absurd hp hne
  | arrive | lose => exact absurd hp hne
  | internal he => rcases he with ⟨_, he⟩ | ⟨_, he⟩ <;> simp [hp] at he
  | @reset k rest hs => exact .inr (.inr ⟨applyReset_phase _ _, _, rest, hs, .inl ⟨k, rfl⟩⟩)
  | @block e rest hs he hr => exact ((hwhole he rest).resolve_left hne).imp_right .inl
  | @cut e n torn k rest hs he hr =>
    rcases cutStep_cases e n torn k (s.clearOutputs.setSched rest) with hcut | ⟨m, d, hcut⟩ <;> rw [hcut] at hne ⊢
    · exact ((hwhole he rest).resolve_left hne).imp_right .inl
    · exact .inr (.inr ⟨applyReset_phase _ _, _, rest, hs, .inr ⟨e, n, torn, k, rfl⟩⟩)

/-! ### The Init step -/

/-- The words of the description push of a configuration (R61, R124). -/
def descriptionWords (c : Config) : List Word :=
  [c.opDescription, c.descPageSize, c.firstPageIndex, u16 c.availablePages]

/-- The actions of Init: the description push, then the arming (R124, R125). -/
theorem initActions_eq (s : State) :
    initActions s = .send (descriptionWords s.cfg) :: [.setTimeoutEnabled true, .setTimer 0, .setPhase .run] := rfl

/-- Init sends the description, arms the timeout at 0 and enters RUN (R124, R125). -/
theorem run_initActions_eq {s : State} (hp : s.phase ≠ .fault) :
    run (initActions s) s =
      { sent [descriptionWords s.cfg] s with timeoutEnabled := true, timer := 0, phase := .run } := by
  rw [initActions_eq, ← List.singleton_append, run_append, run_send (by simp [descriptionWords]) hp]
  exact run_arming hp

/-- Settles O14: the step is the run of Init's actions. -/
theorem initStepSendsTheDescription : Obligations.InitStepSendsTheDescription := by
  intro s rest ha hp hs
  have hf : s.phase ≠ .fault := by simp [hp]
  rw [step_block ha hf hs (by simp [blockEnabled, hp]) rfl]
  exact congrArg _ (run_initActions_eq (s := s.clearOutputs.setSched rest) hf)

/-- The transmit list is the description's frame alone. -/
def OffersDescription (c : Config) (s : State) : Prop := ∃ o, s.tx = [(frameOf c (descriptionWords c), o)]

/-- A whole Init enters RUN and offers the description (R124, R125). -/
theorem run_initActions_offers {s : State} (hp : s.phase ≠ .fault) (htx : s.tx = []) :
    (run (initActions s) s).phase = .run ∧ OffersDescription s.cfg (run (initActions s) s) := by
  rw [run_initActions_eq hp]
  exact ⟨rfl, txOutcome s.draws, by simp [sent, htx]⟩

/-- A cut Init has offered the description or nothing (R124, R158). -/
theorem run_take_initActions_tx {s : State} (hp : s.phase ≠ .fault) (htx : s.tx = []) (n : Nat) :
    (run ((initActions s).take n) s).tx = [] ∨ OffersDescription s.cfg (run ((initActions s).take n) s) := by
  cases n with
  | zero => exact .inl htx
  | succ n =>
    have hsilent : ∀ a ∈ [.setTimeoutEnabled true, .setTimer 0, .setPhase .run], Action.silent a = true := by
      simp [Action.silent]
    have hrest := run_frame State.tx fun a ha => perform_tx_of_silent (hsilent a (List.mem_of_mem_take (i := n) ha))
    rw [initActions_eq, List.take_succ_cons, run_cons hp, OffersDescription, hrest, perform,
      send_of_le (by simp [descriptionWords])]
    exact .inr ⟨txOutcome s.draws, by simp [State.appendTx, State.advanceDraws, htx]⟩

/-- In INIT the block has the step `Init` alone (R18). -/
theorem init_of_blockEnabled {e : BlockEvent} {s : State} (hp : s.phase = .init) (he : blockEnabled e s = true) :
    e = .init := by
  cases e with
  | init => rfl
  | boot | rx | tick => simp [blockEnabled, hp] at he

/-- What a step from INIT can do: stay and offer nothing, complete Init, or be cut by a reset (R124, R125, R158). -/
theorem step_of_init {s t : State} (hp : s.phase = .init) (h : step s = .next t) :
    (t.phase = .init ∧ t.tx = []) ∨ (t.phase = .run ∧ OffersDescription s.cfg t) ∨
      (t.phase = .boot ∧ (t.tx = [] ∨ OffersDescription s.cfg t)) := by
  obtain ⟨_, hf, hcase⟩ := step_next h
  have hwhole (rest : List Event) := run_initActions_offers (s := s.clearOutputs.setSched rest) hf rfl
  cases hcase with
  | idle hu => rcases hu with rfl | ⟨_, _, _, rfl⟩ <;> exact .inl ⟨hp, rfl⟩
  | arrive | lose => exact .inl ⟨hp, rfl⟩
  | reset => exact .inr (.inr ⟨applyReset_phase _ _, .inl (applyReset_tx _ _)⟩)
  | internal he =>
    obtain ⟨rfl, _⟩ := he.resolve_left (by simp [hp])
    exact .inr (.inl (hwhole s.sched))
  | @block e rest hs he hr =>
    obtain rfl := init_of_blockEnabled hp he
    exact .inr (.inl (hwhole rest))
  | @cut e n torn k rest hs he hr =>
    obtain rfl := init_of_blockEnabled hp he
    rcases cutStep_cases .init n torn k (s.clearOutputs.setSched rest) with hcut | ⟨m, d, hcut⟩ <;> rw [hcut]
    · exact .inr (.inl (hwhole rest))
    · refine .inr (.inr ⟨applyReset_phase _ _, ?_⟩)
      rw [OffersDescription, applyReset_tx]
      exact run_take_initActions_tx (s := s.clearOutputs.setSched rest) hf rfl n

/-! ### Outside INIT -/

/-- No frame of four words, the length of the description alone (R58, R61), is on the transmit list. -/
def OffersNoDescription (s : State) : Prop := ∀ x ∈ s.tx, x.1.len ≠ 8

theorem len_frameOf (c : Config) (ws : List Word) : (frameOf c ws).len = 2 * ws.length := length_packWords ws

/-- One more frame of fewer words. -/
theorem OffersNoDescription.append {s t : State} (h : OffersNoDescription s) {c : Config} {ws : List Word}
    (hws : ws.length < 4) {o : TxOutcome} (ht : t.tx = s.tx ++ [(frameOf c ws, o)]) : OffersNoDescription t := by
  intro x hx
  rw [ht, List.mem_append, List.mem_singleton] at hx
  rcases hx with hx | rfl
  · exact h x hx
  · rw [len_frameOf]
    omega

/-- An action that sends fewer words, or nothing, offers no description. -/
theorem OffersNoDescription.perform {s : State} (h : OffersNoDescription s) {a : Action}
    (ha : ∀ ws, a = .send ws → ws.length < 4) : OffersNoDescription (perform a s) := by
  cases a with
  | send ws => exact h.append (ha ws rfl) (congrArg State.tx (send_of_le (ha ws rfl).le s))
  | sendDrawn => exact h.append (by simp) (congrArg State.tx (sendDrawn_eq s))
  | _ =>
    intro x hx
    rw [perform_tx_of_silent rfl] at hx
    exact h x hx

/-- Only Init sends four words (R61, R124). -/
theorem length_lt_of_send_mem {e : BlockEvent} {s : State} {ws : List Word} (he : e ≠ .init)
    (h : .send ws ∈ eventActions e s) : ws.length < 4 := by
  rcases send_mem_eventActions h with ⟨rfl, _⟩ | ⟨_, ⟨d0, d1, rfl⟩ | ⟨st, _, rfl⟩⟩
  · exact absurd rfl he
  · simp [encode]
  · simp [encode]

/-- A step from another phase than INIT, whole or cut, offers no description (R124). -/
theorem step_offersNoDescription {s t : State} (hp : s.phase ≠ .init) (h : step s = .next t) : OffersNoDescription t := by
  have hne {e : BlockEvent} (he : blockEnabled e s = true) : e ≠ .init := by
    rintro rfl
    exact hp (of_decide_eq_true he)
  have hstep := step_invariant h (P := OffersNoDescription)
    (start := fun _ _ => by simp [OffersNoDescription])
    (act := fun e he a ha u _ hu => hu.perform fun ws hws => length_lt_of_send_mem (hne he) (hws ▸ ha))
    (torn := fun a u _ hu => by rwa [OffersNoDescription, tear_tx])
  rcases hstep with ht | ⟨k, u, hu, _, rfl, _⟩
  · exact ht
  · rwa [OffersNoDescription, applyReset_tx]

/-- INIT is entered from BOOT alone (R73). -/
theorem boot_or_init_of_step {s t : State} (h : step s = .next t) (ht : t.phase = .init) :
    s.phase = .boot ∨ s.phase = .init := by
  by_contra hn
  obtain ⟨hboot, hinit⟩ := not_or.1 hn
  by_cases hrun : s.phase = .run
  · rcases runIsLeftOnlyByRebootFaultOrReset s t hrun h (by simp [ht]) with ⟨hp, _⟩ | ⟨hp, _⟩ | ⟨hp, _⟩ <;>
      simp [ht] at hp
  · have hstep := step_invariant h (P := fun u => u.phase = s.phase)
      (start := fun _ _ => rfl)
      (act := fun e he => absurd he (by simp [blockEnabled_eq_false hboot hinit hrun e]))
      (torn := fun a u _ hu => by
        obtain ⟨_, _, e⟩ := tear_eq a u
        rw [e]
        exact hu)
    rcases hstep with hp | ⟨k, u, _, _, rfl, _⟩
    · exact hinit (hp.symm.trans ht)
    · simp at ht

/-- Settles O15: in INIT by what a step can do there, elsewhere because nothing but Init sends four words. -/
theorem descriptionIsSentOncePerSession : Obligations.DescriptionIsSentOncePerSession := by
  intro s t h
  by_cases hp : s.phase = .init
  · have hframe : OffersDescription s.cfg t → ∀ x ∈ t.tx, t.tx = [x] ∧ x.1 = frameOf s.cfg (descriptionWords s.cfg) := by
      rintro ⟨o, ho⟩ x hx
      obtain rfl := List.mem_singleton.1 (ho ▸ hx)
      exact ⟨ho, rfl⟩
    rcases step_of_init hp h with ⟨ht, htx⟩ | ⟨ht, hd⟩ | ⟨ht, htx | hd⟩
    · exact ⟨by simp [htx], fun _ => .inr ⟨hp, htx⟩, fun _ hr => absurd hr (by simp [ht])⟩
    · refine ⟨fun x hx _ => ⟨hp, hframe hd x hx⟩, fun hi => absurd hi (by simp [ht]), fun _ _ => ?_⟩
      obtain ⟨o, ho⟩ := hd
      exact congrArg List.length ho
    · exact ⟨by simp [htx], fun hi => absurd hi (by simp [ht]), fun _ hr => absurd hr (by simp [ht])⟩
    · exact ⟨fun x hx _ => ⟨hp, hframe hd x hx⟩, fun hi => absurd hi (by simp [ht]), fun _ hr => absurd hr (by simp [ht])⟩
  · exact ⟨fun x hx hlen => absurd hlen (step_offersNoDescription hp h x hx),
      fun hi => .inl ((boot_or_init_of_step h hi).resolve_right hp), fun hi => absurd hi hp⟩

end Sys2Proof.Machine
end

section
/-! Proofs of the family 60_exceptions.md: no step but in FAULT stops the block (R133), the one fault a step can record
(R134), and RUN waits for the environment (R149). -/

namespace Sys2Proof.Machine

/-! ### Steps that answer a next state -/

/-- With well-formed frames pending no event of the block is refused (R57, log 14). -/
theorem eventRefusal_eq_none {s : State} (h : ∀ f ∈ s.rxQueue, f.wellFormed = true) (e : BlockEvent) :
    eventRefusal e s = none := by
  cases e with
  | boot | init | tick => rfl
  | rx =>
    cases hq : s.rxQueue with
    | nil => simp [eventRefusal, hq]
    | cons f q => simp [eventRefusal, hq, h f (by simp [hq])]

/-- Then every event, whole or cut, answers a next state. -/
theorem exists_takeEvent {s : State} (h : ∀ f ∈ s.rxQueue, f.wellFormed = true) (e : Event) :
    ∃ t, takeEvent e s = .next t := by
  cases e with
  | reset | arrive | lose => exact ⟨_, rfl⟩
  | block b =>
    have hr := eventRefusal_eq_none h b
    simp only [takeEvent, hr]
    exact ⟨_, blockStep_eq_run hr⟩
  | cut b n torn k =>
    simp only [takeEvent, eventRefusal_eq_none h b]
    exact ⟨_, rfl⟩

theorem exists_internalStep (s : State) : ∃ t, internalStep s = .next t := by
  unfold internalStep
  split <;> exact ⟨_, rfl⟩

/-- With well-formed frames pending, reading the schedule answers a next state. -/
theorem exists_scheduledStep {s : State} (h : ∀ f ∈ s.rxQueue, f.wellFormed = true) :
    ∃ t, scheduledStep s = .next t := by
  unfold scheduledStep
  split
  next => exact exists_internalStep s
  next e rest _ =>
    split
    next => exact exists_takeEvent (s := s.setSched rest) h e
    next =>
      split
      next => exact exists_internalStep s
      next => exact ⟨_, rfl⟩

/-! ### The environment stays well formed -/

/-- A reset takes no event from the schedule (log 8). -/
@[simp] theorem applyReset_sched (k : ResetKind) (s : State) : (applyReset k s).sched = s.sched := by
  cases k
  · rcases powerOnMagic_cases s with ⟨_, h⟩ | ⟨_, h⟩ <;> simp [applyReset, h]
  · rfl

@[simp] theorem stepStart_sched (e : BlockEvent) (s : State) : (stepStart e s).sched = s.sched := by cases e <;> rfl

/-- Nor does a cut step, beyond the event that schedules it. -/
theorem cutStep_sched (e : BlockEvent) (n : Nat) (torn : Bool) (k : ResetKind) (s : State) :
    (cutStep e n torn k s).sched = s.sched := by
  rcases cutStep_cases e n torn k s with h | ⟨m, d, h⟩ <;> simp [h]

/-- `EnvOk` looks at the queue and the schedule alone. -/
theorem EnvOk.congr {s t : State} (h : EnvOk s) (hq : t.rxQueue = s.rxQueue) (hs : t.sched = s.sched) : EnvOk t := by
  rwa [EnvOk, hq, hs]

/-- Taking the head of the schedule leaves a well-formed environment. -/
theorem EnvOk.pass {s : State} (h : EnvOk s) {e : Event} {rest : List Event} (hs : s.sched = e :: rest) :
    EnvOk (s.clearOutputs.setSched rest) :=
  ⟨h.1, fun _ he => h.2 _ (hs ▸ List.mem_cons_of_mem _ he)⟩

/-- So does the start of a step, which takes at most a pending frame. -/
theorem EnvOk.stepStart {s : State} (h : EnvOk s) (e : BlockEvent) : EnvOk (stepStart e s) := by
  cases e with
  | boot | init | tick => exact h
  | rx => exact ⟨fun f hf => h.1 f (List.mem_of_mem_tail hf), h.2⟩

/-- Every step keeps the environment well formed: the queue grows by the frames of scheduled arrivals alone. -/
theorem EnvOk.step {s t : State} (henv : EnvOk s) (h : step s = .next t) : EnvOk t := by
  obtain ⟨_, _, hcase⟩ := step_next h
  cases hcase with
  | idle hu =>
    rcases hu with rfl | ⟨_, _, hs, rfl⟩
    · exact henv
    · exact henv.pass hs
  | reset hs => exact (henv.pass hs).congr (applyReset_rxQueue _ _) (applyReset_sched _ _)
  | internal => exact henv.congr (run_rxQueue _ _) (run_sched _ _)
  | @block e _ hs => exact ((henv.pass hs).stepStart e).congr (run_rxQueue _ _) (run_sched _ _)
  | @cut e _ _ _ _ hs =>
    exact ((henv.pass hs).stepStart e).congr (cutStep_rxQueue _ _ _ _ _)
      ((cutStep_sched _ _ _ _ _).trans (stepStart_sched _ _).symm)
  | @arrive f rest hs =>
    have hf : f.wellFormed = true := henv.2 (.arrive f) (by simp [hs])
    refine ⟨fun g hg => ?_, (henv.pass hs).2⟩
    rcases List.mem_append.1 hg with hg | hg
    · exact henv.1 g hg
    · rwa [List.mem_singleton.1 hg]
  | lose hs => exact ⟨fun f hf => henv.1 f (List.mem_of_mem_eraseIdx hf), (henv.pass hs).2⟩

/-- Settles O40: the configuration is admissible and no pending frame is malformed, so no refusal is left to answer. -/
theorem stepAnswersANextState : Obligations.StepAnswersANextState := by
  intro s hi henv hp
  obtain ⟨t, ht⟩ := exists_scheduledStep (s := s.clearOutputs) henv.1
  have hstep : step s = .next t := (step_eq_scheduledStep hi.admissible hp).trans ht
  exact ⟨t, hstep, henv.step hstep⟩

/-! ### The fault a step can record -/

/-- What `fault` records, if anything, is a read of a page outside the region, under OOR_READ = fault (R111, R134). -/
def FaultIsOutOfRegionRead (c : Config) (s : State) : Prop :=
  ∀ r, s.fault = some r → c.oorRead = .fault ∧ ∃ p, r = .outOfRegionRead p ∧ c.availablePages ≤ p.toNat

theorem FaultIsOutOfRegionRead.of_none {c : Config} {s : State} (h : s.fault = none) : FaultIsOutOfRegionRead c s :=
  fun r hr => absurd (h.symm.trans hr) (by simp)

/-- Outside FAULT the invariants leave no fault recorded (R26). -/
theorem Inv.fault_eq_none {s : State} (hi : Inv s) (hp : s.phase ≠ .fault) : s.fault = none := by
  simpa using mt hi.faultRecord.1 hp

/-- A reset clears the record (R33, R34). -/
@[simp] theorem applyReset_fault (k : ResetKind) (s : State) : (applyReset k s).fault = none := by
  cases k <;> rfl

/-- The fault of READ_PAGE is that of a page outside the region, where the policy asks for it (R110 to R112). -/
theorem faultIsOutOfRegionRead_of_readPage {node : Word} {args : List Word} {s t : State} (hf : s.fault = none)
    (h : exec (.readPage node args) s = .next t) : FaultIsOutOfRegionRead s.cfg t := by
  rcases eq_or_addressed rfl rfl h with rfl | ⟨hp, rfl⟩
  · exact .of_none hf
  by_cases hlen : args.length = 1
  · obtain ⟨p, rfl⟩ := List.length_eq_one_iff.1 hlen
    by_cases hpage : p.toNat < s.cfg.availablePages
    · rw [eq_of_exec h (readPageStreamsThePage s p hp hpage)]
      exact .of_none hf
    · obtain ⟨hfault, hany⟩ := readPageOutOfRangeFollowsPolicy s p hp (Nat.not_lt.1 hpage)
      cases hoor : s.cfg.oorRead with
      | fault =>
        obtain rfl := eq_of_exec h (hfault hoor)
        rintro r ⟨rfl⟩
        exact ⟨hoor, p, rfl, Nat.not_lt.1 hpage⟩
      | anyValue =>
        obtain ⟨u, frames, hexec, hu, _⟩ := hany hoor
        rw [eq_of_exec h (hexec.trans (congrArg _ hu))]
        exact .of_none hf
  · rw [eq_of_exec h ((rejectedCommandsOnlyAnswer s args hp).1 hlen).1]
    exact .of_none hf

/-- Under the invariants no other command records a fault (R134): a page opened is in the region, and an open page has flash
unlocked and the cursor inside the buffer. -/
theorem faultIsOutOfRegionRead_of_exec {i : Instr} (hc : i.isCommand = true) {s t : State} (hi : Inv s)
    (hp : s.phase ≠ .fault) (h : exec i s = .next t) : FaultIsOutOfRegionRead s.cfg t := by
  have hf := hi.fault_eq_none hp
  cases i with
  | reset node args => rcases exec_reset_cases h with rfl | rfl <;> exact .of_none hf
  | readPage node args => exact faultIsOutOfRegionRead_of_readPage hf h
  | writePage node args =>
    rcases exec_writePage_cases hi.admissible h with rfl | ⟨_, rfl⟩ | ⟨_, _, _, _, _, _, rfl, _⟩ <;> exact .of_none hf
  | pageData node args =>
    rcases exec_pageData_cases hi h with rfl | ⟨_, rfl⟩ | ⟨_, _, _, _, _, rfl | ⟨_, _, _, rfl, _⟩⟩ <;> exact .of_none hf
  | pushDescription | pushPageData | pushAck => simp [Instr.isCommand] at hc

/-- The actions of `Boot`, `Init` and `Tick` are calm (R73, R124, R128). -/
theorem calm_of_mem_eventActions {e : BlockEvent} (he : e ≠ .rx) (s : State) : ∀ a ∈ eventActions e s, a.calm = true := by
  cases e with
  | rx => exact absurd rfl he
  | boot =>
    simp only [eventActions, bootActions]
    split <;> simp [Action.calm]
  | init => simp [eventActions, initActions, push, Action.calm]
  | tick =>
    simp only [eventActions, tickActions, rebootToApplication]
    split
    next => split <;> simp [Action.calm]
    next => simp

/-- A whole step of the block records no other fault: only an `Rx` can fault, in the command it runs. -/
theorem faultIsOutOfRegionRead_of_run_eventActions {e : BlockEvent} {s : State} (hi : Inv s)
    (he : blockEnabled e s = true) (hp : s.phase ≠ .fault) :
    FaultIsOutOfRegionRead s.cfg (run (eventActions e s) (stepStart e s)) := by
  have hcalm (hacts : ∀ a ∈ eventActions e s, a.calm = true) :
      FaultIsOutOfRegionRead s.cfg (run (eventActions e s) (stepStart e s)) :=
    .of_none ((hi.run_eventActions he).fault_eq_none (run_calm hacts (by simpa using hp)))
  by_cases hrx : e = .rx
  · subst hrx
    have hq : Inv (takeFrame s) := hi.congr_env rfl
    rcases eventActions_rx_cases s with ⟨i, hc, hacts⟩ | hacts | hacts
    · rw [hacts]
      exact faultIsOutOfRegionRead_of_exec (s := takeFrame s) hc hq hp (exec_command_eq_run hc _)
    · exact hcalm (by simp [hacts])
    · exact hcalm (by simp [hacts, addressed, Action.calm])
  · exact hcalm (calm_of_mem_eventActions hrx s)

/-- Settles O41: a step that answers starts without a fault recorded, runs at most one step of the block, and a reset that cuts
it clears the record. -/
theorem onlyOutOfRegionReadsFault : Obligations.OnlyOutOfRegionReadsFault := by
  intro s t r hi h
  obtain ⟨_, hp, hcase⟩ := step_next h
  have hf := hi.fault_eq_none hp
  have hwhole {e : BlockEvent} (he : blockEnabled e s = true) (rest : List Event) :=
    faultIsOutOfRegionRead_of_run_eventActions (s := s.clearOutputs.setSched rest) (hi.congr_env rfl) he hp
  suffices FaultIsOutOfRegionRead s.cfg t from this r
  cases hcase with
  | idle hu => rcases hu with rfl | ⟨_, _, _, rfl⟩ <;> exact .of_none hf
  | arrive | lose => exact .of_none hf
  | reset => exact .of_none (applyReset_fault _ _)
  | internal he =>
    rcases he with ⟨rfl, hb⟩ | ⟨rfl, hb⟩
    · exact hwhole (e := .boot) (decide_eq_true hb) s.sched
    · exact hwhole (e := .init) (decide_eq_true hb) s.sched
  | @block e rest _ he => exact hwhole he rest
  | @cut e n torn k rest _ he =>
    rcases cutStep_cases e n torn k (s.clearOutputs.setSched rest) with hcut | ⟨m, d, hcut⟩ <;> rw [hcut]
    · exact hwhole he rest
    · exact .of_none (applyReset_fault _ _)

/-! ### RUN waits for the environment -/

/-- Settles O46: in RUN the block has no internal step, and of the scheduled events only those excluded can be a step of the
block or a reset. -/
theorem runStepsAreOfferedByTheEnvironment : Obligations.RunStepsAreOfferedByTheEnvironment := by
  intro s t hp h hhead
  obtain ⟨_, _, hcase⟩ := step_next h
  have hnone {b : BlockEvent} {ev : Event} {rest : List Event} (hs : s.sched = ev :: rest)
      (hb : ev.blockPart = some b) (he : blockEnabled b s = true) : False := by
    obtain ⟨hrx, htick, _⟩ := hhead ev rest hs
    rcases rx_or_tick_of_blockEnabled hp he with rfl | rfl
    · exact hrx hb
    · exact htick hb
  cases hcase with
  | idle hu => rcases hu with rfl | ⟨_, _, _, rfl⟩ <;> rfl
  | arrive | lose => rfl
  | @reset k rest hs =>
    obtain ⟨_, _, hreset⟩ := hhead _ rest hs
    exact absurd rfl (hreset k)
  | internal he => rcases he with ⟨_, he⟩ | ⟨_, he⟩ <;> simp [hp] at he
  | block hs he => exact (hnone hs rfl he).elim
  | cut hs he => exact (hnone hs rfl he).elim

end Sys2Proof.Machine
end

section
/-! Proofs of the family 70_reset_and_hazards.md: the reset cycle that starts the application (R155), and what a reset inside a
step leaves: at the ends of the step (R158), in a commit and in an erase (R159), and in a reboot (R160). -/

namespace Sys2Proof.Machine

/-! ### The reset cycle -/

/-- A reset at the head of the schedule (R32). -/
theorem step_reset {s : State} {k : ResetKind} {rest : List Event} (ha : s.cfg.admissible = true) (hp : s.phase ≠ .fault)
    (hs : s.sched = .reset k :: rest) : step s = .next (applyReset k (s.clearOutputs.setSched rest)) := by
  rw [step_eq_scheduledStep ha hp]
  simp [scheduledStep, hs, enabled, hp, takeEvent]

/-- Settles O52: RESET arms the latch, the reset keeps it and the flash, and Boot consumes it. -/
theorem resetCycleStartsTheApplication : Obligations.ResetCycleStartsTheApplication := by
  intro s args rest ha hp ⟨f, q, ws, hq, hf, hr, hd⟩ hs
  have hrx := (stepRunsTheReceivedCommand s f q _ ws _ ha hp hs hq hf hr hd).trans
    (resetCommandReboots { s.clearOutputs with sched := .reset .sysReset :: .block .boot :: rest, rxQueue := q } args
      (by simp [hp]))
  obtain ⟨u, hrun, hcfg, hphase, hmagic, hmem, hsched⟩ : ∃ u, Host.Core.run Sys2Proof.core 2 s = .next u ∧
      u.cfg = s.cfg ∧ u.phase = .boot ∧ u.magic = s.cfg.sentinel ∧ u.mem = s.mem ∧ u.sched = .block .boot :: rest :=
    ⟨_, (coreRun_add (coreRun_one hrx)).trans (coreRun_one (step_reset (by exact ha) (by simp) rfl)),
      rfl, rfl, rfl, rfl, rfl⟩
  obtain ⟨hboot, _⟩ := bootStepConsumesTheSentinel u rest (hcfg ▸ ha) hphase hsched
  exact ⟨_, (coreRun_add hrun).trans (coreRun_one (hboot (hcfg ▸ hmagic))), rfl, rfl, congrArg Config.magicClear hcfg,
    hmem, rfl⟩

/-! ### Cuts -/

@[simp] theorem eventRefusal_clearOutputs (e : BlockEvent) (s : State) :
    eventRefusal e s.clearOutputs = eventRefusal e s := by
  cases e <;> rfl

@[simp] theorem eventRefusal_setSched (e : BlockEvent) (s : State) (rest : List Event) :
    eventRefusal e (s.setSched rest) = eventRefusal e s := by
  cases e <;> rfl

@[simp] theorem applyReset_programmingMode (k : ResetKind) (s : State) : (applyReset k s).programmingMode = false := by
  cases k <;> rfl

@[simp] theorem stepStart_tx (e : BlockEvent) (s : State) : (stepStart e s).tx = s.tx := by cases e <;> rfl

/-- A cut after the last action is the reset of what the whole step left, unless that faulted (R158, R24). -/
theorem cutStep_of_length_le {e : BlockEvent} {n : Nat} {s : State} (h : (eventActions e s).length ≤ n) (torn : Bool)
    (k : ResetKind) :
    cutStep e n torn k s =
      if (run (eventActions e s) (stepStart e s)).phase = .fault then run (eventActions e s) (stepStart e s)
      else applyReset k (run (eventActions e s) (stepStart e s)) := by
  have hwhole : prefixState e n torn s = run (eventActions e s) (stepStart e s) := by
    unfold prefixState
    rw [List.take_of_length_le h, List.getElem?_eq_none h]
    cases torn <;> rfl
  rw [cutStep, hwhole]

/-- Settles O53: after the last action nothing is in progress; before the first nothing has run. -/
theorem cutsAtTheEndsOfAStep : Obligations.CutsAtTheEndsOfAStep := by
  intro s e n torn k rest ha hp hs he hr
  have hcut := step_cut ha hp hs he (by simpa using hr)
  refine ⟨fun hn => ⟨_, step_block ha hp rfl (by cases e <;> exact he) (by cases e <;> exact hr), ?_⟩, ?_⟩
  · rw [hcut, cutStep_of_length_le (by simpa using hn)]
    cases e <;> rfl
  · rintro rfl rfl
    rw [hcut]
    exact congrArg _ (if_neg (by simpa [prefixState] using hp))

/-- What a cut at an action leaves: the state before it, or the mark of the action in progress (R158.3). -/
def leftAt (torn : Bool) (a : Action) (s : State) : State := if torn then tear a s else s

@[simp] theorem leftAt_tx (torn : Bool) (a : Action) (s : State) : (leftAt torn a s).tx = s.tx := by
  cases torn
  · rfl
  · exact tear_tx a s

/-- A cut at an action resets what the actions before it, and the action in progress, left (R158). -/
theorem cutStep_at {e : BlockEvent} {s : State} {pre post : List Action} {a : Action} (h : eventActions e s = pre ++ a :: post)
    (hp : (run pre (stepStart e s)).phase ≠ .fault) (torn : Bool) (k : ResetKind) :
    cutStep e pre.length torn k s = applyReset k (leftAt torn a (run pre (stepStart e s))) := by
  have hleft : prefixState e pre.length torn s = leftAt torn a (run pre (stepStart e s)) := by
    unfold prefixState
    rw [h, List.take_left, List.getElem?_append_right (Nat.le_refl _), Nat.sub_self]
    cases torn
    · rfl
    · exact if_neg hp
  have hphase : (leftAt torn a (run pre (stepStart e s))).phase ≠ .fault := by
    obtain ⟨m, d, htear⟩ := tear_eq a (run pre (stepStart e s))
    cases torn
    · exact hp
    · rw [leftAt, if_pos rfl, htear]; exact hp
  rw [cutStep, hleft]
  exact if_neg hphase

/-- The `Rx` step of a command cut at an action: the reset of what the actions before it, and the action in progress, left
(R158). -/
theorem step_cut_rx_at {s v : State} {i : Instr} {pre post : List Action} {a : Action} {n : Nat} {torn : Bool} {k : ResetKind}
    {rest : List Event} (ha : s.cfg.admissible = true) (hp : s.phase = .run) (hhead : HeadFrame s i)
    (hs : s.sched = .cut .rx n torn k :: rest) (hv : v = takeFrame (s.clearOutputs.setSched rest))
    (hact : instrActions i v = pre ++ a :: post) (hn : pre.length = n) (hrun : (run pre v).phase ≠ .fault) :
    step s = .next (applyReset k (leftAt torn a (run pre v))) := by
  subst hv hn
  obtain ⟨hrx, he, hr⟩ := eventActions_rx (s := s.clearOutputs.setSched rest) hhead
  exact (step_cut ha (by simp [hp]) hs (by simpa [hp, blockEnabled] using he) hr).trans
    (congrArg _ (cutStep_at (hrx.trans hact) hrun torn k))

/-! ### An erase cut by a reset -/

/-- The actions of an accepted WRITE_PAGE up to its erase: the disarm, the three registers and the unlock (R85, R116). -/
def beforeErase (p : Word) : List Action := addressed ++ (openPage p ++ [.setFlashUnlocked true])

theorem run_beforeErase {s : State} (hp : s.phase ≠ .fault) (p : Word) :
    run (beforeErase p) s = opened p (disarmed s) := by
  rw [beforeErase, run_addressed hp]
  simp [openPage, run, perform, hp, opened, State.setProgrammingMode, State.setCurrentPage, State.setCursor,
    State.setFlashUnlocked]

/-- The actions of a WRITE_PAGE of a sector head, split at its erase (R85, R116). -/
theorem writePageActions_of_head {s : State} {p : Word} {sid : Nat} (hpage : p.toNat < s.cfg.availablePages)
    (h : pageSector s.cfg p.toNat = some sid) :
    writePageActions s.cfg.nodeId [p] s = beforeErase p ++ .eraseSector sid :: [ack s.cfg .ok] := by
  simp [writePageActions, beforeErase, onePage, pageInRange, hpage, erasePage, h]

/-- An erase in progress leaves a draw in every halfword of the sector, and every other byte as it was (R158.3). -/
theorem tear_eraseSector {s : State} {sid : Nat} (hu : s.flashUnlocked = true) (hr : sectorInRegion s.cfg sid = true) :
    (∀ i, i < s.cfg.sectorBytes / 2 →
      ∃ n, (tear (.eraseSector sid) s).mem.readHalf (sectorAddress s.cfg sid + 2 * i) = Config.freeWord n) ∧
    ∀ x, x < sectorAddress s.cfg sid ∨ sectorAddress s.cfg sid + s.cfg.sectorBytes ≤ x →
      (tear (.eraseSector sid) s).mem.readByte x = s.mem.readByte x := by
  have heven := Config.Admissible.sectorBytesEven (c := s.cfg)
  rw [tear, if_pos ⟨hu, hr⟩]
  refine ⟨fun i hi => ⟨_, memRead_scramble _ _ s hi⟩, fun x hx => ?_⟩
  rw [Memory.readByte, scramble_outside _ _ s x (by omega), Memory.readByte]

/-- Settles O55: the erase in progress leaves draws in its sector, and the reset keeps flash. -/
theorem tornEraseLeavesDraws : Obligations.TornEraseLeavesDraws := by
  intro s p k rest ha hp hpage hm hhead hs
  obtain ⟨v, hv⟩ : ∃ v, v = takeFrame (s.clearOutputs.setSched rest) := ⟨_, rfl⟩
  have hcfg : s.cfg = v.cfg := by simp [hv, takeFrame]
  have hmem : s.mem = v.mem := by simp [hv, takeFrame]
  have hvp : v.phase ≠ .fault := by simp [hv, takeFrame, hp]
  have hrun := run_beforeErase hvp p
  rw [hcfg] at hpage hm hhead ⊢
  have hsector := pageSector_of_head hm
  have hin := sectorInRegion_of_head (Config.Admissible.of (hcfg ▸ ha)) hpage hsector
  have hstep := step_cut_rx_at ha hp hhead hs hv (writePageActions_of_head hpage hsector) rfl (by rw [hrun]; exact hvp)
  obtain ⟨hdraws, houtside⟩ := tear_eraseSector (s := opened p (disarmed v)) rfl hin
  rw [hrun, leftAt, if_pos rfl] at hstep
  refine ⟨_, hstep, applyReset_phase _ _, applyReset_programmingMode _ _, ?_, ?_⟩
  · simp [opened, disarmed, hv, takeFrame]
  · rw [applyReset_mem, ← sectorAddress_of_head hsector, hmem]
    exact ⟨hdraws, houtside⟩

/-! ### A commit cut by a reset -/

theorem pageAddress_eq (c : Config) (p w : Nat) : pageAddress c p w = pageAddress c p 0 + 2 * w := by
  simp [pageAddress]

/-- A list mapped by place, split at a place. -/
theorem exists_mapIdx_split {α β : Type} (f : Nat → α → β) {l : List α} {i : Nat} (h : i < l.length) :
    ∃ post, l.mapIdx f = (l.take i).mapIdx f ++ f i l[i] :: post := by
  have hlen : (l.take i).length = i := by simp [Nat.le_of_lt h]
  refine ⟨(l.drop (i + 1)).mapIdx fun j => f (j + 1 + i), ?_⟩
  conv_lhs => rw [← List.take_append_drop i l, List.drop_eq_getElem_cons h, List.mapIdx_append, List.mapIdx_cons, hlen]
  simp

/-- The programs of the words of a page, in ascending order (R86). -/
def programs (c : Config) (p : Nat) (ws : List Word) : List Action := ws.mapIdx fun j v => .memWrite (pageAddress c p j) v

/-- The actions of a PAGE_DATA that commits, up to the program of word `i` (R117 to R119). -/
def beforeWord (d0 d1 : Word) (i : Nat) (s : State) : List Action :=
  addressed ++ ([.setBuf s.cursor.toNat d0, .setBuf (s.cursor.toNat + 1) d1, .setCursor (nextCursor s)] ++
    programs s.cfg s.currentPage.toNat ((filledBuf d0 d1 s).take i))

theorem length_beforeWord {d0 d1 : Word} {i : Nat} {s : State} (h : i ≤ (filledBuf d0 d1 s).length) :
    (beforeWord d0 d1 i s).length = 5 + i := by
  have htake : ((filledBuf d0 d1 s).take i).length = i := List.length_take_of_le h
  simp only [beforeWord, addressed, programs, List.length_append, List.length_mapIdx, htake, List.length_cons,
    List.length_nil]
  omega

theorem run_beforeWord {s : State} (hi : Inv s) (hp : s.phase ≠ .fault) (hm : s.programmingMode = true) (d0 d1 : Word)
    (i : Nat) :
    run (beforeWord d0 d1 i s) s =
      run (programs s.cfg s.currentPage.toNat ((filledBuf d0 d1 s).take i)) (filled d0 d1 s) := by
  rw [beforeWord, run_addressed hp, run_append, run_fill hi hp hm, filled]

/-- The actions of a PAGE_DATA that commits, split at the program of word `i` (R86, R117 to R119). -/
theorem pageDataActions_of_commit {s : State} (hm : s.programmingMode = true) (hcm : commits s = true) (d0 d1 : Word)
    {i : Nat} (h : i < (filledBuf d0 d1 s).length) :
    ∃ post, pageDataActions s.cfg.nodeId [d0, d1] s =
      beforeWord d0 d1 i s ++ .memWrite (pageAddress s.cfg s.currentPage.toNat i) (filledBuf d0 d1 s)[i] :: post := by
  obtain ⟨post, hpost⟩ := exists_mapIdx_split
    (fun j v => Action.memWrite (pageAddress s.cfg s.currentPage.toNat j) v) h
  refine ⟨post ++ [.setFlashUnlocked false] ++ closePage ++ [ack s.cfg .ok], ?_⟩
  simp [pageDataActions, twoWords, hm, commitActions, hcm, writePage, hpost, beforeWord, programs]

/-- Flash `m` is flash `m₀` with page `p` programmed with `ws` up to word `i`, and a draw in word `i` where its program was in
progress (R84, R158, R159). -/
structure ProgrammedUpTo (c : Config) (m₀ : Memory) (p : Nat) (ws : List Word) (i : Nat) (torn : Bool) (m : Memory) :
    Prop where
  taken : ∀ j, j < i → c.flashReliable = true → m₀.readHalf (pageAddress c p j) = 0xFFFF →
    some (m.readHalf (pageAddress c p j)) = ws[j]?
  drawn : ∀ j, j < i → ¬ (c.flashReliable = true ∧ m₀.readHalf (pageAddress c p j) = 0xFFFF) →
    ∃ n, m.readHalf (pageAddress c p j) = Config.freeWord n
  inProgress : torn = true → ∃ n, m.readHalf (pageAddress c p i) = Config.freeWord n
  outside : ∀ x, x < pageAddress c p 0 ∨ pageAddress c p (i + torn.toNat) ≤ x → m.readByte x = m₀.readByte x

namespace ProgrammedUpTo

variable {c : Config} {m₀ m : Memory} {p : Nat} {ws : List Word} {i : Nat} {torn : Bool}

/-- The words from the cut on are as they were (R159). -/
theorem above (h : ProgrammedUpTo c m₀ p ws i torn m) {j : Nat} (hj : i + torn.toNat ≤ j) :
    m.readHalf (pageAddress c p j) = m₀.readHalf (pageAddress c p j) := by
  have hcut := pageAddress_eq c p (i + torn.toNat)
  have hword := pageAddress_eq c p j
  rw [Memory.readHalf, h.outside _ (by omega), h.outside _ (by omega), Memory.readHalf]

/-- The program of word `i` in progress leaves a draw there (R158.3). -/
theorem tear (h : ProgrammedUpTo c m₀ p ws i false m) (d : Nat) :
    ProgrammedUpTo c m₀ p ws i true (m.write (pageAddress c p i) (drawnBytes d 1)) := by
  have hi := pageAddress_eq c p i
  have hlen := length_drawnBytes d 1
  have hbelow : ∀ j, j < i → (m.write (pageAddress c p i) (drawnBytes d 1)).readHalf (pageAddress c p j) =
      m.readHalf (pageAddress c p j) := fun j hj =>
    Memory.readHalf_write_outside _ _ _ _ (by have := pageAddress_eq c p j; omega)
  refine ⟨fun j hj => ?_, fun j hj => ?_, fun _ => ⟨d, ?_⟩, fun x hx => ?_⟩
  · rw [hbelow j hj]; exact h.taken j hj
  · rw [hbelow j hj]; exact h.drawn j hj
  · simpa using readHalf_drawnBytes m (pageAddress c p i) d 1 0 (by simp)
  · have hnext := pageAddress_eq c p (i + 1)
    rw [Bool.toNat_true] at hx
    rw [Memory.readByte_write_outside _ _ _ _ (by omega)]
    exact h.outside x (by rw [Bool.toNat_false, Nat.add_zero]; omega)

end ProgrammedUpTo

/-- Programming the words of a page, cut at word `i` (R84, R158). -/
theorem leftAt_run_programs {s : State} (hc : s.cfg.Admissible) (hp : s.phase ≠ .fault) (hu : s.flashUnlocked = true)
    {p : Nat} (hpage : p < s.cfg.availablePages) {ws : List Word} (hlen : ws.length = s.cfg.pageWords) {i : Nat}
    (hi : i < ws.length) (torn : Bool) :
    (run (programs s.cfg p (ws.take i)) s).phase ≠ .fault ∧
    ∃ m d, leftAt torn (.memWrite (pageAddress s.cfg p i) ws[i]) (run (programs s.cfg p (ws.take i)) s) =
        { s with mem := m, draws := d } ∧ ProgrammedUpTo s.cfg s.mem p ws i torn m := by
  have htake : (ws.take i).length = i := List.length_take_of_le hi.le
  obtain ⟨m, d, hrun, houtside, hwords⟩ := run_writes hc hp hu hpage (ws.take i) (by omega)
  have hbefore : ProgrammedUpTo s.cfg s.mem p ws i false m := by
    refine ⟨fun j hj hf he => ?_, fun j hj => (hwords j (by omega)).2, nofun, htake ▸ houtside⟩
    rw [(hwords j (by omega)).1 ⟨hf, he⟩, List.getElem_take, List.getElem?_eq_getElem]
  rw [programs, hrun]
  refine ⟨hp, ?_⟩
  cases torn
  · exact ⟨m, d, rfl, hbefore⟩
  · refine ⟨_, d + 1, ?_, hbefore.tear d⟩
    rw [leftAt, if_pos rfl]
    exact if_pos ⟨hu, pageAddress_inRegion hc hpage (hlen ▸ hi)⟩

/-- A PAGE_DATA that commits, cut at the program of word `i`: the page is programmed up to there, and the registers are those
of the filled buffer (R118, R158). -/
theorem leftAt_beforeWord {s : State} (hi : Inv s) (hp : s.phase ≠ .fault) (hm : s.programmingMode = true)
    (hfull : s.cursor.toNat + 2 = s.cfg.pageWords) (d0 d1 : Word) {i : Nat} (hiw : i < s.cfg.pageWords) (torn : Bool) :
    ∃ a post, pageDataActions s.cfg.nodeId [d0, d1] s = beforeWord d0 d1 i s ++ a :: post ∧
      (beforeWord d0 d1 i s).length = 5 + i ∧ (run (beforeWord d0 d1 i s) s).phase ≠ .fault ∧
      ∃ m d, leftAt torn a (run (beforeWord d0 d1 i s) s) = { filled d0 d1 s with mem := m, draws := d } ∧
        ProgrammedUpTo s.cfg s.mem s.currentPage.toNat (filledBuf d0 d1 s) i torn m := by
  have hlen : (filledBuf d0 d1 s).length = s.cfg.pageWords := (length_filledBuf d0 d1 s).trans hi.bufLength
  obtain ⟨_, _, hpage⟩ := hi.openPage hm
  obtain ⟨post, hact⟩ := pageDataActions_of_commit hm ((commits_iff hi hm).2 hfull) d0 d1 (hlen ▸ hiw)
  refine ⟨_, post, hact, length_beforeWord (hlen ▸ hiw.le), ?_⟩
  rw [run_beforeWord hi hp hm]
  exact leftAt_run_programs (s := filled d0 d1 s) (Config.Admissible.of hi.admissible) hp (hi.openUnlocked hm) hpage hlen
    (hlen ▸ hiw) torn

/-- Settles O54: the words below the cut are programmed, and the reset keeps flash. -/
theorem tornCommitLeavesAPrefix : Obligations.TornCommitLeavesAPrefix := by
  intro s d0 d1 i torn k rest hi hp hm hfull hhead hiw hs
  obtain ⟨v, hv⟩ : ∃ v, v = takeFrame (s.clearOutputs.setSched rest) := ⟨_, rfl⟩
  have hvi : Inv v := hi.congr_env (by simp [hv, takeFrame, State.setRxQueue, State.setSched, State.clearOutputs])
  have hcfg : v.cfg = s.cfg := by simp [hv, takeFrame]
  have hmem : v.mem = s.mem := by simp [hv, takeFrame]
  have htx : v.tx = [] := by simp [hv, takeFrame]
  have hpage : v.currentPage = s.currentPage := by simp [hv, takeFrame]
  have hbuf : filledBuf d0 d1 v = filledBuf d0 d1 s := by simp [hv, takeFrame, filledBuf]
  obtain ⟨a, post, hact, hlen, hrun, m, d, hleft, hprog⟩ := leftAt_beforeWord hvi (by simp [hv, takeFrame, hp])
    (by simp [hv, takeFrame, hm]) (by simp [hv, takeFrame, hfull]) d0 d1 (by rwa [hcfg]) torn
  rw [hcfg, hmem, hpage, hbuf] at hprog
  have hstep := step_cut_rx_at hi.admissible hp hhead hs hv (by rw [← hcfg]; exact hact) hlen hrun
  rw [hleft] at hstep
  have hread : ∀ p j, readWord (applyReset k { filled d0 d1 v with mem := m, draws := d }) p j =
      m.readHalf (pageAddress s.cfg p j) := fun p j => by simp [readWord, memRead, filled, hcfg]
  refine ⟨_, hstep, applyReset_phase _ _, applyReset_programmingMode _ _, by simp [filled, disarmed, htx],
    fun j hj => ?_, fun x hx => ?_⟩
  · rw [hread]
    refine ⟨hprog.taken j, hprog.drawn j, ?_, fun hj => hprog.above ?_⟩
    · rintro rfl
      exact hprog.inProgress
    · rcases hj with hlt | ⟨rfl, rfl⟩
      · have := torn.toNat_le
        omega
      · simp
  · rw [applyReset_mem]
    refine hprog.outside x (hx.imp_right fun h => ?_)
    have hcut := pageAddress_eq s.cfg s.currentPage.toNat (i + torn.toNat)
    have := torn.toNat_le
    unfold Config.pageBytes at h
    omega

/-! ### A reboot cut by a reset -/

/-- A calm action in progress leaves no mark (R158.3). -/
theorem tear_of_calm {a : Action} (h : a.calm = true) (s : State) : tear a s = s := by
  cases a with
  | eraseSector | memWrite => simp [Action.calm] at h
  | _ => rfl

/-- A calm action stores nothing. -/
theorem stores_of_calm {a : Action} (h : a.calm = true) : a.stores = false := by
  cases a with
  | eraseSector | memWrite => simp [Action.calm] at h
  | _ => rfl

/-- A cut step of calm actions is the reset of what its first actions left, whether one was in progress or not (R158). -/
theorem cutStep_of_calm {e : BlockEvent} {s : State} (h : ∀ a ∈ eventActions e s, a.calm = true) (hp : s.phase ≠ .fault)
    (n : Nat) (torn : Bool) (k : ResetKind) :
    cutStep e n torn k s = applyReset k (run ((eventActions e s).take n) (stepStart e s)) := by
  have hrun : (run ((eventActions e s).take n) (stepStart e s)).phase ≠ .fault :=
    run_calm (fun a ha => h a (List.mem_of_mem_take ha)) (by simpa using hp)
  have hleft : prefixState e n torn s = run ((eventActions e s).take n) (stepStart e s) := by
    unfold prefixState
    split
    next a ha => rw [if_neg hrun, tear_of_calm (h a (List.mem_of_getElem? ha))]
    next => rfl
  rw [cutStep, hleft]
  exact if_neg hrun

/-- An action that neither faults nor stores nor writes the latch. -/
def Action.quiet : Action → Bool
  | .setMagic _ => false
  | a => a.calm

theorem calm_of_quiet {a : Action} (h : a.quiet = true) : a.calm = true := by
  cases a with
  | setMagic => rfl
  | _ => exact h

theorem perform_magic_of_quiet {a : Action} (h : a.quiet = true) (s : State) : (perform a s).magic = s.magic := by
  cases a with
  | setTimer | setTimeoutEnabled => rfl
  | setMagic => simp [Action.quiet] at h
  | _ => exact (perform_keepsLatchAndTimeout rfl s).1

/-- The latch changes with the first action of the reboot (R75, R160). -/
theorem run_take_reboot_magic {pre : List Action} (hpre : ∀ a ∈ pre, a.quiet = true) {s : State} (hp : s.phase ≠ .fault)
    (c : Config) (n : Nat) :
    (run ((pre ++ rebootToApplication c).take n) s).magic = if n ≤ pre.length then s.magic else c.sentinel := by
  have hkept {as : List Action} (h : ∀ a ∈ as, a.quiet = true) (u : State) : (run as u).magic = u.magic :=
    run_frame State.magic (fun a ha => perform_magic_of_quiet (h a ha)) u
  rw [run_take_append]
  by_cases hn : n ≤ pre.length
  · rw [if_pos hn, Nat.sub_eq_zero_of_le hn, List.take_zero, run_nil]
    exact hkept (fun a ha => hpre a (List.mem_of_mem_take ha)) s
  · obtain ⟨m, hm⟩ : ∃ m, n - pre.length = m + 1 := ⟨n - pre.length - 1, by omega⟩
    have hrun : (run (pre.take n) s).phase ≠ .fault :=
      run_calm (fun a ha => calm_of_quiet (hpre a (List.mem_of_mem_take ha))) hp
    rw [if_neg hn, hm, rebootToApplication, List.take_succ_cons, run_cons hrun]
    refine hkept (fun a ha => ?_) _
    rcases List.mem_pair.1 (List.mem_of_mem_take ha) with rfl | rfl <;> rfl

/-- The latch after a reset under MAGIC_POR = cleared: a power-on clears it, a system reset keeps it (R33, R34). -/
def latchAfter (c : Config) (kept : Magic) : ResetKind → Magic
  | .powerOn => c.magicClear
  | .sysReset => kept

theorem applyReset_magic_of_cleared {s : State} (h : s.cfg.magicPor = .cleared) (k : ResetKind) :
    (applyReset k s).magic = latchAfter s.cfg s.magic k := by
  obtain ⟨m, d, e, hsys, hpor, _⟩ := applyReset_eq k s
  rw [e]
  cases k
  · exact hpor rfl h
  · exact hsys rfl

/-- A step that ends in the reboot, cut by a reset at any action: the latch holds its old value up to the write of the
sentinel, and a power-on clears it (R160). -/
theorem step_cut_reboot {s : State} {e : BlockEvent} {pre : List Action} {n : Nat} {torn : Bool} {k : ResetKind}
    {rest : List Event} (ha : s.cfg.admissible = true) (hp : s.phase ≠ .fault) (hpor : s.cfg.magicPor = .cleared)
    (hs : s.sched = .cut e n torn k :: rest) (he : blockEnabled e s = true) (hr : eventRefusal e s = none)
    (hact : eventActions e s = pre ++ rebootToApplication s.cfg) (hpre : ∀ a ∈ pre, a.quiet = true) :
    ∃ t, step s = .next t ∧ t.phase = .boot ∧ t.mem = s.mem ∧
      t.magic = latchAfter s.cfg (if n ≤ pre.length then s.magic else s.cfg.sentinel) k := by
  have hcalm : ∀ a ∈ eventActions e s, a.calm = true := by
    rw [hact, List.forall_mem_append]
    exact ⟨fun a ha => calm_of_quiet (hpre a ha), by simp [rebootToApplication, Action.calm]⟩
  have hcut := (step_cut ha hp hs he (by simpa using hr)).trans
    (congrArg _ (cutStep_of_calm (by simpa using hcalm) (by simpa using hp) n torn k))
  refine ⟨_, hcut, applyReset_phase _ _, ?_, ?_⟩
  · rw [applyReset_mem, run_mem fun a ha => stores_of_calm (hcalm a (by simpa using List.mem_of_mem_take ha))]
    simp
  · rw [applyReset_magic_of_cleared (by simpa using hpor)]
    simp only [eventActions_setSched, eventActions_clearOutputs, hact]
    rw [run_take_reboot_magic hpre (by simpa using hp)]
    simp

/-- Settles O56: RESET writes the sentinel after the disarm and the acknowledgement, the tick after the count. -/
theorem interruptedRebootLatch : Obligations.InterruptedRebootLatch := by
  intro s done torn k rest ha hp hpor
  have hf : s.phase ≠ .fault := by simp [hp]
  refine ⟨fun args hhead hs => ?_, fun hen hlast hs => ?_⟩
  · obtain ⟨hact, he, hr⟩ := eventActions_rx hhead
    refine step_cut_reboot (pre := addressed ++ [ack s.cfg .ok]) ha hf hpor hs (by simp [he, hp]) hr ?_ ?_
    · rw [hact]
      exact ifAddressed_self _ _
    · simp [addressed, ack, push, Action.quiet, Action.calm]
  · refine step_cut_reboot (pre := [.setTimer (s.timer + 1)]) ha hf hpor hs (by simp [blockEnabled, hp]) rfl ?_ ?_
    · simp [eventActions, tickActions, hen, hlast]
    · simp [Action.quiet, Action.calm]

end Sys2Proof.Machine
end
